-- ==== Sys2Proof/Config.lean ====
section
/-! DEFINITION. The constants of CHC (spec 00_scope.md R8), the implementation parameters (R9), and the
type of the tie-break parameter TIEBREAK (41_tree_engine.md R158). -/

namespace Sys2Proof.Config

/-- NSYM: the alphabet size (R8). -/
abbrev nsym : Nat := 259
/-- SYMW: the width of a symbol, of a symbol count and of a run count (R8). -/
abbrev symW : Nat := 9
/-- FILENAME_END (R8). -/
abbrev filenameEnd : BitVec symW := 256
/-- ONE_MORE_FILE (R8). -/
abbrev oneMoreFile : BitVec symW := 257
/-- ARCHIVE_END (R8). -/
abbrev archiveEnd : BitVec symW := 258
/-- NMIN, NMAX: the range of the bit count of a read and a write (R8). -/
abbrev nMin : Nat := 1
abbrev nMax : Nat := 64
/-- FREQ_W: the width of a frequency counter (R9). DESIGN CHOICE: the spec's default, log entry 5. -/
abbrev freqW : Nat := 64
/-- PRIO_W: the width of a node priority (R9). -/
abbrev prioW : Nat := freqW + 9
/-- MAXLEN: the greatest code length, and the width of a code value (R9). DESIGN CHOICE: the spec's default, log entry 5. -/
abbrev maxLen : Nat := 258
/-- CT_MAX: the entries of the code table (R9). -/
abbrev ctMax : Nat := 511
/-- LL_MAX: the entries of the length list (R9). -/
abbrev llMax : Nat := 511
/-- NODE_MAX: the nodes of the decode tree (R9). -/
abbrev nodeMax : Nat := 1 + llMax * maxLen

/-- A tree BUILD makes in its work area (41_tree_engine.md R156, R157). -/
inductive BTree where
  | leaf (sym : BitVec symW)
  | node (left right : BTree)
  deriving DecidableEq, Repr, Inhabited

/-- A node of the priority structure Q: its priority, its insertion number and its subtree (R155). The priority is the
exact sum (R172 b). -/
structure QNode where
  prio : Nat
  seq  : Nat
  tree : BTree
  deriving DecidableEq, Repr, Inhabited

/-- TIEBREAK (R158): given the nodes of Q that share the least priority, names one of them by its place in the list
(taken modulo the list's length, so that every value names one). -/
abbrev TieBreak := List QNode → Nat

end Sys2Proof.Config
end

