-- ==== Sys2Proof/Word.lean ====
section
/-! DEFINITION. The words of CHC: command words, bytes, symbols, lengths, code values and counts (spec 00_scope.md R8 to R11). -/

namespace Sys2Proof

/-- A command word (30_encoding.md R90). -/
abbrev Word := BitVec 32
/-- A byte of a stream (20_memory.md R61). -/
abbrev Byte := BitVec 8
/-- A 9-bit symbol field (00_scope.md R8). -/
abbrev Sym := BitVec Config.symW
/-- A 9-bit code length (10_state.md R24, R35). -/
abbrev Len := BitVec 9
/-- A code value, right-aligned in MAXLEN bits (00_scope.md R11). -/
abbrev CodeVal := BitVec Config.maxLen
/-- A frequency counter (10_state.md R34). -/
abbrev Count := BitVec Config.freqW

end Sys2Proof
end

