-- ==== Sys2Proof/Syntax.lean ====
section
/-! DEFINITION. The command set (spec 30_encoding.md R92): one constructor per row of spec/opcode_table.json, its operands
the 9-bit fields A and B of the word (R93). -/

namespace Sys2Proof

inductive Instr where
  | reset
  | rdbits (n : BitVec 9)
  | wrbits (n : BitVec 9)
  | wrflush
  | fclr
  | finc (y : BitVec 9)
  | fset (y : BitVec 9)
  | fget (y : BitVec 9)
  | build
  | ctrd (i : BitVec 9)
  | lclr
  | lpush (y : BitVec 9) (l : BitVec 9)
  | rebuild
  | walk (b : BitVec 9)
  | hdrwr
  | hdrrd
  | encsym (y : BitVec 9)
  | decsym
  | encfile
  | encclose
  | decblock
  | decall
  deriving DecidableEq, Repr

end Sys2Proof
end

