-- ==== Sys2Proof/Decode.lean ====
section
/-! DEFINITION. The decoder of a command word (spec 30_encoding.md R90 to R96) and, after it, the encoder. -/

namespace Sys2Proof

/-- Why a word is no command; each makes CHC raise IllegalCommandError (R95 step 3). -/
inductive Reject where
  | unknownOpcode   -- OP is none of the 22 opcodes (R96)
  | formatBits      -- a reserved bit is 1, or an operand field the format lacks is not 0 (R91)
  deriving DecidableEq, Repr

/-- The three formats (R91). -/
inductive Format where
  | z
  | a
  | ab
  deriving DecidableEq, Repr

/-- The bits of a word that a format fixes (R91). -/
def Format.mask : Format → Word
  | .z => 0xFFFFFFFF
  | .a => 0xFFFFFE00
  | .ab => 0xFFE00E00

/-- OP, bits 31:24 (R90). -/
def opField (w : Word) : BitVec 8 := w.extractLsb' 24 8
/-- A, bits 8:0, unsigned (R90, R93). -/
def aField (w : Word) : BitVec 9 := w.extractLsb' 0 9
/-- B, bits 20:12, unsigned (R90, R93). -/
def bField (w : Word) : BitVec 9 := w.extractLsb' 12 9

/-- The command an opcode names, with its format and its operands a and b in place (R92); none for the other 234
opcodes (R96). -/
def opcodeRow (op : BitVec 8) (a b : BitVec 9) : Option (Format × Instr) :=
  match op.toNat with
  | 0x01 => some (.z, .reset)
  | 0x10 => some (.a, .rdbits a)
  | 0x11 => some (.a, .wrbits a)
  | 0x12 => some (.z, .wrflush)
  | 0x20 => some (.z, .fclr)
  | 0x21 => some (.a, .finc a)
  | 0x22 => some (.a, .fset a)
  | 0x23 => some (.a, .fget a)
  | 0x24 => some (.z, .build)
  | 0x25 => some (.a, .ctrd a)
  | 0x26 => some (.z, .lclr)
  | 0x27 => some (.ab, .lpush a b)
  | 0x28 => some (.z, .rebuild)
  | 0x29 => some (.a, .walk a)
  | 0x30 => some (.z, .hdrwr)
  | 0x31 => some (.z, .hdrrd)
  | 0x32 => some (.a, .encsym a)
  | 0x33 => some (.z, .decsym)
  | 0x40 => some (.z, .encfile)
  | 0x41 => some (.z, .encclose)
  | 0x42 => some (.z, .decblock)
  | 0x43 => some (.z, .decall)
  | _ => none

/-- The match value of an opcode, OP << 24 (R91). -/
def matchWord (op : BitVec 8) : Word := op.setWidth 32 <<< 24

/-- Opcode and format (R95 step 3). The operand ranges of R94 are the next check, R95 step 4: `Instr.wf`, which exec makes. -/
def decode (w : Word) : Except Reject Instr :=
  match opcodeRow (opField w) (aField w) (bField w) with
  | none => .error .unknownOpcode
  | some (f, i) =>
    if w &&& f.mask = matchWord (opField w) then .ok i else .error .formatBits

/-- The opcode of a command (R92). -/
def Instr.opcode : Instr → BitVec 8
  | .reset => 0x01
  | .rdbits _ => 0x10
  | .wrbits _ => 0x11
  | .wrflush => 0x12
  | .fclr => 0x20
  | .finc _ => 0x21
  | .fset _ => 0x22
  | .fget _ => 0x23
  | .build => 0x24
  | .ctrd _ => 0x25
  | .lclr => 0x26
  | .lpush _ _ => 0x27
  | .rebuild => 0x28
  | .walk _ => 0x29
  | .hdrwr => 0x30
  | .hdrrd => 0x31
  | .encsym _ => 0x32
  | .decsym => 0x33
  | .encfile => 0x40
  | .encclose => 0x41
  | .decblock => 0x42
  | .decall => 0x43

/-- The operand field A of a command, 0 where its format has none (R91, R92). -/
def Instr.aOperand : Instr → BitVec 9
  | .rdbits n => n
  | .wrbits n => n
  | .finc y => y
  | .fset y => y
  | .fget y => y
  | .ctrd i => i
  | .lpush y _ => y
  | .walk b => b
  | .encsym y => y
  | .reset => 0
  | .wrflush => 0
  | .fclr => 0
  | .build => 0
  | .lclr => 0
  | .rebuild => 0
  | .hdrwr => 0
  | .hdrrd => 0
  | .decsym => 0
  | .encfile => 0
  | .encclose => 0
  | .decblock => 0
  | .decall => 0

/-- The operand field B of a command, 0 where its format has none (R91, R92). -/
def Instr.bOperand : Instr → BitVec 9
  | .lpush _ l => l
  | .rdbits _ => 0
  | .wrbits _ => 0
  | .finc _ => 0
  | .fset _ => 0
  | .fget _ => 0
  | .ctrd _ => 0
  | .walk _ => 0
  | .encsym _ => 0
  | .reset => 0
  | .wrflush => 0
  | .fclr => 0
  | .build => 0
  | .lclr => 0
  | .rebuild => 0
  | .hdrwr => 0
  | .hdrrd => 0
  | .decsym => 0
  | .encfile => 0
  | .encclose => 0
  | .decblock => 0
  | .decall => 0

/-- The word of a command: OP, three zero bits, B, three zero bits, A, from bit 31 down (R90). -/
def encode (i : Instr) : Word :=
  i.opcode ++ (0 : BitVec 3) ++ i.bOperand ++ (0 : BitVec 3) ++ i.aOperand

/-- The command the decoder reads from a table word of nbits bits, every bit above them 0. -/
def decodeTableWord (nbits w : Nat) : Option Instr :=
  match decode (BitVec.ofNat 32 (w % 2 ^ nbits)) with
  | .ok i => some i
  | .error _ => none

end Sys2Proof
end

