-- ==== Sys2Proof/Machine/State.lean ====
section
/-! DEFINITION. The state of CHC and of what the host holds for it (spec 10_state.md), the error kinds
(60_exceptions.md R241), the reasons a step can stop, and the state after reset (R47, R270). -/

namespace Sys2Proof.Machine

/-- The error kinds (60_exceptions.md R241). -/
inductive ErrKind where
  | endOfStream      -- R242
  | corruptTree      -- R243
  | codeOverflow     -- R244
  | degenerate       -- R245
  | format           -- R253
  | illegalCommand   -- R254
  | capacity         -- R255
  deriving DecidableEq, Repr, Inhabited

/-- A code: its length and its value, right-aligned (00_scope.md R11). -/
structure Code where
  len : Len
  val : CodeVal
  deriving DecidableEq, Repr, Inhabited

/-- An entry of the code table CT (10_state.md R35). -/
structure CodeEntry where
  sym  : Sym
  code : Code
  deriving DecidableEq, Repr, Inhabited

/-- An entry of the length list LL (10_state.md R36). -/
structure LenEntry where
  sym : Sym
  len : Len
  deriving DecidableEq, Repr, Inhabited

/-- The decode tree DT (10_state.md R38): the map from paths to node kinds, held as a tree. `absent` stands where no path
is in the map; a path in the map is Inner or a Leaf. Log entry 8. -/
inductive DTree where
  | absent
  | leaf (sym : Sym)
  | inner (left right : DTree)
  deriving DecidableEq, Repr, Inhabited

/-- A decoder output event (20_memory.md R66). `openTarget` is the spec's OPEN, `fin m` its END(m). -/
inductive Event where
  | name (b : Byte)
  | openTarget
  | data (b : Byte)
  | fin (more : Bool)
  deriving DecidableEq, Repr, Inhabited

/-- The width of a host access to the register space, in bytes. -/
inductive AccessSize where
  | b1
  | b2
  | b4
  | b8
  deriving DecidableEq, Repr, Inhabited

/-- What the host can do between commands (70_reset_and_hazards.md R270, R273, R288; 44_system.md R231, R232): access a
register at a byte offset, drive the reset input, or renew one of the sequences it owns (10_state.md R43). Log entries 1 and 14. -/
inductive HostAction where
  | writeReg (off : Nat) (size : AccessSize) (v : BitVec 64)
  | readReg (off : Nat) (size : AccessSize)
  | resetInput
  | setSrc (bs : List Byte)
  | setNamein (bs : List Byte)
  | setDatain (bs : List Byte)
  | newSink
  | newOut
  deriving DecidableEq, Repr, Inhabited

/-- A value the host read: the offset and what it got. -/
structure ReadEntry where
  off : Nat
  val : BitVec 64
  deriving DecidableEq, Repr, Inhabited

/-- The bit reader (10_state.md R32) with the host's byte source SRC that it fetches from (R43). -/
structure Bsr where
  src  : List Byte
  rbuf : Byte
  rcnt : BitVec 4
  eos  : Bool
  deriving DecidableEq, Repr, Inhabited

/-- The bit writer (10_state.md R33) with the host's byte sink SINK that it emits to (R43). -/
structure Bsw where
  sink    : List Byte
  wacc    : Byte
  wfill   : BitVec 3
  wclosed : Bool
  deriving DecidableEq, Repr, Inhabited

/-- The whole state: every element of 10_state.md, then the model's own three fields. -/
structure State where
  wdata   : BitVec 64                    -- R21
  rdata   : BitVec 64                    -- R22
  rsym    : Sym                          -- R23
  rlen    : Len                          -- R24
  rcode   : CodeVal                      -- R25
  fault   : Bool                         -- R27, R42
  err     : BitVec 3                     -- R42
  hit     : Bool                         -- R27
  more    : Bool                         -- R27
  written : Bool                         -- R27, R40
  bsr     : Bsr                          -- R32; SRC of R43; EOS of R27
  bsw     : Bsw                          -- R33; SINK of R43; WCLOSED of R27
  freq    : Vector Count Config.nsym     -- R34
  ct      : List CodeEntry               -- R35: the valid entries, CT[0] first
  ll      : List LenEntry                -- R36: the valid entries, LL[0] first
  dt      : DTree                        -- R38
  cur     : List Bool                    -- R39: a path from the root, false = left
  pomf    : Code                         -- R40
  paend   : Code                         -- R40
  namein  : List Byte                    -- R43
  datain  : List Byte                    -- R43
  out     : List Event                   -- R43
  script  : List HostAction              -- the host's pending actions, the next first; log entry 1
  reads   : List ReadEntry               -- what the host has read so far; log entry 15
  freeIdx : Nat                          -- advanced by every trap entry; log entry 3
  deriving DecidableEq, Repr, Inhabited

/-- The reasons a step can stop as a fault. No command word raises one: CHC's own errors are a sticky state
(60_exceptions.md R246), a next state here. -/
inductive Fault where
  /-- A host access that does not lie in the 0x80 bytes of the register space (20_memory.md R60, R70). Raised by the host's
  register accesses. Safe: the spec gives no such address. -/
  | outsideRegisterSpace
  deriving DecidableEq, Repr

/-- The reasons a step can be refused. No command word raises one. -/
inductive Refusal where
  /-- An instruction the model gives no meaning yet. No arm of exec answers it. Safe. -/
  | notModelled (mnemonic : String)
  /-- A host access narrower than a register or not at its offset (93_implementation_defined.md U12: "refuse"). Raised by
  the host's register accesses. Safe. -/
  | partialRegisterAccess
  deriving DecidableEq, Repr

/-- The state after reset: the values of 10_state.md R47. R47 gives no value for the host's five sequences: they are
empty here, and so are the model's own fields (DESIGN CHOICE, log entry 2). -/
def State.reset : State where
  wdata   := 0
  rdata   := 0
  rsym    := 0
  rlen    := 0
  rcode   := 0
  fault   := false
  err     := 0
  hit     := false
  more    := false
  written := false
  bsr     := ⟨[], 0, 0, false⟩
  bsw     := ⟨[], 0, 0, false⟩
  freq    := Vector.replicate Config.nsym 0
  ct      := []
  ll      := []
  dt      := .inner .absent .absent
  cur     := []
  pomf    := ⟨0, 0⟩
  paend   := ⟨0, 0⟩
  namein  := []
  datain  := []
  out     := []
  script  := []
  reads   := []
  freeIdx := 0

/-- NS, the number of valid entries of CT (10_state.md R30). Log entry 7. -/
def State.ns (s : State) : BitVec 9 := BitVec.ofNat 9 s.ct.length
/-- LN, the number of valid entries of LL (10_state.md R31). Log entry 7. -/
def State.ln (s : State) : BitVec 9 := BitVec.ofNat 9 s.ll.length

end Sys2Proof.Machine

namespace Sys2Proof.Config

/-- What a trap leaves unspecified (60_exceptions.md R246 d): a free state, of the error kind and the state at the raise
(whose counter `freeIdx` differs at every trap). Nothing constrains it. Log entry 3. -/
opaque afterFault (k : Machine.ErrKind) (s : Machine.State) : Machine.State

end Sys2Proof.Config
end

