-- ==== Sys2Proof/Machine/Operands.lean ====
section
/-! DEFINITION. How operands and stream contents are read as bits: fields (spec 20_memory.md R64), codes (R65, 00_scope.md
R11), the bytes of a stream (R61), and the operands of the commands (30_encoding.md R93). -/

namespace Sys2Proof.Machine

/-- The bits of an n-bit field of value v in stream order: bit 0 first (R64). -/
def fieldBits {w : Nat} (v : BitVec w) (n : Nat) : List Bool :=
  (List.range n).map fun i => v.getLsbD i

/-- The bits of a code in stream order: bit len − 1 first, bit 0 last (R11, R65). -/
def Code.bits (c : Code) : List Bool :=
  (List.range c.len.toNat).map fun i => c.val.getLsbD (c.len.toNat - 1 - i)

/-- The number whose bits in stream order, bit 0 first, are the given ones (R64). -/
def natOfBits : List Bool → Nat
  | [] => 0
  | b :: bs => b.toNat + 2 * natOfBits bs

/-- The bits of a byte stream: of each byte bit 0 first (R61). -/
def streamBits (bs : List Byte) : List Bool :=
  bs.flatMap fun b => fieldBits b 8

/-- A byte with its bit i set to b. -/
def setBit (v : Byte) (i : Nat) (b : Bool) : Byte :=
  if b then v ||| (1#8 <<< i) else v &&& ~~~(1#8 <<< i)

/-- The symbol of a literal byte (43_sequencer.md R210). -/
def literal (b : Byte) : Sym := b.setWidth 9

/-- The direction a WALK operand names: 0 left, 1 right (41_tree_engine.md R171). -/
def direction (b : BitVec 9) : Bool := b.getLsbD 0

/-- The count FSET takes from WDATA: its low FREQ_W bits (41_tree_engine.md R152). -/
def countOperand (wdata : BitVec 64) : Count := wdata.setWidth Config.freqW

end Sys2Proof.Machine
end

