-- ==== Sys2Proof/WellFormed.lean ====
section
/-! DEFINITION. The operand ranges of spec 30_encoding.md R94: a command whose operand is outside its range is illegal
(R95 step 4). -/

namespace Sys2Proof

/-- Every operand of the command is in its range (R94). -/
def Instr.wf : Instr → Bool
  | .reset => true
  | .rdbits n => decide (Config.nMin ≤ n.toNat) && decide (n.toNat ≤ Config.nMax)
  | .wrbits n => decide (Config.nMin ≤ n.toNat) && decide (n.toNat ≤ Config.nMax)
  | .wrflush => true
  | .fclr => true
  | .finc y => decide (y.toNat < Config.nsym)
  | .fset y => decide (y.toNat < Config.nsym)
  | .fget y => decide (y.toNat < Config.nsym)
  | .build => true
  | .ctrd _ => true
  | .lclr => true
  | .lpush _ l => decide (1 ≤ l.toNat)
  | .rebuild => true
  | .walk b => decide (b.toNat ≤ 1)
  | .hdrwr => true
  | .hdrrd => true
  | .encsym _ => true
  | .decsym => true
  | .encfile => true
  | .encclose => true
  | .decblock => true
  | .decall => true

end Sys2Proof
end

