-- ==== Sys2Proof/Machine/Ops.lean ====
section
/-! DEFINITION. The shared operations: the procedures' form, trap entry and its only exit, reset (spec 60_exceptions.md
R246, R250), the decode-time checks around a command (30_encoding.md R95), the stream primitives (00_scope.md R12), and
the accesses to the tables FREQ, CT and DT. -/

namespace Sys2Proof.Machine

/-- A procedure of the spec's pseudocode: it ends with a value and a state, or raises an error kind in the state its
executed lines left (R12 `raise`). -/
abbrev Proc (α : Type) := EStateM ErrKind State α

/-- A procedure that touches the bit reader and SRC alone. -/
abbrev BsrProc (α : Type) := EStateM ErrKind Bsr α

/-- A bit reader's procedure, run on the whole state. -/
def liftBsr {α : Type} (p : BsrProc α) : Proc α := fun s =>
  match p s.bsr with
  | .ok a r => .ok a { s with bsr := r }
  | .error k r => .error k { s with bsr := r }

/-- Apply a writer's operation. -/
def onBsw (f : Bsw → Bsw) : Proc Unit := fun s => .ok () { s with bsw := f s.bsw }

/-- `raise K` (R12). -/
def raise {σ α : Type} (k : ErrKind) : EStateM ErrKind σ α := fun s => .error k s

/-! ### Error codes and trap entry -/

/-- The code of an error kind (60_exceptions.md R241). -/
def ErrKind.code : ErrKind → BitVec 3
  | .endOfStream => 1
  | .corruptTree => 2
  | .codeOverflow => 3
  | .degenerate => 4
  | .format => 5
  | .illegalCommand => 6
  | .capacity => 7

/-- Trap entry (60_exceptions.md R246): FAULT and ERR are set; SRC, SINK, OUT are as the executed lines left them; WDATA and
the host's inputs keep their values; every other element is unspecified, a free value here (log entry 3). -/
def trapEntry (k : ErrKind) (s : State) : State :=
  { Config.afterFault k s with
    fault   := true
    err     := k.code
    wdata   := s.wdata
    bsr     := { (Config.afterFault k s).bsr with src := s.bsr.src }
    bsw     := { (Config.afterFault k s).bsw with sink := s.bsw.sink }
    namein  := s.namein
    datain  := s.datain
    out     := s.out
    script  := s.script
    reads   := s.reads
    freeIdx := s.freeIdx + 1 }

/-- Reset, the only exit from the fault state (60_exceptions.md R250): every element of 10_state.md R47 takes its reset value;
the host's five sequences stay as they are (44_system.md R230, 70_reset_and_hazards.md R270, R272). -/
def resetState (s : State) : State :=
  { State.reset with
    bsr     := { State.reset.bsr with src := s.bsr.src }
    bsw     := { State.reset.bsw with sink := s.bsw.sink }
    namein  := s.namein
    datain  := s.datain
    out     := s.out
    script  := s.script
    reads   := s.reads
    freeIdx := s.freeIdx }

/-- The step that a procedure's end makes: its state, or the trap it raised. -/
def finish (r : EStateM.Result ErrKind State Unit) : Host.Outcome State Fault Refusal :=
  match r with
  | .ok _ s => .next s
  | .error k s => .next (trapEntry k s)

/-- A command with its decode-time checks (30_encoding.md R95): ignored while FAULT = 1 (step 2), IllegalCommandError when
an operand is out of its range (step 4), else its procedure (step 5). Log entry 13. -/
def command (i : Instr) (p : Proc Unit) (s : State) : Host.Outcome State Fault Refusal :=
  if s.fault then .next s
  else if i.wf then finish (p s)
  else .next (trapEntry .illegalCommand s)

/-! ### Stream primitives (00_scope.md R12) -/

/-- `SrcNext()` (20_memory.md R62): none and no change when SRC is empty, else its first byte, removed. -/
def srcNext (r : Bsr) : Option Byte × Bsr :=
  match r.src with
  | [] => (none, r)
  | b :: rest => (some b, { r with src := rest })

/-- `SrcEmpty()` (R62). -/
def srcEmpty (r : Bsr) : Bool := r.src.isEmpty

/-- `SinkPut(b)` (R63). -/
def sinkPut (b : Byte) (w : Bsw) : Bsw := { w with sink := w.sink ++ [b] }

/-- `OutPut(e)` (R66). -/
def outPut (e : Event) : Proc Unit := fun s => .ok () { s with out := s.out ++ [e] }

/-! ### Tables -/

/-- FREQ[y]; the commands refuse y > 258 before they use it (30_encoding.md R94). -/
def State.freqAt (s : State) (y : Sym) : Count := s.freq[y.toNat]?.getD 0

/-- FREQ[y] <- c. -/
def State.setFreq (s : State) (y : Sym) (c : Count) : State :=
  { s with freq := s.freq.setIfInBounds y.toNat c }

/-- `CodeOf(y)`: the code of the first valid entry of CT with symbol y (10_state.md R37). -/
def codeOf (ct : List CodeEntry) (y : Sym) : Option Code :=
  (ct.find? fun e => e.sym == y).map CodeEntry.code

/-- The tree at a path, `absent` where the path is not in DT (10_state.md R38). -/
def DTree.sub : DTree → List Bool → DTree
  | t, [] => t
  | .inner l r, b :: p => (if b then r else l).sub p
  | .absent, _ :: _ => .absent
  | .leaf _, _ :: _ => .absent

/-- `Insert` (41_tree_engine.md R170) at a path with the leaf's symbol: internal nodes are made on demand. Log entry 8. -/
def DTree.insert : DTree → List Bool → Sym → DTree
  | _, [], y => .leaf y
  | .inner l r, b :: p, y => if b then .inner l (r.insert p y) else .inner (l.insert p y) r
  | .absent, b :: p, y =>
    if b then .inner .absent (DTree.absent.insert p y) else .inner (DTree.absent.insert p y) .absent
  | .leaf _, b :: p, y =>
    if b then .inner .absent (DTree.absent.insert p y) else .inner (DTree.absent.insert p y) .absent

end Sys2Proof.Machine
end

