-- ==== Sys2Proof/Machine/Flags.lean ====
section
/-! DEFINITION. The flags (spec 10_state.md R27), the STATUS word (R29), and how commands return a symbol and `moreFollow`
through HIT, RSYM and MORE (92_eei_decisions.md D27). EOS is written by the bit reader alone, WCLOSED by the writer's disposal. -/

namespace Sys2Proof.Machine

/-- STATUS (R29): bit 0 FAULT, 3:1 ERR, 4 EOS, 5 WCLOSED, 6 HIT, 7 MORE, 8 WRITTEN, 31:9 zero. -/
def State.statusWord (s : State) : Word :=
  (0 : BitVec 23) ++ BitVec.ofBool s.written ++ BitVec.ofBool s.more ++ BitVec.ofBool s.hit ++
    BitVec.ofBool s.bsw.wclosed ++ BitVec.ofBool s.bsr.eos ++ s.err ++ BitVec.ofBool s.fault

/-- The entry check of the write commands: IllegalCommandError when WCLOSED = 1 (R27, 60_exceptions.md R254). -/
def checkOpen : Proc Unit := fun s =>
  if s.bsw.wclosed then .error .illegalCommand s else .ok () s

/-- A symbol result: HIT <- 1, RSYM <- y (D27). -/
def setHit (y : Sym) : Proc Unit := fun s => .ok () { s with hit := true, rsym := y }

/-- WALK's result (41_tree_engine.md R171): a symbol sets HIT and RSYM; none clears HIT and keeps RSYM. -/
def setWalkResult (r : Option Sym) : Proc Unit :=
  match r with
  | some y => setHit y
  | none => modify fun s => { s with hit := false }

/-- MORE <- m. -/
def setMore (m : Bool) : Proc Unit := fun s => .ok () { s with more := m }

/-- WRITTEN <- 1 with POMF and PAEND (43_sequencer.md R210 step 5). -/
def setWritten (pomf paend : Code) : Proc Unit := fun s =>
  .ok () { s with pomf := pomf, paend := paend, written := true }

end Sys2Proof.Machine
end

