-- ==== Sys2Proof/Machine/BitStream.lean ====
section
/-! DEFINITION. The bit reader and writer and the commands RDBITS, WRBITS, WRFLUSH (spec 40_bitstream.md). -/

namespace Sys2Proof.Machine

/-! ### Reader procedures -/

/-- The last two lines of `BSR.FetchBit()` (R130): RBUF[8 − RCNT], and RCNT counts down. -/
def bufferedBit (r : Bsr) : Bool × Bsr :=
  (r.rbuf.getLsbD (8 - r.rcnt.toNat), { r with rcnt := r.rcnt - 1 })

/-- `BSR.FetchBit()` (R130): the next bit, or 0 and EOS once SRC is exhausted. -/
def fetchBit (r : Bsr) : Bool × Bsr :=
  if r.rcnt = 0 then
    match srcNext r with
    | (none, r') => (false, { r' with eos := true })
    | (some b, r') => bufferedBit { r' with rbuf := b, rcnt := 8 }
  else bufferedBit r

/-- n bit fetches, in order. -/
def fetchBits : Nat → Bsr → List Bool × Bsr
  | 0, r => ([], r)
  | n + 1, r =>
    let (b, r') := fetchBit r
    let (bs, r'') := fetchBits n r'
    (b :: bs, r'')

/-- `BSR.Read(n)` (R131): raises EndOfStreamError when EOS = 1 at its entry, else n bits, the first the least significant. -/
def bsrRead (n : Nat) : BsrProc (BitVec 64) := fun r =>
  if r.eos then .error .endOfStream r
  else
    let (bs, r') := fetchBits n r
    .ok (BitVec.ofNat 64 (natOfBits bs)) r'

/-! ### Writer procedures -/

/-- `BSW.AppendBit(b)` (R132). -/
def appendBit (b : Bool) (w : Bsw) : Bsw :=
  if w.wfill = 7 then
    { sinkPut (setBit w.wacc w.wfill.toNat b) w with wacc := 0, wfill := 0 }
  else { w with wacc := setBit w.wacc w.wfill.toNat b, wfill := w.wfill + 1 }

/-- Append bits in order. -/
def appendBits (bs : List Bool) (w : Bsw) : Bsw := bs.foldl (fun w b => appendBit b w) w

/-- `BSW.Write(v, n)` (R132): the low n bits of v, bit 0 first. -/
def bswWrite {k : Nat} (v : BitVec k) (n : Nat) (w : Bsw) : Bsw := appendBits (fieldBits v n) w

/-- `BSW.Dispose()` (R134): a partial byte goes out with its high bits zero, and the writer is closed. -/
def bswDispose (w : Bsw) : Bsw :=
  { (if w.wfill = 0 then w else sinkPut w.wacc w) with wacc := 0, wfill := 0, wclosed := true }

/-! ### Commands -/

/-- RDBITS n (R131). -/
def rdbitsProc (n : BitVec 9) : Proc Unit := do
  let v ← liftBsr (bsrRead n.toNat)
  modify fun s => { s with rdata := v }

def execRdbits (n : BitVec 9) (s : State) : Host.Outcome State Fault Refusal :=
  command (.rdbits n) (rdbitsProc n) s

/-- WRBITS n (R133). -/
def wrbitsProc (n : BitVec 9) : Proc Unit := do
  checkOpen
  let s ← get
  onBsw (bswWrite s.wdata n.toNat)

def execWrbits (n : BitVec 9) (s : State) : Host.Outcome State Fault Refusal :=
  command (.wrbits n) (wrbitsProc n) s

/-- WRFLUSH (R135). -/
def wrflushProc : Proc Unit := do
  checkOpen
  onBsw bswDispose

def execWrflush (s : State) : Host.Outcome State Fault Refusal :=
  command .wrflush wrflushProc s

end Sys2Proof.Machine
end

