-- ==== Sys2Proof/Machine/TreeEngine.lean ====
section
/-! DEFINITION. The tree engine and the commands FCLR, FINC, FSET, FGET, BUILD, CTRD, LCLR, LPUSH, REBUILD, WALK
(spec 41_tree_engine.md). -/

namespace Sys2Proof.Machine

open Sys2Proof.Config (BTree QNode TieBreak)

/-! ### Frequency table -/

/-- `HTE.FreqClear()` (R150). -/
def freqClear : Proc Unit := modify fun s => { s with freq := Vector.replicate Config.nsym 0 }

/-- `HTE.FreqInc(y)` (R151): CapacityError when the counter is at its greatest value. -/
def freqInc (y : Sym) : Proc Unit := fun s =>
  if s.freqAt y = BitVec.allOnes Config.freqW then .error .capacity s
  else .ok () (s.setFreq y (s.freqAt y + 1))

/-- FCLR (R150). -/
def execFclr (s : State) : Host.Outcome State Fault Refusal := command .fclr freqClear s

/-- FINC y (R151). -/
def execFinc (y : BitVec 9) (s : State) : Host.Outcome State Fault Refusal :=
  command (.finc y) (freqInc y) s

/-- FSET y (R152). -/
def fsetProc (y : Sym) : Proc Unit := modify fun s => s.setFreq y (countOperand s.wdata)

def execFset (y : BitVec 9) (s : State) : Host.Outcome State Fault Refusal :=
  command (.fset y) (fsetProc y) s

/-- FGET y (R153). -/
def fgetProc (y : Sym) : Proc Unit := modify fun s => { s with rdata := (s.freqAt y).setWidth 64 }

def execFget (y : BitVec 9) (s : State) : Host.Outcome State Fault Refusal :=
  command (.fget y) (fgetProc y) s

/-! ### BUILD -/

/-- The symbols with a nonzero count and their counts, by ascending symbol value (R155). -/
def presentSymbols (freq : Vector Count Config.nsym) : List (Sym × Nat) :=
  (freq.toList.zipIdx.filter fun p => p.1 ≠ 0).map fun p => (BitVec.ofNat Config.symW p.2, p.1.toNat)

/-- `MakeLeaves()` (R155): a leaf per present symbol, inserted by ascending symbol value and numbered from 0. -/
def makeLeaves (freq : Vector Count Config.nsym) : List QNode :=
  (presentSymbols freq).zipIdx.map fun p => ⟨p.1.2, p.2, .leaf p.1.1⟩

/-- The nodes of Q whose priority is least (R158). -/
def leastNodes (q : List QNode) : List QNode := q.filter fun x => q.all fun y => x.prio ≤ y.prio

/-- The default tie-break (R158): the node with the least sequence number. -/
def fifo : TieBreak := fun c => c.findIdx fun x => c.all fun y => x.seq ≤ y.seq

/-- TIEBREAK of this model: FIFO (R9). DESIGN CHOICE: the spec's default, log entry 6. -/
def tieBreak : TieBreak := fifo

/-- `ExtractMin(Q)` (R158): the node the tie-break names among the least ones, and Q without it. -/
def extractMin (tb : TieBreak) (q : List QNode) : Option (QNode × List QNode) :=
  let least := leastNodes q
  match least[tb least % least.length]? with
  | none => none
  | some x => some (x, q.erase x)

/-- `Merge(Q)` (R156), with the next sequence number; the first argument bounds the rounds, one per node of Q suffices
(log entry 10). None when Q is empty. -/
def merge (tb : TieBreak) : Nat → Nat → List QNode → Option BTree
  | 0, _, _ => none
  | k + 1, seq, q =>
    match extractMin tb q with
    | none => none
    | some (a, q1) =>
      match extractMin tb q1 with
      | none => some a.tree
      | some (b, q2) => merge tb k (seq + 1) (q2 ++ [⟨a.prio + b.prio, seq, .node a.tree b.tree⟩])

/-- The (depth, symbol) pairs of the leaves of a tree whose root has depth d (R159). -/
def leafDepths : Nat → BTree → List (Nat × Sym)
  | d, .leaf y => [(d, y)]
  | d, .node l r => leafDepths (d + 1) l ++ leafDepths (d + 1) r

/-- Canonical order (R160): length ascending, then symbol value ascending. -/
abbrev canonicalLE (a b : Nat × Sym) : Prop := a.1 < b.1 ∨ (a.1 = b.1 ∧ a.2.toNat ≤ b.2.toNat)

/-- Sort into canonical order (R160). -/
def canonicalSort (e : List (Nat × Sym)) : List (Nat × Sym) := e.insertionSort canonicalLE

/-- A table entry of a symbol, its length and its code value. -/
def tableEntry (y : Sym) (len val : Nat) : CodeEntry :=
  ⟨y, BitVec.ofNat 9 len, BitVec.ofNat Config.maxLen val⟩

/-- `Assign` after an entry of length plen and value pval (R162): none stands for CodeOverflowError. -/
def assignFrom : Nat → Nat → List (Nat × Sym) → Option (List CodeEntry)
  | _, _, [] => some []
  | plen, pval, (len, y) :: e =>
    if pval = 2 ^ plen - 1 then none
    else
      let val := (pval + 1) <<< (len - plen)
      match assignFrom len val e with
      | none => none
      | some t => some (tableEntry y len val :: t)

/-- `Assign(E)` (R162): none stands for CodeOverflowError. -/
def assign : List (Nat × Sym) → Option (List CodeEntry)
  | [] => some []
  | (len, y) :: e =>
    match assignFrom len 0 e with
    | none => none
    | some t => some (tableEntry y len 0 :: t)

/-- Steps 1 to 5 of `HTE.Build()` (R154): the code table of a frequency table, or the error kind raised. -/
def buildTable (tb : TieBreak) (freq : Vector Count Config.nsym) : Except ErrKind (List CodeEntry) :=
  let q := makeLeaves freq
  match merge tb q.length q.length q with
  | none => .error .degenerate
  | some root =>
    let e := canonicalSort (leafDepths 0 root)
    if e.any fun p => Config.maxLen < p.1 then .error .capacity
    else
      match assign e with
      | none => .error .codeOverflow
      | some t => .ok t

/-- `HTE.Build()` (R154): NS and CT are written, nothing else. -/
def build (tb : TieBreak) : Proc Unit := fun s =>
  match buildTable tb s.freq with
  | .error k => .error k s
  | .ok t => .ok () { s with ct := t }

/-- BUILD (R154). -/
def execBuild (s : State) : Host.Outcome State Fault Refusal := command .build (build tieBreak) s

/-- CTRD i (R166): IllegalCommandError when i ≥ NS. -/
def ctrdProc (i : BitVec 9) : Proc Unit := fun s =>
  match s.ct[i.toNat]? with
  | none => .error .illegalCommand s
  | some e => .ok () { s with rsym := e.sym, rlen := e.code.len, rcode := e.code.val }

def execCtrd (i : BitVec 9) (s : State) : Host.Outcome State Fault Refusal :=
  command (.ctrd i) (ctrdProc i) s

/-! ### The length list and REBUILD -/

/-- LCLR, `HTE.ListClear()` (R167). -/
def listClear : Proc Unit := modify fun s => { s with ll := [] }

def execLclr (s : State) : Host.Outcome State Fault Refusal := command .lclr listClear s

/-- `HTE.ListPush(y, l)` (R169): CapacityError when l > MAXLEN or the list is full. -/
def listPush (y : Sym) (l : Len) : Proc Unit := fun s =>
  if Config.maxLen < l.toNat then .error .capacity s
  else if Config.llMax ≤ s.ll.length then .error .capacity s
  else .ok () { s with ll := s.ll ++ [⟨y, l⟩] }

/-- LPUSH y, l (R169). -/
def execLpush (y l : BitVec 9) (s : State) : Host.Outcome State Fault Refusal :=
  command (.lpush y l) (listPush y l) s

/-- The (length, symbol) pairs of a length list (R168). -/
def lenPairs (ll : List LenEntry) : List (Nat × Sym) := ll.map fun e => (e.len.toNat, e.sym)

/-- DT after the insertion of every entry of a table into a bare root (R168, R170). -/
def treeOf (t : List CodeEntry) : DTree :=
  t.foldl (fun d e => d.insert e.code.bits e.sym) (.inner .absent .absent)

/-- `HTE.Rebuild()` (R168). -/
def rebuild : Proc Unit := fun s =>
  match assign (canonicalSort (lenPairs s.ll)) with
  | none => .error .codeOverflow s
  | some t => .ok () { s with ct := t, dt := treeOf t, cur := [] }

/-- REBUILD (R168). -/
def execRebuild (s : State) : Host.Outcome State Fault Refusal := command .rebuild rebuild s

/-! ### WALK -/

/-- The node a walk starts from: the root when the cursor is on a leaf, else the cursor (R171). -/
def walkStart (s : State) : List Bool :=
  match s.dt.sub s.cur with
  | .leaf _ => []
  | .absent => s.cur
  | .inner _ _ => s.cur

/-- `HTE.Walk(b)` (R171): CorruptTreeError when there is no child; the symbol when the child is a leaf. -/
def htWalk (b : Bool) : Proc (Option Sym) := fun s =>
  let p := walkStart s ++ [b]
  match s.dt.sub p with
  | .absent => .error .corruptTree s
  | .leaf y => .ok (some y) { s with cur := p }
  | .inner _ _ => .ok none { s with cur := p }

/-- WALK b (R171). -/
def walkProc (b : BitVec 9) : Proc Unit := do
  let r ← htWalk (direction b)
  setWalkResult r

def execWalk (b : BitVec 9) (s : State) : Host.Outcome State Fault Refusal :=
  command (.walk b) (walkProc b) s

end Sys2Proof.Machine
end

