-- ==== Sys2Proof/Machine/Serializer.lean ====
section
/-! DEFINITION. The serializer and the commands HDRWR, HDRRD, ENCSYM, DECSYM (spec 42_serializer.md). -/

namespace Sys2Proof.Machine

/-! ### Header -/

/-- The run counts of a header from the length L = 512 − k on (R190): one count per length until they sum to NS. The first
argument bounds the rounds by the greatest 9-bit length (log entry 10). -/
def runCounts : Nat → Nat → List CodeEntry → List Nat
  | 0, _, _ => []
  | k + 1, sum, ct =>
    if sum < ct.length then
      let c := ct.countP fun e => e.code.len.toNat = 511 - k
      c :: runCounts k (sum + c) ct
    else []

/-- The 9-bit fields of the header of a table (R190): symbol count, symbols, run counts. -/
def headerFields (ct : List CodeEntry) : List (BitVec 9) :=
  BitVec.ofNat 9 ct.length :: (ct.map CodeEntry.sym ++ (runCounts 511 0 ct).map (BitVec.ofNat 9))

/-- `SER.WriteHeader()` (R190): IllegalCommandError, before any bit, when an entry has length 0. -/
def writeHeader : Proc Unit := fun s =>
  if s.ct.any fun e => e.code.len == 0 then .error .illegalCommand s
  else .ok () { s with bsw := (headerFields s.ct).foldl (fun w v => bswWrite v 9 w) s.bsw }

/-- HDRWR (R190). -/
def hdrwrProc : Proc Unit := do
  checkOpen
  writeHeader

def execHdrwr (s : State) : Host.Outcome State Fault Refusal := command .hdrwr hdrwrProc s

/-- The symbol fields of a header (R192). -/
def readSyms : Nat → BsrProc (List Sym)
  | 0 => pure []
  | n + 1 => do
    let y ← bsrRead 9
    let ys ← readSyms n
    pure (y.setWidth 9 :: ys)

/-- The run counts of a header (R192), for the symbols that have no length yet, from the length L = MAXLEN + 1 − k on:
CapacityError before the count is read when L > MAXLEN, FormatError when a count takes more symbols than are left. -/
def readCounts : Nat → List Sym → BsrProc (List LenEntry)
  | _, [] => pure []
  | 0, _ :: _ => raise .capacity
  | k + 1, y :: ys => do
    let v ← bsrRead 9
    let c := v.toNat
    if (y :: ys).length < c then raise .format
    else do
      let rest ← readCounts k ((y :: ys).drop c)
      pure (((y :: ys).take c).map (fun z => ⟨z, BitVec.ofNat 9 (Config.maxLen - k)⟩) ++ rest)

/-- `SER.ReadHeader()` (R192), on the bit reader: the length list it stores. -/
def readHeaderList : BsrProc (List LenEntry) := do
  let n ← bsrRead 9
  let ys ← readSyms n.toNat
  readCounts Config.maxLen ys

/-- `SER.ReadHeader()` (R192): LL and LN are written. -/
def readHeader : Proc Unit := do
  let l ← liftBsr readHeaderList
  modify fun s => { s with ll := l }

/-- HDRRD (R192). -/
def execHdrrd (s : State) : Host.Outcome State Fault Refusal := command .hdrrd readHeader s

/-! ### Codes -/

/-- `SER.EmitCode` (R196): the code's bits, first bit first. -/
def emitCode (c : Code) : Proc Unit := onBsw (appendBits c.bits)

/-- `SER.EncSym(y)` (R197): IllegalCommandError when no valid entry of CT has the symbol. -/
def encSym (y : Sym) : Proc Unit := fun s =>
  match codeOf s.ct y with
  | none => .error .illegalCommand s
  | some c => emitCode c s

/-- ENCSYM y (R197). -/
def encsymProc (y : Sym) : Proc Unit := do
  checkOpen
  encSym y

def execEncsym (y : BitVec 9) (s : State) : Host.Outcome State Fault Refusal :=
  command (.encsym y) (encsymProc y) s

/-- A bound on the bits a reader can still deliver without raising: the unread real bits and the one silent read
(40_bitstream.md R131). Every successful read of a bit lowers it. -/
def bitBudget (r : Bsr) : Nat := 8 * r.src.length + r.rcnt.toNat + (if r.eos then 0 else 1)

/-- The loop of `SER.DecSym()` (R198): the read first, then the walk. The first argument bounds the rounds; the loop ends by
itself before the bound is used up (log entry 10). -/
def decSymLoop : Nat → Proc Sym
  | 0 => raise .endOfStream
  | k + 1 => do
    let v ← liftBsr (bsrRead 1)
    let r ← htWalk (v.getLsbD 0)
    match r with
    | some y => pure y
    | none => decSymLoop k

/-- `SER.DecSym()` (R198). -/
def decSym : Proc Sym := fun s => decSymLoop (bitBudget s.bsr + 1) s

/-- DECSYM (R198): RSYM and HIT return the symbol. -/
def decsymProc : Proc Unit := do
  let y ← decSym
  setHit y

def execDecsym (s : State) : Host.Outcome State Fault Refusal := command .decsym decsymProc s

end Sys2Proof.Machine
end

