-- ==== Sys2Proof/Machine/Sequencer.lean ====
section
/-! DEFINITION. The block sequencer and the commands ENCFILE, ENCCLOSE, DECBLOCK, DECALL (spec 43_sequencer.md). -/

namespace Sys2Proof.Machine

open Sys2Proof.Config (TieBreak)

/-- Count every symbol of a list, in order (R210 step 1). -/
def freqIncAll : List Sym → Proc Unit
  | [] => pure ()
  | y :: ys => do
    freqInc y
    freqIncAll ys

/-- Emit the code of every symbol of a list, in order (R210 step 4). -/
def encSyms : List Sym → Proc Unit
  | [] => pure ()
  | y :: ys => do
    encSym y
    encSyms ys

/-- `CodeOf(y)` where a code is there (R210 step 5). ENCFILE counted the symbol, so the other case is never met (log entry 11). -/
def codeOfPresent (y : Sym) : Proc Code := fun s =>
  match codeOf s.ct y with
  | none => .error .illegalCommand s
  | some c => .ok c s

/-- When a block was written, emit the code it left in POMF or PAEND (R210 step 2, R213). -/
def emitTerminator (c : State → Code) : Proc Unit := fun s =>
  if s.written then emitCode (c s) s else .ok () s

/-- `SEQ.EncodeFile()` (R210), for a tie-break: the previous block's ONE_MORE_FILE code comes from POMF (R212). -/
def encodeFile (tb : TieBreak) : Proc Unit := do
  let s ← get
  freqClear
  freqIncAll (s.namein.map literal)
  freqIncAll (s.datain.map literal)
  freqIncAll [Config.filenameEnd, Config.oneMoreFile, Config.archiveEnd]
  build tb
  emitTerminator State.pomf
  writeHeader
  encSyms (s.namein.map literal)
  encSym Config.filenameEnd
  encSyms (s.datain.map literal)
  let m ← codeOfPresent Config.oneMoreFile
  let e ← codeOfPresent Config.archiveEnd
  setWritten m e

/-- ENCFILE (R210), for a tie-break. -/
def encfileProc (tb : TieBreak) : Proc Unit := do
  checkOpen
  encodeFile tb

def execEncfile (s : State) : Host.Outcome State Fault Refusal := command .encfile (encfileProc tieBreak) s

/-- ENCCLOSE (R213): the last block's ARCHIVE_END code, then the writer's disposal. -/
def enccloseProc : Proc Unit := do
  checkOpen
  emitTerminator State.paend
  onBsw bswDispose

def execEncclose (s : State) : Host.Outcome State Fault Refusal := command .encclose enccloseProc s

/-- Step 3 of `SEQ.DecodeBlock()` (R214): the file name, up to FILENAME_END; another symbol above 255 is a FormatError (R216).
The first argument bounds the rounds (log entry 10). -/
def nameLoop : Nat → Proc Unit
  | 0 => raise .endOfStream
  | k + 1 => do
    let y ← decSym
    if y = Config.filenameEnd then pure ()
    else if Config.filenameEnd < y then raise .format
    else do
      outPut (.name (y.setWidth 8))
      nameLoop k

/-- Step 4 of `SEQ.DecodeBlock()` (R214): the content, up to a terminator, whose symbol it returns; FILENAME_END and a symbol
above 258 are a FormatError (R216). The first argument bounds the rounds (log entry 10). -/
def dataLoop : Nat → Proc Sym
  | 0 => raise .endOfStream
  | k + 1 => do
    let y ← decSym
    if y < Config.filenameEnd then do
      outPut (.data (y.setWidth 8))
      dataLoop k
    else if y = Config.oneMoreFile then do
      outPut (.fin true)
      pure y
    else if y = Config.archiveEnd then do
      outPut (.fin false)
      pure y
    else raise .format

/-- `SEQ.DecodeBlock()` (R214): returns the terminator, which is the last symbol DecSym returned; `moreFollow` is whether it is
ONE_MORE_FILE. -/
def decodeBlock : Proc Sym := do
  readHeader
  rebuild
  let s ← get
  nameLoop (bitBudget s.bsr + 1)
  outPut .openTarget
  let s ← get
  dataLoop (bitBudget s.bsr + 1)

/-- DECBLOCK (R214). -/
def decblockProc : Proc Unit := do
  let y ← decodeBlock
  setMore (y == Config.oneMoreFile)
  setHit y

def execDecblock (s : State) : Host.Outcome State Fault Refusal := command .decblock decblockProc s

/-- The loop of DECALL (R215): blocks until one ends with ARCHIVE_END. The first argument bounds the rounds (log entry 10). -/
def blockLoop : Nat → Proc Unit
  | 0 => raise .endOfStream
  | k + 1 => do
    let y ← decodeBlock
    setHit y
    if y = Config.oneMoreFile then blockLoop k else pure ()

/-- DECALL (R215): the empty archive is noticed at entry, without a fetch (92_eei_decisions.md D23). -/
def decallProc : Proc Unit := do
  let s ← get
  if srcEmpty s.bsr ∧ s.bsr.rcnt = 0 then setMore false
  else do
    blockLoop (bitBudget s.bsr + 1)
    setMore false

def execDecall (s : State) : Host.Outcome State Fault Refusal := command .decall decallProc s

end Sys2Proof.Machine
end

