-- ==== Sys2Proof/Machine/System.lean ====
section
/-! DEFINITION. The command RESET (spec 44_system.md R230). -/

namespace Sys2Proof.Machine

/-- RESET (R230): executed whatever FAULT is (30_encoding.md R95 step 1); it raises nothing. -/
def execReset (s : State) : Host.Outcome State Fault Refusal := .next (resetState s)

end Sys2Proof.Machine
end

