-- ==== Sys2Proof/Machine/Dispatch.lean ====
section
/-! DEFINITION. exec: one arm per command (spec 30_encoding.md R92). -/

namespace Sys2Proof.Machine

def exec (i : Instr) (s : State) : Host.Outcome State Fault Refusal :=
  match i with
  | .reset => Sys2Proof.Machine.execReset s
  | .rdbits n => Sys2Proof.Machine.execRdbits n s
  | .wrbits n => Sys2Proof.Machine.execWrbits n s
  | .wrflush => Sys2Proof.Machine.execWrflush s
  | .fclr => Sys2Proof.Machine.execFclr s
  | .finc y => Sys2Proof.Machine.execFinc y s
  | .fset y => Sys2Proof.Machine.execFset y s
  | .fget y => Sys2Proof.Machine.execFget y s
  | .build => Sys2Proof.Machine.execBuild s
  | .ctrd k => Sys2Proof.Machine.execCtrd k s
  | .lclr => Sys2Proof.Machine.execLclr s
  | .lpush y l => Sys2Proof.Machine.execLpush y l s
  | .rebuild => Sys2Proof.Machine.execRebuild s
  | .walk b => Sys2Proof.Machine.execWalk b s
  | .hdrwr => Sys2Proof.Machine.execHdrwr s
  | .hdrrd => Sys2Proof.Machine.execHdrrd s
  | .encsym y => Sys2Proof.Machine.execEncsym y s
  | .decsym => Sys2Proof.Machine.execDecsym s
  | .encfile => Sys2Proof.Machine.execEncfile s
  | .encclose => Sys2Proof.Machine.execEncclose s
  | .decblock => Sys2Proof.Machine.execDecblock s
  | .decall => Sys2Proof.Machine.execDecall s

end Sys2Proof.Machine
end

