-- ==== Sys2Proof/Machine/HostAccess.lean ====
section
/-! DEFINITION. What the host does to CHC: the register map (spec 20_memory.md R70), register reads and writes (44_system.md R231,
R232), the issue of a command word (30_encoding.md R95), the reset input (70_reset_and_hazards.md R270), the renewal of the
host-owned sequences (R272, R273), and the two macros (30_encoding.md R98). -/

namespace Sys2Proof.Machine

/-- The registers of the map (R70). `rcode j` is word j of RCODE. -/
inductive HostReg where
  | cmd
  | status
  | wdata
  | rdata
  | rsym
  | rlen
  | ns
  | ln
  | rcode (j : Nat)
  deriving DecidableEq, Repr

/-- The bytes of an access. -/
def AccessSize.bytes : AccessSize → Nat
  | .b1 => 1
  | .b2 => 2
  | .b4 => 4
  | .b8 => 8

/-- The size of the register space in bytes (R60, R70). -/
def regSpace : Nat := 0x80

/-- The number of RCODE words, ceil(MAXLEN / 64) (R70). -/
def rcodeWords : Nat := (Config.maxLen + 63) / 64

/-- The register that an access reaches whole: at the register's own offset and of its own width (R70). -/
def regAt (off : Nat) (size : AccessSize) : Option HostReg :=
  match size with
  | .b4 =>
    if off = 0x00 then some .cmd
    else if off = 0x04 then some .status
    else if off = 0x18 then some .rsym
    else if off = 0x1C then some .rlen
    else if off = 0x20 then some .ns
    else if off = 0x24 then some .ln
    else none
  | .b8 =>
    if off = 0x08 then some .wdata
    else if off = 0x10 then some .rdata
    else if 0x40 ≤ off ∧ off < 0x40 + 8 * rcodeWords ∧ off % 8 = 0 then some (.rcode ((off - 0x40) / 8))
    else none
  | .b1 => none
  | .b2 => none

/-- The access lies in the reserved offsets alone (R70). -/
def reservedAt (off : Nat) (size : AccessSize) : Bool :=
  (decide (0x28 ≤ off) && decide (off + size.bytes ≤ 0x40)) ||
    (decide (0x40 + 8 * rcodeWords ≤ off) && decide (off + size.bytes ≤ regSpace))

/-- The value a register reads as, bits above its width 0 (R70, R231). CMD holds no state and reads 0 (10_state.md R28). -/
def State.regValue (s : State) : HostReg → BitVec 64
  | .cmd => 0
  | .status => s.statusWord.setWidth 64
  | .wdata => s.wdata
  | .rdata => s.rdata
  | .rsym => s.rsym.setWidth 64
  | .rlen => s.rlen.setWidth 64
  | .ns => s.ns.setWidth 64
  | .ln => s.ln.setWidth 64
  | .rcode j => s.rcode.extractLsb' (64 * j) 64

/-- The word of RESET, which the decode-time checks single out (R95 step 1). -/
def resetWord : Word := 0x01000000

/-- A word is written to CMD (R95 steps 1 to 3): RESET whatever FAULT is; ignored while FAULT = 1; IllegalCommandError when it is
no command; else exec, which makes the check of step 4 first. -/
def issueWord (w : Word) (s : State) : Host.Outcome State Fault Refusal :=
  if w = resetWord then exec .reset s
  else if s.fault then .next s
  else
    match decode w with
    | .error _ => .next (trapEntry .illegalCommand s)
    | .ok i => exec i s

/-- A host write to a register (R232): CMD issues a command, WDATA takes the value whatever FAULT is, the others ignore it. -/
def writeHostReg (r : HostReg) (v : BitVec 64) (s : State) : Host.Outcome State Fault Refusal :=
  match r with
  | .cmd => issueWord (v.setWidth 32) s
  | .wdata => .next { s with wdata := v }
  | .status => .next s
  | .rdata => .next s
  | .rsym => .next s
  | .rlen => .next s
  | .ns => .next s
  | .ln => .next s
  | .rcode _ => .next s

/-- The host gets the value v at an offset (log entry 15). -/
def recordRead (off : Nat) (v : BitVec 64) (s : State) : State := { s with reads := s.reads ++ [⟨off, v⟩] }

/-- An access that is neither a whole register nor reserved: outside the register space it stops as a fault, inside it is
refused (93_implementation_defined.md U12, log entry 12). -/
def badAccess (off : Nat) (size : AccessSize) : Host.Outcome State Fault Refusal :=
  if regSpace < off + size.bytes then .fault .outsideRegisterSpace else .refused .partialRegisterAccess

/-- A host write (R70, R232); a write to a reserved offset is ignored. -/
def hostWrite (off : Nat) (size : AccessSize) (v : BitVec 64) (s : State) : Host.Outcome State Fault Refusal :=
  match regAt off size with
  | some r => writeHostReg r v s
  | none => if reservedAt off size then .next s else badAccess off size

/-- A host read (R70, R231): no side effect but that the host has the value; a reserved offset reads 0. -/
def hostRead (off : Nat) (size : AccessSize) (s : State) : Host.Outcome State Fault Refusal :=
  match regAt off size with
  | some r => .next (recordRead off (s.regValue r) s)
  | none => if reservedAt off size then .next (recordRead off 0 s) else badAccess off size

/-- One action of the host. -/
def hostAction (a : HostAction) (s : State) : Host.Outcome State Fault Refusal :=
  match a with
  | .writeReg off size v => hostWrite off size v s
  | .readReg off size => hostRead off size s
  | .resetInput => .next (resetState s)
  | .setSrc bs => .next { s with bsr := { s.bsr with src := bs } }
  | .setNamein bs => .next { s with namein := bs }
  | .setDatain bs => .next { s with datain := bs }
  | .newSink => .next { s with bsw := { s.bsw with sink := [] } }
  | .newOut => .next { s with out := [] }

/-- The host writes a command word to CMD. -/
def HostAction.issue (w : Word) : HostAction := .writeReg 0x00 .b4 (w.setWidth 64)

/-- The host writes WDATA. -/
def HostAction.setWdata (v : BitVec 64) : HostAction := .writeReg 0x08 .b8 v

/-- The macro `WR v, n` (R98): WDATA = v, then WRBITS n. -/
def HostAction.wr (v : BitVec 64) (n : BitVec 9) : List HostAction :=
  [HostAction.setWdata v, HostAction.issue (encode (.wrbits n))]

/-- The macro `FLOAD y, v` (R98): WDATA = v, then FSET y. -/
def HostAction.fload (y : BitVec 9) (v : BitVec 64) : List HostAction :=
  [HostAction.setWdata v, HostAction.issue (encode (.fset y))]

end Sys2Proof.Machine
end

