-- ==== Sys2Proof/Machine/Step.lean ====
section
/-! DEFINITION. One step of a run (spec 70_reset_and_hazards.md R288): the host's next pending action. CHC does nothing of its
own (R271): with no action pending the state stays as it is (log entry 1). -/

namespace Sys2Proof.Machine

def step (s : State) : Host.Outcome State Fault Refusal :=
  match s.script with
  | [] => .next s
  | a :: rest => hostAction a { s with script := rest }

/-- The state in which the host's next action is to write the word w (its low nbits bits) to CMD: CHC fetches nothing, a command
exists only as the word the host writes (20_memory.md R75, log entry 1). -/
def State.withFetchWord (s : State) (nbits w : Nat) : State :=
  { s with script := HostAction.issue (BitVec.ofNat 32 (w % 2 ^ nbits)) :: s.script }

end Sys2Proof.Machine
end

