-- ==== Sys2Proof/Safety.lean ====
section
/-! DEFINITION. The terms claims are stated in: the bit streams a reader has before it and a writer has behind it, what the
spec's tables say of words, headers and blocks, and the invariant of spec 10_state.md R45. Nothing here is used by the machine. -/

namespace Sys2Proof.Machine

/-! ### The streams as bits -/

/-- The real bits a reader has not delivered yet: the unread bits of RBUF, then the bits of SRC (10_state.md R32, 20_memory.md R61). -/
def Bsr.unread (r : Bsr) : List Bool := (fieldBits r.rbuf 8).drop (8 - r.rcnt.toNat) ++ streamBits r.src

/-- The bits a writer was given so far: those of SINK, then the filled bits of WACC (10_state.md R33). -/
def Bsw.bits (w : Bsw) : List Bool := streamBits w.sink ++ (fieldBits w.wacc 8).take w.wfill.toNat

/-- The next 9-bit reads give the fields vs, then the real bits of rest: m bits of the last field lie past the end of the stream and
read as 0 (40_bitstream.md R130, R131). -/
def Bsr.offers (r : Bsr) (vs : List (BitVec 9)) (rest : List Bool) (m : Nat) : Prop :=
  r.unread ++ List.replicate m false = vs.flatMap (fun v => fieldBits v 9) ++ rest ∧ (m = 0 ∨ m ≤ 9 ∧ rest = [] ∧ vs ≠ [])

/-- WACC[7:WFILL] = 0 (10_state.md R45). -/
def Bsw.clean (w : Bsw) : Prop := ∀ i, w.wfill.toNat ≤ i → w.wacc.getLsbD i = false

/-! ### Words -/

/-- A row of the opcode table (spec/opcode_table.json): opcode, mask, and the legal values of the fields A and B (30_encoding.md
R91, R92, R94). -/
structure OpcodeRow where
  op   : BitVec 8
  mask : Word
  aLo  : Nat
  aHi  : Nat
  bLo  : Nat
  bHi  : Nat
  deriving DecidableEq, Repr

/-- The table, row by row as the spec prints it. -/
def opcodeTable : List OpcodeRow :=
  [⟨0x01, 0xFFFFFFFF, 0, 0, 0, 0⟩, ⟨0x10, 0xFFFFFE00, 1, 64, 0, 0⟩, ⟨0x11, 0xFFFFFE00, 1, 64, 0, 0⟩,
   ⟨0x12, 0xFFFFFFFF, 0, 0, 0, 0⟩, ⟨0x20, 0xFFFFFFFF, 0, 0, 0, 0⟩, ⟨0x21, 0xFFFFFE00, 0, 258, 0, 0⟩,
   ⟨0x22, 0xFFFFFE00, 0, 258, 0, 0⟩, ⟨0x23, 0xFFFFFE00, 0, 258, 0, 0⟩, ⟨0x24, 0xFFFFFFFF, 0, 0, 0, 0⟩,
   ⟨0x25, 0xFFFFFE00, 0, 511, 0, 0⟩, ⟨0x26, 0xFFFFFFFF, 0, 0, 0, 0⟩] ++
  [⟨0x27, 0xFFE00E00, 0, 511, 1, 511⟩, ⟨0x28, 0xFFFFFFFF, 0, 0, 0, 0⟩, ⟨0x29, 0xFFFFFE00, 0, 1, 0, 0⟩,
   ⟨0x30, 0xFFFFFFFF, 0, 0, 0, 0⟩, ⟨0x31, 0xFFFFFFFF, 0, 0, 0, 0⟩, ⟨0x32, 0xFFFFFE00, 0, 511, 0, 0⟩,
   ⟨0x33, 0xFFFFFFFF, 0, 0, 0, 0⟩, ⟨0x40, 0xFFFFFFFF, 0, 0, 0, 0⟩, ⟨0x41, 0xFFFFFFFF, 0, 0, 0, 0⟩,
   ⟨0x42, 0xFFFFFFFF, 0, 0, 0, 0⟩, ⟨0x43, 0xFFFFFFFF, 0, 0, 0, 0⟩]

/-- A word is a legal command word: `w & mask = match` for a row, with its operands in their ranges (R91, R94, R95). -/
def legalWord (w : Word) : Prop :=
  ∃ row ∈ opcodeTable, w &&& row.mask = row.op.setWidth 32 <<< 24 ∧
    row.aLo ≤ (w.extractLsb' 0 9).toNat ∧ (w.extractLsb' 0 9).toNat ≤ row.aHi ∧
    row.bLo ≤ (w.extractLsb' 12 9).toNat ∧ (w.extractLsb' 12 9).toNat ≤ row.bHi

/-- The error kinds a command can raise while it executes (60_exceptions.md R256, with the default MAXLEN). -/
def mayRaise : Instr → List ErrKind
  | .reset => []
  | .rdbits _ => [.endOfStream]
  | .wrbits _ => [.illegalCommand]
  | .wrflush => [.illegalCommand]
  | .fclr => []
  | .finc _ => [.capacity]
  | .fset _ => []
  | .fget _ => []
  | .build => [.degenerate]
  | .ctrd _ => [.illegalCommand]
  | .lclr => []
  | .lpush _ _ => [.capacity]
  | .rebuild => [.codeOverflow]
  | .walk _ => [.corruptTree]
  | .hdrwr => [.illegalCommand]
  | .hdrrd => [.endOfStream, .format, .capacity]
  | .encsym _ => [.illegalCommand]
  | .decsym => [.endOfStream, .corruptTree]
  | .encfile => [.illegalCommand, .capacity]
  | .encclose => [.illegalCommand]
  | .decblock => [.endOfStream, .corruptTree, .codeOverflow, .format, .capacity]
  | .decall => [.endOfStream, .corruptTree, .codeOverflow, .format, .capacity]

/-- The elements of the state, as the command rules list what they write (10_state.md R21 to R43). `reader` is SRC, RBUF and RCNT,
`writer` is SINK, WACC and WFILL. -/
inductive Element where
  | wdata
  | rdata
  | rsym
  | rlen
  | rcode
  | hit
  | more
  | written
  | reader
  | eos
  | writer
  | wclosed
  | freq
  | ct
  | ll
  | dt
  | cur
  | pomf
  | paend
  | namein
  | datain
  | out
  deriving DecidableEq, Repr

/-- An element has the same value in two states. -/
def Element.sameIn (s t : State) : Element → Prop
  | .wdata => t.wdata = s.wdata
  | .rdata => t.rdata = s.rdata
  | .rsym => t.rsym = s.rsym
  | .rlen => t.rlen = s.rlen
  | .rcode => t.rcode = s.rcode
  | .hit => t.hit = s.hit
  | .more => t.more = s.more
  | .written => t.written = s.written
  | .reader => t.bsr.src = s.bsr.src ∧ t.bsr.rbuf = s.bsr.rbuf ∧ t.bsr.rcnt = s.bsr.rcnt
  | .eos => t.bsr.eos = s.bsr.eos
  | .writer => t.bsw.sink = s.bsw.sink ∧ t.bsw.wacc = s.bsw.wacc ∧ t.bsw.wfill = s.bsw.wfill
  | .wclosed => t.bsw.wclosed = s.bsw.wclosed
  | .freq => t.freq = s.freq
  | .ct => t.ct = s.ct
  | .ll => t.ll = s.ll
  | .dt => t.dt = s.dt
  | .cur => t.cur = s.cur
  | .pomf => t.pomf = s.pomf
  | .paend => t.paend = s.paend
  | .namein => t.namein = s.namein
  | .datain => t.datain = s.datain
  | .out => t.out = s.out

/-- The elements a command may write when it raises nothing: the "State written" and "Flags written" of its rule. RESET writes
every element but the host's sequences (44_system.md R230) and is not listed here. -/
def writesOf : Instr → List Element
  | .reset => []
  | .rdbits _ => [.rdata, .reader, .eos]
  | .wrbits _ => [.writer]
  | .wrflush => [.writer, .wclosed]
  | .fclr => [.freq]
  | .finc _ => [.freq]
  | .fset _ => [.freq]
  | .fget _ => [.rdata]
  | .build => [.ct]
  | .ctrd _ => [.rsym, .rlen, .rcode]
  | .lclr => [.ll]
  | .lpush _ _ => [.ll]
  | .rebuild => [.ct, .dt, .cur]
  | .walk _ => [.cur, .hit, .rsym]
  | .hdrwr => [.writer]
  | .hdrrd => [.ll, .reader, .eos]
  | .encsym _ => [.writer]
  | .decsym => [.cur, .reader, .eos, .rsym, .hit]
  | .encfile => [.freq, .ct, .pomf, .paend, .writer, .written]
  | .encclose => [.writer, .wclosed]
  | .decblock => [.ll, .ct, .dt, .cur, .reader, .eos, .out, .rsym, .more, .hit]
  | .decall => [.ll, .ct, .dt, .cur, .reader, .eos, .out, .rsym, .more, .hit]

/-! ### Host accesses -/

/-- The accesses that reach a whole register: its offset and its own width (20_memory.md R70), with the five RCODE words of MAXLEN = 258
(log entry 5). -/
def wholeRegisters : List (Nat × AccessSize) :=
  [(0x00, .b4), (0x04, .b4), (0x08, .b8), (0x10, .b8), (0x18, .b4), (0x1C, .b4), (0x20, .b4), (0x24, .b4), (0x40, .b8), (0x48, .b8),
   (0x50, .b8), (0x58, .b8), (0x60, .b8)]

/-! ### Runs of a writer, a reader and an archive session -/

/-- A writer performs writes `(v, n)` in order (20_memory.md R77). -/
def writeAll (l : List (BitVec 64 × Nat)) (w : Bsw) : Bsw := l.foldl (fun w p => bswWrite p.1 p.2 w) w

/-- A reader performs reads of the given widths in order (40_bitstream.md R136). -/
def readAll : List Nat → BsrProc (List (BitVec 64))
  | [] => pure []
  | n :: ns => do
    let v ← bsrRead n
    let vs ← readAll ns
    pure (v :: vs)

/-- A decoder decodes a number of symbols (42_serializer.md R199). -/
def decSyms : Nat → Proc (List Sym)
  | 0 => pure []
  | n + 1 => do
    let y ← decSym
    let ys ← decSyms n
    pure (y :: ys)

/-! ### Tables, headers and blocks -/

/-- The (symbol, length) pairs of a code table. -/
def lenEntries (t : List CodeEntry) : List LenEntry := t.map fun e => ⟨e.sym, e.code.len⟩

/-- A symbol's count, 0 for a value above 258 (41_tree_engine.md R150 to R153). -/
def countOf (f : Vector Count 259) (y : Sym) : Nat := (f[y.toNat]?.getD 0).toNat

/-- The greatest length of a list, 0 for the empty list. -/
def greatestLen (l : List LenEntry) : Nat := (l.map fun e => e.len.toNat).foldr max 0

/-- The 9-bit fields of a header as 30_encoding.md R100 and R102 lay it out: the symbol count, the symbols, and for every length
from 1 to the greatest one how many symbols have it. -/
def headerLayout (l : List LenEntry) : List Nat :=
  l.length :: (l.map (fun e => e.sym.toNat) ++
    (List.range (greatestLen l)).map fun j => l.countP fun e => e.len.toNat = j + 1)

/-- The bits of a header: each field 9 bits, least significant bit first (R100, R101). -/
def headerBits (l : List LenEntry) : List Bool :=
  (headerLayout l).flatMap fun v => fieldBits (BitVec.ofNat 9 v) 9

/-- The strict canonical order of table entries (41_tree_engine.md R160). -/
def CodeEntry.before (a b : CodeEntry) : Prop :=
  a.code.len.toNat < b.code.len.toNat ∨ (a.code.len = b.code.len ∧ a.sym.toNat < b.sym.toNat)

/-- The concatenated codes of a list of symbols under a table; none when one has no code. -/
def codeBits (t : List CodeEntry) : List Sym → Option (List Bool)
  | [] => some []
  | y :: ys =>
    match codeOf t y, codeBits t ys with
    | some c, some bs => some (c.bits ++ bs)
    | _, _ => none

/-- A length list that a header can carry: at most 511 entries, lengths from 1 to MAXLEN in ascending order
(30_encoding.md R103, R107). -/
def usableList (l : List LenEntry) : Prop :=
  l.length ≤ Config.llMax ∧
    (∀ e ∈ l, 1 ≤ e.len.toNat ∧ e.len.toNat ≤ Config.maxLen) ∧ l.Pairwise fun a b => a.len.toNat ≤ b.len.toNat

/-- The code table that a length list determines (41_tree_engine.md R162). -/
def tableOf (l : List LenEntry) : Option (List CodeEntry) := assign (canonicalSort (lenPairs l))

/-- A file: its name and its content (43_sequencer.md R210). -/
structure File where
  name : List Byte
  data : List Byte
  deriving DecidableEq, Repr

/-- The symbols of a block after its header, with the terminator (30_encoding.md R100). -/
def File.symbols (f : File) (term : Sym) : List Sym :=
  f.name.map literal ++ [Config.filenameEnd] ++ f.data.map literal ++ [term]

/-- The events a decoder hands over for a file (20_memory.md R66). -/
def File.events (f : File) (more : Bool) : List Event :=
  f.name.map Event.name ++ [.openTarget] ++ f.data.map Event.data ++ [.fin more]

/-- The bits of a block (30_encoding.md R100): the header of its list, then its codes. -/
def blockBits (l : List LenEntry) (f : File) (term : Sym) : Option (List Bool) :=
  match tableOf l with
  | none => none
  | some t =>
    match codeBits t (f.symbols term) with
    | none => none
    | some bs => some (headerBits l ++ bs)

/-- A block to decode: its length list and its file. -/
structure Block where
  lens : List LenEntry
  file : File
  deriving DecidableEq, Repr

/-- The bits of a chain of blocks (30_encoding.md R99, R104): all but the last end with ONE_MORE_FILE, the last with
ARCHIVE_END. -/
def archiveBits : List Block → Option (List Bool)
  | [] => some []
  | [b] => blockBits b.lens b.file Config.archiveEnd
  | b :: b' :: bs =>
    match blockBits b.lens b.file Config.oneMoreFile, archiveBits (b' :: bs) with
    | some x, some y => some (x ++ y)
    | _, _ => none

/-- The events of a chain of files (43_sequencer.md R217). -/
def archiveEvents : List File → List Event
  | [] => []
  | [f] => f.events false
  | f :: f' :: fs => f.events true ++ archiveEvents (f' :: fs)

/-- An encode session (70_reset_and_hazards.md R274) under a tie-break: ENCFILE for each file with NAMEIN and DATAIN set to it, then
ENCCLOSE; none when a command stops. Under `tieBreak` the commands are those of exec. -/
def encodeSession (tb : Config.TieBreak) : List File → State → Option State
  | [], s =>
    match exec .encclose s with
    | .next t => some t
    | .fault _ => none
    | .refused _ => none
  | f :: fs, s =>
    match command .encfile (encfileProc tb) { s with namein := f.name, datain := f.data } with
    | .next t => encodeSession tb fs t
    | .fault _ => none
    | .refused _ => none

/-- The frequency table of a file (43_sequencer.md R210 step 1): each byte once per occurrence, each control symbol once. -/
def File.counts (f : File) (y : Nat) : Nat :=
  (f.name ++ f.data).countP (fun b => b.toNat = y) + (if 256 ≤ y ∧ y ≤ 258 then 1 else 0)

/-! ### The invariant -/

/-- What 10_state.md R45 says holds between commands while FAULT = 0, with ERR = 0 (R29) and the shape of DT (R38, R171 c). Its
clause on EOS is `State.EosInv`. The bounds of WFILL, NS and LN that R45 names follow from widths or from the lists' lengths. -/
structure State.Inv (s : State) : Prop where
  err   : s.fault = false → s.err = 0
  rcnt  : s.fault = false → s.bsr.rcnt.toNat ≤ 8
  wacc  : s.fault = false → s.bsw.clean
  ctMax : s.fault = false → s.ct.length ≤ Config.ctMax
  llMax : s.fault = false → s.ll.length ≤ Config.llMax
  llLen : s.fault = false → ∀ e ∈ s.ll, 1 ≤ e.len.toNat ∧ e.len.toNat ≤ Config.maxLen
  ctLen : s.fault = false → ∀ e ∈ s.ct, e.code.len.toNat ≤ Config.maxLen ∧ e.code.val.toNat < 2 ^ e.code.len.toNat
  root  : s.fault = false → ∃ l r, s.dt = .inner l r
  cur   : s.fault = false → s.dt.sub s.cur ≠ .absent

/-- The last clause of R45: once EOS = 1, SRC is empty and RCNT = 0. -/
def State.EosInv (s : State) : Prop :=
  s.fault = false → s.bsr.eos = true → s.bsr.src = [] ∧ s.bsr.rcnt = 0

end Sys2Proof.Machine
end

