-- ==== Sys2Proof/Certificates/Slice0/Obligations.lean ====
section
/-! DEFINITION. What is claimed of the model: one definition per statement, listed in OBLIGATIONS.json. -/

open Sys2Proof Sys2Proof.Machine

/-! ### Words and decoding -/

/-- Decoding the word of a command gives the command back, for all 22 commands and every value of their 9-bit operand fields, the
well-formed commands among them (30_encoding.md R90 to R93). -/
def Obligations.DecodeOfEncodeIsTheCommand : Prop :=
  ∀ i : Instr, decode (encode i) = .ok i

/-- A word that decodes is the word of the command it decodes to: no two words share a command and no bit of a word is ignored
(R90, R91). -/
def Obligations.EncodeOfDecodeIsTheWord : Prop :=
  ∀ (w : Word) (i : Instr), decode w = .ok i → encode i = w

/-- Words written out from the spec's table and examples decode to their commands (R92; 41_tree_engine.md R169; V38). -/
def Obligations.SpecWordsDecode : Prop :=
  decode 0x01000000 = .ok .reset ∧ decode 0x10000040 = .ok (.rdbits 64) ∧ decode 0x21000102 = .ok (.finc 258) ∧
  decode 0x27001061 = .ok (.lpush 97 1) ∧ decode 0x271021FF = .ok (.lpush 511 258) ∧
  decode 0x320001FF = .ok (.encsym 511) ∧ decode 0x43000000 = .ok .decall

/-- A word decodes exactly when `w & mask = match` for a row of the opcode table (R91, R92), and decodes to a well-formed command
exactly when its operands are in that row's ranges too (R94). -/
def Obligations.DecodingFollowsTheOpcodeTable : Prop :=
  ∀ w : Word, ((∃ i, decode w = .ok i) ↔ ∃ row ∈ opcodeTable, w &&& row.mask = row.op.setWidth 32 <<< 24) ∧
    ((∃ i, decode w = .ok i ∧ i.wf = true) ↔ legalWord w)

/-- The decode-time checks of a word written to CMD, in their order (R95). That a step is the host's next pending action is the
model's choice (log entry 1), here and wherever a statement speaks of the script. -/
def Obligations.CommandIssueFollowsTheChecks : Prop :=
  ∀ (s : State) (w : Word) (rest : List HostAction), s.script = HostAction.issue w :: rest →
    (w = 0x01000000#32 → step s = .next (resetState { s with script := rest })) ∧
    (w ≠ 0x01000000#32 → s.fault = true → step s = .next { s with script := rest }) ∧
    (w ≠ 0x01000000#32 → s.fault = false → ¬ legalWord w →
      step s = .next (trapEntry .illegalCommand { s with script := rest })) ∧
    (w ≠ 0x01000000#32 → s.fault = false → legalWord w →
      ∃ i, decode w = .ok i ∧ i.wf = true ∧ step s = exec i { s with script := rest })

/-- 22 opcodes are commands, each by some word; every word with another opcode raises IllegalCommandError, and the all-zero and
the all-ones word are illegal (R96; the script is the model's own, log entry 1). -/
def Obligations.UnassignedOpcodesAreIllegal : Prop :=
  (opcodeTable.map OpcodeRow.op).Nodup ∧ opcodeTable.length = 22 ∧
  (∀ row ∈ opcodeTable, ∃ w i, w.extractLsb' 24 8 = row.op ∧ decode w = .ok i) ∧
  (∀ (s : State) (w : Word) (rest : List HostAction), s.script = HostAction.issue w :: rest → s.fault = false →
    (w.extractLsb' 24 8 ∉ opcodeTable.map OpcodeRow.op ∨ w = 0 ∨ w = 0xFFFFFFFF#32) →
    step s = .next (trapEntry .illegalCommand { s with script := rest }))

/-- A step in which the host writes a word that decodes runs the decoded command on the state whose script has moved on; while
FAULT = 1 only RESET is run. `withFetchWord` places such a word (R95; the script is the model's own, log entry 1). -/
def Obligations.StepRunsTheDecodedCommand : Prop :=
  ∀ (s : State) (w : Word) (i : Instr) (rest : List HostAction), decode w = .ok i → (s.fault = false ∨ i = .reset) →
    (s.script = HostAction.issue w :: rest → step s = exec i { s with script := rest }) ∧
    step (s.withFetchWord 32 w.toNat) = exec i s

/-! ### Fault state, trap entry, reset -/

/-- While FAULT = 1 every command but RESET is ignored, and so is every other word (60_exceptions.md R248; the script
is the model's own, log entry 1). -/
def Obligations.FaultStateIgnoresCommands : Prop :=
  ∀ s : State, s.fault = true →
    (∀ i, i ≠ .reset → exec i s = .next s) ∧
    (∀ (w : Word) (rest : List HostAction), w ≠ 0x01000000#32 → s.script = HostAction.issue w :: rest →
      step s = .next { s with script := rest })

/-- Trap entry sets FAULT and the kind's code in ERR, keeps WDATA, and leaves SRC, SINK and OUT with exactly the effects of the
lines executed before the raise (R246); the codes are those of R241. Nothing is said of the elements R246 leaves unspecified. -/
def Obligations.TrapEntryKeepsTheStreams : Prop :=
  (∀ (k : ErrKind) (t : State), ∃ u, finish (.error k t) = .next u ∧ u.fault = true ∧ u.err = k.code ∧ u.wdata = t.wdata ∧
    u.bsr.src = t.bsr.src ∧ u.bsw.sink = t.bsw.sink ∧ u.out = t.out ∧ u.namein = t.namein ∧ u.datain = t.datain) ∧
  ErrKind.endOfStream.code = 1 ∧ ErrKind.corruptTree.code = 2 ∧ ErrKind.codeOverflow.code = 3 ∧ ErrKind.degenerate.code = 4 ∧
  ErrKind.format.code = 5 ∧ ErrKind.illegalCommand.code = 6 ∧ ErrKind.capacity.code = 7

/-- RESET, whatever FAULT is, and the reset input give every element its reset value and leave the host's sequences as they are
(44_system.md R230, 70_reset_and_hazards.md R270, 10_state.md R47). The script, the log of what the host read and the counter of free
values, and that they stay, are the model's own (log entries 1, 15, 3). -/
def Obligations.ResetSetsEveryElement : Prop :=
  ∀ s : State,
    exec .reset s = .next
      { wdata := 0, rdata := 0, rsym := 0, rlen := 0, rcode := 0, fault := false, err := 0, hit := false, more := false,
        written := false, bsr := ⟨s.bsr.src, 0, 0, false⟩, bsw := ⟨s.bsw.sink, 0, 0, false⟩,
        freq := Vector.replicate 259 0, ct := [], ll := [], dt := .inner .absent .absent, cur := [], pomf := ⟨0, 0⟩,
        paend := ⟨0, 0⟩, namein := s.namein, datain := s.datain, out := s.out, script := s.script, reads := s.reads,
        freeIdx := s.freeIdx } ∧
    ∀ rest, s.script = .resetInput :: rest → step s = exec .reset { s with script := rest }

/-! ### Host registers -/

/-- What the host reads at each register of the map and at the reserved offsets, with no side effect but that the host has the value
(20_memory.md R70, 44_system.md R231). The model's own: the script and the log of what the host read (log entries 1, 15); that a read while
FAULT = 1 gives the element's present free value, so that two reads agree (log entry 4); the five RCODE words and the reserved offsets
from 0x68, for MAXLEN = 258 (log entry 5); that reserved offsets answer at any width (log entry 12). -/
def Obligations.HostReadsFollowTheRegisterMap : Prop :=
  ∀ s : State,
    (∀ off size v, (off, size, v) ∈
      [(0x00, AccessSize.b4, 0), (0x04, .b4, s.statusWord.setWidth 64), (0x08, .b8, s.wdata), (0x10, .b8, s.rdata),
       (0x18, .b4, s.rsym.setWidth 64), (0x1C, .b4, s.rlen.setWidth 64), (0x20, .b4, BitVec.ofNat 64 (s.ct.length % 512)),
       (0x24, .b4, BitVec.ofNat 64 (s.ll.length % 512))] →
      ∀ rest, s.script = .readReg off size :: rest →
        step s = .next { s with script := rest, reads := s.reads ++ [⟨off, v⟩] }) ∧
    (∀ j rest, j < 5 → s.script = .readReg (0x40 + 8 * j) .b8 :: rest → ∃ v : BitVec 64,
      step s = .next { s with script := rest, reads := s.reads ++ [⟨0x40 + 8 * j, v⟩] } ∧
      ∀ i, i < 64 → v.getLsbD i = s.rcode.getLsbD (64 * j + i)) ∧
    (∀ off size rest, (0x28 ≤ off ∧ off + size.bytes ≤ 0x40 ∨ 0x68 ≤ off ∧ off + size.bytes ≤ 0x80) →
      s.script = .readReg off size :: rest →
      step s = .next { s with script := rest, reads := s.reads ++ [⟨off, 0⟩] })

/-- A host write to WDATA sets it whatever FAULT is; a write to a read-only register or a reserved offset changes nothing
(44_system.md R232; a write to CMD is `CommandIssueFollowsTheChecks`). The model's own: the script (log entry 1); the five RCODE words and
the reserved offsets from 0x68, for MAXLEN = 258 (log entry 5); that reserved offsets take any width (log entry 12). -/
def Obligations.HostWritesReachOnlyWdata : Prop :=
  ∀ (s : State) (v : BitVec 64) (rest : List HostAction),
    (s.script = .writeReg 0x08 .b8 v :: rest → step s = .next { s with script := rest, wdata := v }) ∧
    (∀ off size, (off, size) ∈ [(0x04, AccessSize.b4), (0x10, .b8), (0x18, .b4), (0x1C, .b4), (0x20, .b4), (0x24, .b4), (0x40, .b8),
        (0x48, .b8), (0x50, .b8), (0x58, .b8), (0x60, .b8)] →
      s.script = .writeReg off size v :: rest → step s = .next { s with script := rest }) ∧
    (∀ off size, (0x28 ≤ off ∧ off + size.bytes ≤ 0x40 ∨ 0x68 ≤ off ∧ off + size.bytes ≤ 0x80) →
      s.script = .writeReg off size v :: rest → step s = .next { s with script := rest })

/-- Every access inside the register space that is neither a whole register nor reserved is refused: a part of a register, more than one
register, a misaligned access. One that ends beyond the space stops as a fault (93_implementation_defined.md U12). All of it is the model's
choice (log entries 1, 5, 12). -/
def Obligations.PartialHostAccessesStop : Prop :=
  ∀ (s : State) (off : Nat) (size : AccessSize) (v : BitVec 64) (rest : List HostAction),
    (s.script = .readReg off size :: rest ∨ s.script = .writeReg off size v :: rest) →
    (off + size.bytes ≤ 0x80 → (off, size) ∉ wholeRegisters → ¬ (0x28 ≤ off ∧ off + size.bytes ≤ 0x40 ∨ 0x68 ≤ off) →
      step s = .refused .partialRegisterAccess) ∧
    (0x80 < off + size.bytes → step s = .fault .outsideRegisterSpace)

/-- The fields of STATUS (10_state.md R29). -/
def Obligations.StatusWordHasTheFields : Prop :=
  ∀ s : State, s.statusWord.getLsbD 0 = s.fault ∧ s.statusWord.extractLsb' 1 3 = s.err ∧ s.statusWord.getLsbD 4 = s.bsr.eos ∧
    s.statusWord.getLsbD 5 = s.bsw.wclosed ∧ s.statusWord.getLsbD 6 = s.hit ∧ s.statusWord.getLsbD 7 = s.more ∧
    s.statusWord.getLsbD 8 = s.written ∧ ∀ i, 9 ≤ i → s.statusWord.getLsbD i = false

/-! ### Bit stream -/

/-- `BSR.FetchBit()` (40_bitstream.md R130): with no bit buffered and SRC empty it gives 0 and sets EOS; else the byte in hand, fetched
first when none is buffered, gives its lowest unread bit. -/
def Obligations.FetchBitDeliversTheNextBit : Prop :=
  ∀ r : Bsr,
    (r.rcnt = 0 → r.src = [] → fetchBit r = (false, { r with eos := true })) ∧
    (∀ b rest, r.rcnt = 0 → r.src = b :: rest → fetchBit r = (b.getLsbD 0, { r with src := rest, rbuf := b, rcnt := 7 })) ∧
    (r.rcnt ≠ 0 → fetchBit r = (r.rbuf.getLsbD (8 - r.rcnt.toNat), { r with rcnt := r.rcnt - 1 }))

/-- RDBITS n (R131): n bits, the first the least significant, zeros past the end, bits n to 63 of RDATA 0; EOS is set exactly when a
bit past the end was needed; EndOfStreamError when EOS = 1 at entry; IllegalCommandError for n = 0 and n > 64. -/
def Obligations.RdbitsReadsTheNextBits : Prop :=
  ∀ (n : BitVec 9) (s : State), s.fault = false → s.bsr.rcnt.toNat ≤ 8 →
    (1 ≤ n.toNat → n.toNat ≤ 64 → s.bsr.eos = false →
      ∃ v r, exec (.rdbits n) s = .next { s with rdata := v, bsr := r } ∧
        (∀ i, v.getLsbD i = (decide (i < n.toNat) && s.bsr.unread.getD i false)) ∧
        r.unread = s.bsr.unread.drop n.toNat ∧ r.eos = decide (s.bsr.unread.length < n.toNat) ∧ r.rcnt.toNat ≤ 8) ∧
    (1 ≤ n.toNat → n.toNat ≤ 64 → s.bsr.eos = true → exec (.rdbits n) s = .next (trapEntry .endOfStream s)) ∧
    ((n.toNat = 0 ∨ 64 < n.toNat) → exec (.rdbits n) s = .next (trapEntry .illegalCommand s))

/-- The reader takes a source byte only when a bit is needed: after n real bits from a byte boundary it has taken ceil(n / 8)
bytes (20_memory.md R69). -/
def Obligations.ReaderNeverFetchesAhead : Prop :=
  ∀ (n : Nat) (r : Bsr), r.rcnt = 0 → n ≤ 8 * r.src.length →
    (fetchBits n r).2.src = r.src.drop ((n + 7) / 8) ∧ (fetchBits n r).2.rcnt.toNat = 8 * ((n + 7) / 8) - n

/-- WRBITS n (R133, R132): the low n bits of WDATA go to the end of the stream, bit 0 first, and nothing else changes; bytes in SINK
stay, and the unfilled bits of WACC stay 0; IllegalCommandError when the writer is closed, and for n = 0 and n > 64. -/
def Obligations.WrbitsAppendsTheLowBits : Prop :=
  ∀ (n : BitVec 9) (s : State), s.fault = false →
    (1 ≤ n.toNat → n.toNat ≤ 64 → s.bsw.wclosed = false →
      ∃ w, exec (.wrbits n) s = .next { s with bsw := w } ∧
        w.bits = s.bsw.bits ++ (List.range n.toNat).map (fun i => s.wdata.getLsbD i) ∧
        w.wclosed = false ∧ s.bsw.sink <+: w.sink ∧ (s.bsw.clean → w.clean)) ∧
    (1 ≤ n.toNat → n.toNat ≤ 64 → s.bsw.wclosed = true → exec (.wrbits n) s = .next (trapEntry .illegalCommand s)) ∧
    ((n.toNat = 0 ∨ 64 < n.toNat) → exec (.wrbits n) s = .next (trapEntry .illegalCommand s))

/-- WRFLUSH (R135, R134): a partial byte goes to SINK as it is, nothing is emitted when there is none, and the writer is closed;
IllegalCommandError when it is closed already. -/
def Obligations.WrflushEmitsThePartialByte : Prop :=
  ∀ s : State, s.fault = false →
    (s.bsw.wclosed = false → exec .wrflush s = .next { s with
      bsw := ⟨if s.bsw.wfill = 0 then s.bsw.sink else s.bsw.sink ++ [s.bsw.wacc], 0, 0, true⟩ }) ∧
    (s.bsw.wclosed = true → exec .wrflush s = .next (trapEntry .illegalCommand s))

/-- Every write command on a closed writer raises IllegalCommandError with nothing written (70_reset_and_hazards.md R277). -/
def Obligations.ClosedWriterRefusesWrites : Prop :=
  ∀ (i : Instr) (s : State), s.fault = false → s.bsw.wclosed = true →
    (i = .wrflush ∨ i = .hdrwr ∨ i = .encfile ∨ i = .encclose ∨ (∃ y, i = .encsym y) ∨
      ∃ n, i = .wrbits n ∧ 1 ≤ n.toNat ∧ n.toNat ≤ 64) →
    exec i s = .next (trapEntry .illegalCommand s)

/-- The flat stream law of a writer: after writes and disposal SINK has ceil(T / 8) bytes, and its bits are the fields' bits, each
least significant first, then zeros (20_memory.md R77). -/
def Obligations.WritesMakeTheFlatStream : Prop :=
  ∀ l : List (BitVec 64 × Nat),
    let w := bswDispose (writeAll l ⟨[], 0, 0, false⟩)
    let bs := l.flatMap fun p => fieldBits p.1 p.2
    w.sink.length = (bs.length + 7) / 8 ∧
      streamBits w.sink = bs ++ List.replicate (8 * ((bs.length + 7) / 8) - bs.length) false

/-- The bit round trip: values written with widths from 1 to 64 and read back with the same widths come back modulo 2^n, with no error
and EOS still 0 (40_bitstream.md R136). -/
def Obligations.BitRoundTrip : Prop :=
  ∀ l : List (BitVec 64 × Nat), (∀ p ∈ l, 1 ≤ p.2 ∧ p.2 ≤ 64) →
    ∃ r, readAll (l.map Prod.snd) ⟨(bswDispose (writeAll l ⟨[], 0, 0, false⟩)).sink, 0, 0, false⟩ =
      .ok (l.map fun p => BitVec.ofNat 64 (p.1.toNat % 2 ^ p.2)) r ∧ r.eos = false

/-- A further read of m bits after all the written ones returns 0 and sets EOS exactly when m exceeds the padding (R137). -/
def Obligations.ReadPastTheWrittenData : Prop :=
  ∀ (l : List (BitVec 64 × Nat)) (m : Nat), (∀ p ∈ l, 1 ≤ p.2 ∧ p.2 ≤ 64) → 1 ≤ m → m ≤ 64 →
    ∃ r r', readAll (l.map Prod.snd) ⟨(bswDispose (writeAll l ⟨[], 0, 0, false⟩)).sink, 0, 0, false⟩ =
        .ok (l.map fun p => BitVec.ofNat 64 (p.1.toNat % 2 ^ p.2)) r ∧
      bsrRead m r = .ok 0 r' ∧
      (r'.eos = true ↔ 8 * (((l.map Prod.snd).sum + 7) / 8) - (l.map Prod.snd).sum < m)

/-! ### Frequency table -/

/-- FCLR makes every counter 0 and changes nothing else (41_tree_engine.md R150). -/
def Obligations.FclrClearsEveryCounter : Prop :=
  ∀ s : State, s.fault = false → ∃ f : Vector Count 259, exec .fclr s = .next { s with freq := f } ∧ ∀ y (h : y < 259), f[y] = 0

/-- FINC y adds one to FREQ[y], and raises CapacityError instead of wrapping; y > 258 is illegal (R151). FREQ_W = 64
is the model's choice of the parameter (log entry 5). -/
def Obligations.FincCountsOneOccurrence : Prop :=
  ∀ (y : BitVec 9) (s : State), s.fault = false →
    (∀ h : y.toNat < 259,
      (s.freq[y.toNat].toNat ≠ 2 ^ 64 - 1 → ∃ f : Vector Count 259, exec (.finc y) s = .next { s with freq := f } ∧
        f[y.toNat].toNat = s.freq[y.toNat].toNat + 1 ∧ ∀ z (hz : z < 259), z ≠ y.toNat → f[z] = s.freq[z]) ∧
      (s.freq[y.toNat].toNat = 2 ^ 64 - 1 → exec (.finc y) s = .next (trapEntry .capacity s))) ∧
    (258 < y.toNat → exec (.finc y) s = .next (trapEntry .illegalCommand s))

/-- FSET y stores WDATA in FREQ[y] and changes no other counter, FGET y returns FREQ[y] in RDATA; y > 258 is illegal (R152, R153).
FREQ_W = 64 is the model's choice of the parameter (log entry 5). -/
def Obligations.FsetStoresAndFgetReads : Prop :=
  ∀ (y : BitVec 9) (s : State), s.fault = false →
    (∀ h : y.toNat < 259,
      (∃ f : Vector Count 259, exec (.fset y) s = .next { s with freq := f } ∧
        f[y.toNat] = s.wdata ∧ ∀ z (hz : z < 259), z ≠ y.toNat → f[z] = s.freq[z]) ∧
      exec (.fget y) s = .next { s with rdata := s.freq[y.toNat] }) ∧
    (258 < y.toNat → exec (.fset y) s = .next (trapEntry .illegalCommand s) ∧
      exec (.fget y) s = .next (trapEntry .illegalCommand s))

/-! ### BUILD -/

/-- BUILD on a table with some nonzero count writes NS and CT alone, with the table `buildTable` makes: one entry per symbol with a nonzero
count, in canonical order, with the codes Assign gives its (length, symbol) pairs (R154, R155, R160, R162, R164 f). For every tie-break the
lengths are the depths of the symbols in the merged tree (R159): a present symbol's leaf has its count as priority and is numbered by
ascending symbol (R155), a merge takes the least node twice (`ExtractMinTakesALeastNode`) and gives the new node the sum of the two
priorities (R156); and no code in which no symbol's code starts another's costs less (R174). The model's own: that BUILD raises nothing,
which R163 has for MAXLEN = 258 (log entry 5); FIFO in exec (log entry 6); what R174 means by optimal (log entry 18). -/
def Obligations.BuildMakesTheCanonicalTable : Prop :=
  (∀ s : State, s.fault = false → (∃ y, ∃ h : y < 259, s.freq[y] ≠ 0) →
    ∃ t, exec .build s = .next { s with ct := t } ∧ buildTable tieBreak s.freq = .ok t ∧ t.Pairwise CodeEntry.before ∧
      assign (lenPairs (lenEntries t)) = some t ∧
      ∀ y : BitVec 9, (∃ e ∈ t, e.sym = y) ↔ ∃ h : y.toNat < 259, s.freq[y.toNat] ≠ 0) ∧
  (∀ (tb : Config.TieBreak) (f : Vector Count 259) (t : List CodeEntry), buildTable tb f = .ok t →
    (∃ root, merge tb (makeLeaves f).length (makeLeaves f).length (makeLeaves f) = some root ∧
      (lenPairs (lenEntries t)).Perm (leafDepths 0 root)) ∧
    ∀ c : Sym → List Bool, t.Pairwise (fun a b => ¬ c a.sym <+: c b.sym ∧ ¬ c b.sym <+: c a.sym) →
      (t.map fun e => countOf f e.sym * e.code.len.toNat).sum ≤ (t.map fun e => countOf f e.sym * (c e.sym).length).sum) ∧
  (∀ (f : Vector Count 259) (k : Nat) (x : Config.QNode), (makeLeaves f)[k]? = some x ↔
    ∃ y, ∃ h : y < 259, f[y] ≠ 0 ∧ k = (f.toList.take y).countP (· ≠ 0) ∧ x = ⟨f[y].toNat, k, .leaf (BitVec.ofNat 9 y)⟩) ∧
  ∀ (tb : Config.TieBreak) (k seq : Nat), (∀ x, merge tb (k + 1) seq [x] = some x.tree) ∧
    ∀ q : List Config.QNode, 2 ≤ q.length → ∃ a b q1 q2, extractMin tb q = some (a, q1) ∧ extractMin tb q1 = some (b, q2) ∧
      merge tb (k + 1) seq q = merge tb k (seq + 1) (q2 ++ [⟨a.prio + b.prio, seq, .node a.tree b.tree⟩])

/-- BUILD with every count 0 raises DegenerateError (R161). -/
def Obligations.BuildOfNothingIsDegenerate : Prop :=
  ∀ s : State, s.fault = false → (∀ y (h : y < 259), s.freq[y] = 0) → exec .build s = .next (trapEntry .degenerate s)

/-- One present symbol gets the empty code; of two present symbols the smaller gets 0 and the larger 1, whatever their counts and
whatever the tie-break (R154 corner cases a and b, R159). -/
def Obligations.BuildOfOneOrTwoSymbols : Prop :=
  ∀ (tb : Config.TieBreak) (f : Vector Count 259),
    (∀ y (h : y < 259), f[y] ≠ 0 → (∀ z (hz : z < 259), z ≠ y → f[z] = 0) →
      buildTable tb f = .ok [⟨BitVec.ofNat 9 y, 0, 0⟩]) ∧
    (∀ y z (hy : y < 259) (hz : z < 259), y < z → f[y] ≠ 0 → f[z] ≠ 0 → (∀ x (hx : x < 259), x ≠ y → x ≠ z → f[x] = 0) →
      buildTable tb f = .ok [⟨BitVec.ofNat 9 y, 1, 0⟩, ⟨BitVec.ofNat 9 z, 1, 1⟩])

/-- `ExtractMin(Q)` takes a node of least priority, whatever the tie-break; FIFO takes the one with the least sequence number among
those (R158). -/
def Obligations.ExtractMinTakesALeastNode : Prop :=
  ∀ (tb : Config.TieBreak) (q : List Config.QNode), q ≠ [] →
    ∃ x q', extractMin tb q = some (x, q') ∧ x ∈ q ∧ q' = q.erase x ∧ (∀ y ∈ q, x.prio ≤ y.prio) ∧
      (tb = fifo → ∀ y ∈ q, y.prio = x.prio → x.seq ≤ y.seq)

/-- No code BUILD makes is longer than the number of symbols less one, for every tie-break (R163); so CapacityError does not occur,
with MAXLEN = 258, the model's choice of the parameter (log entry 5). -/
def Obligations.BuildDepthIsBounded : Prop :=
  ∀ (tb : Config.TieBreak) (f : Vector Count 259), buildTable tb f ≠ .error .capacity ∧
    ∀ t, buildTable tb f = .ok t → ∀ e ∈ t, e.code.len.toNat ≤ t.length - 1

/-- BUILD never raises CodeOverflowError; with two symbols or more the code is full, and the last code is all ones, for every tie-break
(R164 f). -/
def Obligations.BuildMakesAFullCode : Prop :=
  ∀ (tb : Config.TieBreak) (f : Vector Count 259), buildTable tb f ≠ .error .codeOverflow ∧
    ∀ t, buildTable tb f = .ok t → 2 ≤ t.length →
      (t.map fun e => 2 ^ (258 - e.code.len.toNat)).sum = 2 ^ 258 ∧
      ∀ e, t.getLast? = some e → e.code.val.toNat = 2 ^ e.code.len.toNat - 1

/-! ### Code assignment -/

/-- `Assign` gives the first entry the all-zero code of its length, each later one the code before it plus one, extended to the right by
zero bits; it fails exactly when an entry that is not the last has an all-ones code (R162). The codes are given here by their
values: v 0 = 0, v (i + 1) = (v i + 1) · 2^(len (i + 1) − len i). -/
def Obligations.AssignIncrementsAndExtends : Prop :=
  ∀ (e : List (Nat × Sym)) (v : Nat → Nat), e.Pairwise canonicalLE → (∀ p ∈ e, p.1 ≤ 258) → v 0 = 0 →
    (∀ i (h : i + 1 < e.length), v (i + 1) = (v i + 1) * 2 ^ (e[i + 1].1 - e[i].1)) →
    ((∀ i (h : i + 1 < e.length), v i ≠ 2 ^ e[i].1 - 1) →
      ∃ t, assign e = some t ∧ t.length = e.length ∧ ∀ i (h : i < e.length) (h' : i < t.length),
        t[i].sym = e[i].2 ∧ t[i].code.len.toNat = e[i].1 ∧ t[i].code.val.toNat = v i) ∧
    ((∃ i, ∃ h : i + 1 < e.length, v i = 2 ^ e[i].1 - 1) → assign e = none)

/-- An assigned table: values fit their lengths, no code starts another, the codes padded to the greatest length increase strictly, and
codes of equal length are consecutive (R164 a to d). -/
def Obligations.AssignedCodesArePrefixFree : Prop :=
  ∀ (e : List (Nat × Sym)) (t : List CodeEntry), e.Pairwise canonicalLE → (∀ p ∈ e, p.1 ≤ 258) → assign e = some t →
    (∀ c ∈ t, c.code.val.toNat < 2 ^ c.code.len.toNat) ∧
    (t.Pairwise fun a b => ¬ a.code.bits <+: b.code.bits ∧ ¬ b.code.bits <+: a.code.bits) ∧
    (t.Pairwise fun a b =>
      a.code.val.toNat * 2 ^ (258 - a.code.len.toNat) < b.code.val.toNat * 2 ^ (258 - b.code.len.toNat)) ∧
    ∀ i (h : i + 1 < t.length), t[i].code.len = t[i + 1].code.len → t[i + 1].code.val.toNat = t[i].code.val.toNat + 1

/-- CTRD i returns entry i of the code table in RSYM, RLEN and RCODE and changes nothing else; IllegalCommandError when i is not below
the number of entries (R166). -/
def Obligations.CtrdReadsAnEntry : Prop :=
  ∀ (i : BitVec 9) (s : State), s.fault = false →
    (∀ h : i.toNat < s.ct.length, exec (.ctrd i) s = .next { s with
      rsym := s.ct[i.toNat].sym, rlen := s.ct[i.toNat].code.len, rcode := s.ct[i.toNat].code.val }) ∧
    (s.ct.length ≤ i.toNat → exec (.ctrd i) s = .next (trapEntry .illegalCommand s))

/-! ### The length list, REBUILD, WALK -/

/-- LCLR empties the length list; LPUSH y, l appends the pair (y, l) for any 9-bit symbol; each changes nothing else. CapacityError when
l > MAXLEN or the list is full; l = 0 is illegal (R167, R169). MAXLEN = 258 is the model's choice of the
parameter (log entry 5). -/
def Obligations.LclrAndLpushKeepTheList : Prop :=
  ∀ (y l : BitVec 9) (s : State), s.fault = false →
    exec .lclr s = .next { s with ll := [] } ∧
    (1 ≤ l.toNat → l.toNat ≤ 258 → s.ll.length < 511 → exec (.lpush y l) s = .next { s with ll := s.ll ++ [⟨y, l⟩] }) ∧
    (1 ≤ l.toNat → (258 < l.toNat ∨ 511 ≤ s.ll.length) → exec (.lpush y l) s = .next (trapEntry .capacity s)) ∧
    (l.toNat = 0 → exec (.lpush y l) s = .next (trapEntry .illegalCommand s))

/-- REBUILD writes the code table of the length list, a decode tree that has exactly the table's codes as paths to leaves and exactly
their proper beginnings (and the root) as internal nodes, and the cursor at the root; CodeOverflowError when Assign fails
(R168, R170). -/
def Obligations.RebuildMakesTheDecodeTree : Prop :=
  ∀ s : State, s.fault = false → (∀ e ∈ s.ll, 1 ≤ e.len.toNat ∧ e.len.toNat ≤ 258) →
    (∀ t, assign (canonicalSort (lenPairs s.ll)) = some t →
      ∃ d, exec .rebuild s = .next { s with ct := t, dt := d, cur := [] } ∧
        (∀ p y, d.sub p = .leaf y ↔ ∃ e ∈ t, e.code.bits = p ∧ e.sym = y) ∧
        (∀ p, (∃ l r, d.sub p = .inner l r) ↔ p = [] ∨ ∃ e ∈ t, p <+: e.code.bits ∧ p ≠ e.code.bits)) ∧
    (assign (canonicalSort (lenPairs s.ll)) = none → exec .rebuild s = .next (trapEntry .codeOverflow s))

/-- WALK b moves the cursor, back at the root first when it is on a leaf, to the child in direction b: HIT and RSYM return the symbol of
a leaf, HIT = 0 and RSYM unchanged an internal node; CorruptTreeError when there is no child; b > 1 is illegal (R171). -/
def Obligations.WalkMovesTheCursor : Prop :=
  ∀ (b : BitVec 9) (s : State) (start : List Bool), s.fault = false →
    ((∃ y, s.dt.sub s.cur = .leaf y) → start = []) → ((¬ ∃ y, s.dt.sub s.cur = .leaf y) → start = s.cur) →
    (∀ y, b.toNat ≤ 1 → s.dt.sub (start ++ [b == 1]) = .leaf y →
      exec (.walk b) s = .next { s with cur := start ++ [b == 1], hit := true, rsym := y }) ∧
    (∀ l r, b.toNat ≤ 1 → s.dt.sub (start ++ [b == 1]) = .inner l r →
      exec (.walk b) s = .next { s with cur := start ++ [b == 1], hit := false }) ∧
    (b.toNat ≤ 1 → s.dt.sub (start ++ [b == 1]) = .absent → exec (.walk b) s = .next (trapEntry .corruptTree s)) ∧
    (1 < b.toNat → exec (.walk b) s = .next (trapEntry .illegalCommand s))

/-- A code table BUILD made, loaded as (symbol, length) pairs in any order, is rebuilt unchanged by REBUILD, and every code leads to its
symbol's leaf, for every tie-break (R173). -/
def Obligations.HeaderReconstruction : Prop :=
  ∀ (tb : Config.TieBreak) (f : Vector Count 259) (t : List CodeEntry) (s : State), s.fault = false →
    buildTable tb f = .ok t → (∀ e ∈ t, 1 ≤ e.code.len.toNat) → s.ll.Perm (lenEntries t) →
    ∃ d, exec .rebuild s = .next { s with ct := t, dt := d, cur := [] } ∧ ∀ e ∈ t, d.sub e.code.bits = .leaf e.sym

/-! ### Serializer -/

/-- HDRWR writes the header of the code table as the archive format lays it out and changes nothing else; a table with a length 0 is
refused before any bit, and a closed writer too (42_serializer.md R190, 30_encoding.md R100 to R102). -/
def Obligations.HdrwrWritesTheHeader : Prop :=
  ∀ s : State, s.fault = false →
    (s.bsw.wclosed = false → (∀ e ∈ s.ct, e.code.len ≠ 0) →
      ∃ w, exec .hdrwr s = .next { s with bsw := w } ∧ w.bits = s.bsw.bits ++ headerBits (lenEntries s.ct) ∧
        w.wclosed = false ∧ s.bsw.sink <+: w.sink ∧ (s.bsw.clean → w.clean)) ∧
    (s.bsw.wclosed = false → (∃ e ∈ s.ct, e.code.len = 0) → exec .hdrwr s = .next (trapEntry .illegalCommand s)) ∧
    (s.bsw.wclosed = true → exec .hdrwr s = .next (trapEntry .illegalCommand s))

/-- HDRRD on a stream that starts with a header reads exactly its bits and stores its length list, whatever the symbol values; nothing
else changes (R192, R193, 30_encoding.md R103). -/
def Obligations.HdrrdReadsTheHeader : Prop :=
  ∀ (s : State) (l : List LenEntry) (rest : List Bool), s.fault = false → s.bsr.eos = false → s.bsr.rcnt.toNat ≤ 8 →
    usableList l → s.bsr.unread = headerBits l ++ rest →
    ∃ r, exec .hdrrd s = .next { s with ll := l, bsr := r } ∧ r.unread = rest ∧ r.eos = false ∧ r.rcnt.toNat ≤ 8

/-- HDRRD where the stream is no whole header (R192, R249, 40_bitstream.md R131, 60_exceptions.md R253 a, 70_reset_and_hazards.md R284).
Fields past the end of the stream are completed by zeros, m bits of the last one here. EndOfStreamError when EOS = 1 at entry, and when the
stream ends before the symbols are all there or the counts sum to the symbol count; FormatError at the first count that takes the sum past
it; CapacityError after MAXLEN counts that do not reach it; the bits read until then are consumed. A header that the zeros complete is
stored, and EOS stays set. Which kind a damaged header raises is no contract (R258): the kinds are the model's (log entry 16), with
MAXLEN = 258 (log entry 5). -/
def Obligations.HdrrdRefusesAnOvershoot : Prop :=
  ∀ s : State, s.fault = false → s.bsr.rcnt.toNat ≤ 8 →
    (s.bsr.eos = true → exec .hdrrd s = .next (trapEntry .endOfStream s)) ∧
    (s.bsr.eos = false → ∀ (n : BitVec 9) (ys cs : List (BitVec 9)) (rest : List Bool) (m : Nat),
      (∀ c, ys.length = n.toNat → cs.length < 258 → (cs.map BitVec.toNat).sum < n.toNat →
        n.toNat < (cs.map BitVec.toNat).sum + c.toNat → s.bsr.offers (n :: (ys ++ cs ++ [c])) rest m →
        ∃ t, exec .hdrrd s = .next (trapEntry .format t) ∧ t.bsr.unread = rest ∧ t.out = s.out ∧ t.bsw = s.bsw) ∧
      (ys.length = n.toNat → cs.length = 258 → (cs.map BitVec.toNat).sum < n.toNat → s.bsr.offers (n :: (ys ++ cs)) rest m →
        ∃ t, exec .hdrrd s = .next (trapEntry .capacity t) ∧ t.bsr.unread = rest ∧ t.out = s.out ∧ t.bsw = s.bsw) ∧
      (0 < m → s.bsr.offers (n :: (ys ++ cs)) rest m →
        (ys.length < n.toNat ∧ cs = [] ∨ ys.length = n.toNat ∧ cs.length < 258 ∧ (cs.map BitVec.toNat).sum < n.toNat) →
        ∃ t, exec .hdrrd s = .next (trapEntry .endOfStream t) ∧ t.bsr.unread = [] ∧ t.out = s.out ∧ t.bsw = s.bsw) ∧
      (∀ l, 0 < m → usableList l → s.bsr.offers ((headerLayout l).map (BitVec.ofNat 9)) rest m →
        ∃ r, exec .hdrrd s = .next { s with ll := l, bsr := r } ∧ r.unread = [] ∧ r.eos = true ∧ r.rcnt.toNat ≤ 8))

/-- ENCSYM y emits the code of the first table entry with symbol y, its most significant bit first, and changes nothing else; without an
entry, or with the writer closed, it raises IllegalCommandError (R196, R197, 10_state.md R37). -/
def Obligations.EncsymEmitsTheCode : Prop :=
  ∀ (y : BitVec 9) (s : State), s.fault = false →
    (∀ a e b, s.bsw.wclosed = false → s.ct = a ++ e :: b → (∀ x ∈ a, x.sym ≠ y) → e.sym = y →
      ∃ w, exec (.encsym y) s = .next { s with bsw := w } ∧
        w.bits = s.bsw.bits ++ (List.range e.code.len.toNat).map (fun i => e.code.val.getLsbD (e.code.len.toNat - 1 - i)) ∧
        w.wclosed = false ∧ s.bsw.sink <+: w.sink ∧ (s.bsw.clean → w.clean)) ∧
    ((s.bsw.wclosed = true ∨ ∀ x ∈ s.ct, x.sym ≠ y) → exec (.encsym y) s = .next (trapEntry .illegalCommand s))

/-- DECSYM on a stream whose next bits lead from the walk's start to a leaf consumes exactly those bits, leaves the cursor on the leaf and
returns its symbol; nothing else changes (R198). -/
def Obligations.DecsymDecodesOneSymbol : Prop :=
  ∀ (s : State) (start p rest : List Bool) (y : Sym), s.fault = false → s.bsr.eos = false → s.bsr.rcnt.toNat ≤ 8 →
    ((∃ z, s.dt.sub s.cur = .leaf z) → start = []) → ((¬ ∃ z, s.dt.sub s.cur = .leaf z) → start = s.cur) →
    p ≠ [] → s.dt.sub (start ++ p) = .leaf y → s.bsr.unread = p ++ rest →
    ∃ r, exec .decsym s = .next { s with cur := start ++ p, rsym := y, hit := true, bsr := r } ∧
      r.unread = rest ∧ r.eos = false ∧ r.rcnt.toNat ≤ 8

/-- DECSYM where the stream or the tree gives out (R198, 70_reset_and_hazards.md R284): EndOfStreamError when EOS = 1 at its entry;
CorruptTreeError when the next bits lead out of the tree, with the bits up to and including the one with no child consumed. The first bit
past the end is a silent 0, which may lead to a symbol (returned, with EOS set) or out of the tree; when it leads to an internal node, the
second bit past the end raises EndOfStreamError. Which kind a damaged stream raises is no contract (R258): the kinds are the model's (log
entry 16). -/
def Obligations.DecsymRaisesOnBadStreams : Prop :=
  ∀ (s : State) (start p : List Bool), s.fault = false → s.bsr.rcnt.toNat ≤ 8 →
    ((∃ z, s.dt.sub s.cur = .leaf z) → start = []) → ((¬ ∃ z, s.dt.sub s.cur = .leaf z) → start = s.cur) →
    (s.bsr.eos = true → exec .decsym s = .next (trapEntry .endOfStream s)) ∧
    (s.bsr.eos = false → (∃ l r, s.dt.sub (start ++ p) = .inner l r) →
      (∀ b rest, s.dt.sub (start ++ p ++ [b]) = .absent → s.bsr.unread = p ++ b :: rest →
        ∃ t, exec .decsym s = .next (trapEntry .corruptTree t) ∧ t.bsr.unread = rest ∧ t.out = s.out ∧ t.bsw = s.bsw) ∧
      (s.bsr.unread = p →
        (∀ y, s.dt.sub (start ++ p ++ [false]) = .leaf y →
          ∃ r, exec .decsym s = .next { s with cur := start ++ p ++ [false], rsym := y, hit := true, bsr := r } ∧
            r.unread = [] ∧ r.eos = true ∧ r.rcnt.toNat ≤ 8) ∧
        ((∃ l r, s.dt.sub (start ++ p ++ [false]) = .inner l r) →
          ∃ t, exec .decsym s = .next (trapEntry .endOfStream t) ∧ t.bsr.unread = [] ∧ t.out = s.out ∧ t.bsw = s.bsw) ∧
        (s.dt.sub (start ++ p ++ [false]) = .absent →
          ∃ t, exec .decsym s = .next (trapEntry .corruptTree t) ∧ t.bsr.unread = [] ∧ t.out = s.out ∧ t.bsw = s.bsw)))

/-- The symbol round trip: under the tree a REBUILD made of a table, the codes of a list of symbols decode to that list, and exactly
their bits are consumed (R199). -/
def Obligations.SymbolRoundTrip : Prop :=
  ∀ (s : State) (t : List CodeEntry) (ys : List Sym) (bs rest : List Bool), s.bsr.eos = false → s.bsr.rcnt.toNat ≤ 8 →
    (∀ e ∈ s.ll, 1 ≤ e.len.toNat ∧ e.len.toNat ≤ 258) → tableOf s.ll = some t → s.dt = treeOf t →
    (s.cur = [] ∨ ∃ z, s.dt.sub s.cur = .leaf z) → codeBits t ys = some bs → s.bsr.unread = bs ++ rest →
    ∃ u, decSyms ys.length s = .ok ys u ∧ u.bsr.unread = rest ∧ u.bsr.eos = false

/-! ### Sequencer -/

/-- ENCFILE (43_sequencer.md R210, R212): it counts the name's and the content's bytes and the three control symbols, builds their
table, emits the previous block's ONE_MORE_FILE code when there is one, the header, the codes of name, FILENAME_END and content, and
remembers this table's two control codes; nothing else changes and nothing is raised, for inputs whose counts fit (FREQ_W = 64, log
entry 5). The tie-break of exec, FIFO, is the model's choice (log entry 6). -/
def Obligations.EncfileWritesTheBlock : Prop :=
  ∀ s : State, s.fault = false → s.bsw.wclosed = false → s.namein.length + s.datain.length < 2 ^ 64 →
    ∃ (f : Vector Count 259) (t : List CodeEntry) (w : Bsw) (m e : Code) (bs : List Bool),
      exec .encfile s = .next { s with freq := f, ct := t, bsw := w, pomf := m, paend := e, written := true } ∧
      (∀ y (h : y < 259), f[y].toNat = File.counts ⟨s.namein, s.datain⟩ y) ∧
      buildTable tieBreak f = .ok t ∧ codeOf t 257 = some m ∧ codeOf t 258 = some e ∧
      codeBits t (s.namein.map literal ++ [256] ++ s.datain.map literal) = some bs ∧
      w.bits = s.bsw.bits ++ (if s.written then s.pomf.bits else []) ++ headerBits (lenEntries t) ++ bs ∧
      w.wclosed = false ∧ s.bsw.sink <+: w.sink ∧ (s.bsw.clean → w.clean)

/-- ENCCLOSE (R213): the last block's ARCHIVE_END code when a block was written, then the disposal: every bit is in SINK, the last byte
zero-filled, the writer closed; IllegalCommandError when it is closed already. -/
def Obligations.EnccloseEndsTheArchive : Prop :=
  ∀ s : State, s.fault = false →
    (s.bsw.wclosed = false → s.bsw.clean →
      ∃ sink, exec .encclose s = .next { s with bsw := ⟨sink, 0, 0, true⟩ } ∧ s.bsw.sink <+: sink ∧
        ∃ k, k < 8 ∧ streamBits sink =
          s.bsw.bits ++ (if s.written then s.paend.bits else []) ++ List.replicate k false) ∧
    (s.bsw.wclosed = true → exec .encclose s = .next (trapEntry .illegalCommand s))

/-- DECBLOCK on a stream that starts with a block: it hands over the file's events, leaves the reader at the first bit after the
terminator and the cursor on its leaf, and returns MORE (R214, 30_encoding.md R100). -/
def Obligations.DecblockDecodesABlock : Prop :=
  ∀ (s : State) (l : List LenEntry) (f : File) (term : Sym) (bs rest : List Bool), s.fault = false → s.bsr.eos = false →
    s.bsr.rcnt.toNat ≤ 8 → usableList l → (term = 257 ∨ term = 258) → blockBits l f term = some bs →
    s.bsr.unread = bs ++ rest →
    ∃ t c r, tableOf l = some t ∧ codeOf t term = some c ∧
      exec .decblock s = .next { s with
        ll := l, ct := t, dt := treeOf t, cur := c.bits, bsr := r
        out := s.out ++ f.events (term == 257), more := (term == 257), rsym := term, hit := true } ∧
      r.unread = rest ∧ r.eos = false ∧ r.rcnt.toNat ≤ 8

/-- A decoded symbol that is not legal in its phase raises FormatError, with the events before it handed over: in the name phase a symbol
above 256, in the content phase 256 and a symbol above 258 (R216). Which kind a damaged archive raises is no contract (R258): FormatError is
the model's reading of R216 (log entry 16). -/
def Obligations.DecblockRefusesIllegalSymbols : Prop :=
  ∀ (s : State) (l : List LenEntry) (t : List CodeEntry) (name data : List Byte) (y : Sym) (bs rest : List Bool),
    s.fault = false → s.bsr.eos = false → s.bsr.rcnt.toNat ≤ 8 → usableList l → tableOf l = some t →
    s.bsr.unread = headerBits l ++ bs ++ rest →
    (256 < y.toNat → codeBits t (name.map literal ++ [y]) = some bs →
      ∃ u, exec .decblock s = .next (trapEntry .format u) ∧ u.out = s.out ++ name.map Event.name ∧ u.bsr.unread = rest) ∧
    ((y.toNat = 256 ∨ 258 < y.toNat) → codeBits t (name.map literal ++ [256] ++ data.map literal ++ [y]) = some bs →
      ∃ u, exec .decblock s = .next (trapEntry .format u) ∧
        u.out = s.out ++ name.map Event.name ++ [.openTarget] ++ data.map Event.data ∧ u.bsr.unread = rest)

/-- DECALL on the empty archive: no block, no event, MORE = 0 and nothing else changes (R215). -/
def Obligations.DecallOfTheEmptyArchive : Prop :=
  ∀ s : State, s.fault = false → s.bsr.src = [] → s.bsr.rcnt = 0 → exec .decall s = .next { s with more := false }

/-- DECALL on a chain of blocks hands over every file's events and ends with MORE = 0 at the first bit after ARCHIVE_END; the tables are
those of the last block (R215, 30_encoding.md R99, R104). -/
def Obligations.DecallDecodesTheArchive : Prop :=
  ∀ (s : State) (blocks : List Block) (last : Block) (bs rest : List Bool), s.fault = false → s.bsr.eos = false →
    s.bsr.rcnt.toNat ≤ 8 → (∀ b ∈ blocks ++ [last], usableList b.lens) → archiveBits (blocks ++ [last]) = some bs →
    s.bsr.unread = bs ++ rest →
    ∃ t c r, tableOf last.lens = some t ∧ codeOf t 258 = some c ∧
      exec .decall s = .next { s with
        ll := last.lens, ct := t, dt := treeOf t, cur := c.bits, bsr := r
        out := s.out ++ archiveEvents ((blocks ++ [last]).map Block.file), more := false, rsym := 258, hit := true } ∧
      r.unread = rest ∧ r.eos = false ∧ r.rcnt.toNat ≤ 8

/-- The round trip: encoding any files and decoding the archive gives their names and contents back, with no error, for every tie-break
(R217; the bound keeps the 64-bit counters from their limit, R210, log entry 5). -/
def Obligations.ArchiveRoundTrip : Prop :=
  ∀ (tb : Config.TieBreak) (fs : List File), (∀ f ∈ fs, f.name.length + f.data.length < 2 ^ 64) →
    ∃ u t, encodeSession tb fs State.reset = some u ∧ u.fault = false ∧
      exec .decall { State.reset with bsr := ⟨u.bsw.sink, 0, 0, false⟩ } = .next t ∧ t.fault = false ∧ t.bsr.eos = false ∧
      t.out = archiveEvents fs

/-! ### The whole machine -/

/-- Every step keeps the invariant of 10_state.md R45, from every state that meets it. -/
def Obligations.EveryStepKeepsTheInvariant : Prop :=
  ∀ s t : State, s.Inv → step s = .next t → t.Inv

/-- The state after reset meets the invariant and its clause on EOS (R45, R47). -/
def Obligations.ResetMeetsTheInvariant : Prop :=
  State.reset.Inv ∧ State.reset.EosInv

/-- Once EOS = 1, SRC is empty and RCNT = 0, and every step keeps it unless the host renews SRC (R45; R62 says SRC never grows during a
session). -/
def Obligations.EosMeansNothingIsLeft : Prop :=
  ∀ s t : State, s.Inv → s.EosInv → step s = .next t → (∀ bs rest, s.script ≠ .setSrc bs :: rest) → t.EosInv

/-- The code table stays in canonical order with the codes Assign gives it, whatever command runs (10_state.md R35). -/
def Obligations.CodeTableStaysCanonical : Prop :=
  ∀ (i : Instr) (s t : State), exec i s = .next t → t.fault = false →
    (s.ct.Pairwise (fun a b => canonicalLE (a.code.len.toNat, a.sym) (b.code.len.toNat, b.sym)) ∧
      assign (lenPairs (lenEntries s.ct)) = some s.ct) →
    t.ct.Pairwise (fun a b => canonicalLE (a.code.len.toNat, a.sym) (b.code.len.toNat, b.sym)) ∧
      assign (lenPairs (lenEntries t.ct)) = some t.ct

/-- A command raises no kind but those its row of the table of R256 has, and trap entry puts that kind's code in ERR. -/
def Obligations.CommandsRaiseOnlyTheirKinds : Prop :=
  ∀ (i : Instr) (s t : State), i.wf = true → s.fault = false → exec i s = .next t → t.fault = true →
    ∃ k ∈ mayRaise i, t.err = k.code

/-- A command that raises nothing changes only the elements its rule says it writes, and not FAULT, ERR or the model's own fields
(10_state.md R21 to R25, R34 to R36, R38 to R40). -/
def Obligations.CommandsWriteOnlyTheirElements : Prop :=
  ∀ (i : Instr) (s t : State), i ≠ .reset → exec i s = .next t → t.fault = false →
    (∀ e : Element, e ∉ writesOf i → e.sameIn s t) ∧ s.fault = false ∧ t.err = s.err ∧ t.script = s.script ∧ t.reads = s.reads ∧
      t.freeIdx = s.freeIdx

/-- Whatever a command does, a raise included: bytes in SINK and events in OUT stay and more may follow, bytes leave SRC only at its
front, the host's inputs stay, and WDATA stays but under RESET (20_memory.md R62, R63, R67; 60_exceptions.md R246, R247). -/
def Obligations.StreamsOnlyMoveForward : Prop :=
  ∀ (i : Instr) (s t : State), exec i s = .next t →
    s.bsw.sink <+: t.bsw.sink ∧ s.out <+: t.out ∧ t.bsr.src <:+ s.bsr.src ∧ t.namein = s.namein ∧ t.datain = s.datain ∧
      (i ≠ .reset → t.wdata = s.wdata)
end

