-- ==== Sys2Proof/Laws/Operands.lean ====
section
/-! SUPPORT. The bits of fields, codes and byte streams (spec 20_memory.md R61, R64, R65). -/

namespace Sys2Proof.Machine

@[simp] theorem fieldBits_length {w : Nat} (v : BitVec w) (n : Nat) : (fieldBits v n).length = n := by
  simp [fieldBits]

@[simp] theorem fieldBits_zero {w : Nat} (v : BitVec w) : fieldBits v 0 = [] := rfl

theorem fieldBits_getElem {w : Nat} (v : BitVec w) (n i : Nat) (h : i < (fieldBits v n).length) :
    (fieldBits v n)[i] = v.getLsbD i := by
  simp [fieldBits]

theorem fieldBits_succ {w : Nat} (v : BitVec w) (n : Nat) :
    fieldBits v (n + 1) = fieldBits v n ++ [v.getLsbD n] := by
  simp [fieldBits, List.range_succ]

@[simp] theorem code_bits_length (c : Code) : c.bits.length = c.len.toNat := by
  simp [Code.bits]

@[simp] theorem streamBits_nil : streamBits [] = [] := rfl

@[simp] theorem streamBits_cons (b : Byte) (bs : List Byte) :
    streamBits (b :: bs) = fieldBits b 8 ++ streamBits bs := by
  simp [streamBits]

@[simp] theorem streamBits_append (a b : List Byte) :
    streamBits (a ++ b) = streamBits a ++ streamBits b := by
  simp [streamBits]

@[simp] theorem streamBits_length (bs : List Byte) : (streamBits bs).length = 8 * bs.length := by
  induction bs with
  | nil => rfl
  | cons b bs ih => simp [ih]; omega

theorem natOfBits_lt (bs : List Bool) : natOfBits bs < 2 ^ bs.length := by
  induction bs with
  | nil => simp [natOfBits]
  | cons b bs ih => cases b <;> (simp [natOfBits, pow_succ]; omega)

theorem natOfBits_testBit (bs : List Bool) (i : Nat) : (natOfBits bs).testBit i = bs.getD i false := by
  induction bs generalizing i with
  | nil => simp [natOfBits]
  | cons b bs ih =>
    cases i with
    | zero => cases b <;> simp [natOfBits]
    | succ i =>
      have h : natOfBits (b :: bs) / 2 = natOfBits bs := by cases b <;> (simp [natOfBits]; try omega)
      rw [Nat.testBit_succ, h, ih]; rfl

/-- Reading back the bits of a field gives its low n bits (R64). -/
theorem natOfBits_fieldBits {w : Nat} (v : BitVec w) (n : Nat) : natOfBits (fieldBits v n) = v.toNat % 2 ^ n := by
  refine Nat.eq_of_testBit_eq fun i => ?_
  rw [natOfBits_testBit, Nat.testBit_mod_two_pow]
  by_cases h : i < n
  · simp [fieldBits, h, BitVec.testBit_toNat]
  · simp [fieldBits, h]

/-- Bit j of a byte with bit i set to b. -/
theorem setBit_getLsbD (v : Byte) (i j : Nat) (b : Bool) (hi : i < 8) :
    (setBit v i b).getLsbD j = if j = i then b else v.getLsbD j := by
  by_cases hj : j < 8
  · interval_cases i <;> interval_cases j <;> cases b <;> simp [setBit]
  · have : j ≠ i := by omega
    simp [this, BitVec.getLsbD_of_ge _ _ (by omega : 8 ≤ j)]

end Sys2Proof.Machine
end

