-- ==== Sys2Proof/Laws/BitStream.lean ====
section
/-! SUPPORT. The bit reader and writer on their flat bit streams (spec 40_bitstream.md R130 to R134, 20_memory.md R77). -/

namespace Sys2Proof.Machine

/-! ### The reader -/

/-- A reader with a byte in hand (RCNT from 1 to 8) delivers the first unread bit. -/
theorem bufferedBit_spec (r : Bsr) (h0 : r.rcnt ≠ 0) (h8 : r.rcnt.toNat ≤ 8) :
    r.unread = (bufferedBit r).1 :: (bufferedBit r).2.unread ∧ (bufferedBit r).2.rcnt.toNat ≤ 7 ∧
      (bufferedBit r).2.rcnt.toNat + 1 = r.rcnt.toNat := by
  have hn : r.rcnt.toNat ≠ 0 := fun h => h0 (BitVec.eq_of_toNat_eq (by simpa using h))
  have hs : (r.rcnt - 1).toNat = r.rcnt.toNat - 1 := by
    rw [BitVec.toNat_sub_of_le]
    · rfl
    · simp [BitVec.le_def]; omega
  refine ⟨?_, ?_, ?_⟩
  · have hlt : 8 - r.rcnt.toNat < (fieldBits r.rbuf 8).length := by simp; omega
    simp only [Bsr.unread, bufferedBit, hs]
    rw [List.drop_eq_getElem_cons hlt, fieldBits_getElem, List.cons_append,
      show 8 - (r.rcnt.toNat - 1) = 8 - r.rcnt.toNat + 1 by omega]
  · simp only [bufferedBit, hs]; omega
  · simp only [bufferedBit, hs]; omega

/-- With no real bit left a fetch gives 0 and sets EOS (R130). -/
theorem fetchBit_empty (r : Bsr) (h8 : r.rcnt.toNat ≤ 8) (h : r.unread = []) :
    fetchBit r = (false, { r with eos := true }) := by
  have hs : r.src = [] ∧ r.rcnt = 0 := by
    have hl := congrArg List.length h
    simp only [Bsr.unread, List.length_append, List.length_drop, fieldBits_length, streamBits_length, List.length_nil] at hl
    refine ⟨List.eq_nil_of_length_eq_zero (by omega), BitVec.eq_of_toNat_eq (by simp; omega)⟩
  simp [fetchBit, srcNext, hs.1, hs.2]

/-- With a real bit left a fetch delivers it and changes no flag (R130). -/
theorem fetchBit_cons (r : Bsr) (h8 : r.rcnt.toNat ≤ 8) (b : Bool) (bs : List Bool) (h : r.unread = b :: bs) :
    ∃ r', fetchBit r = (b, r') ∧ r'.unread = bs ∧ r'.eos = r.eos ∧ r'.rcnt.toNat ≤ 8 ∧ r'.src <:+ r.src := by
  by_cases h0 : r.rcnt = 0
  · cases hsrc : r.src with
    | nil =>
      have hl := congrArg List.length h
      simp [Bsr.unread, h0, hsrc] at hl
    | cons c rest =>
      obtain ⟨h1, h2, -⟩ := bufferedBit_spec { r with src := rest, rbuf := c, rcnt := 8 }
        (show (8 : BitVec 4) ≠ 0 by decide) (show (8 : BitVec 4).toNat ≤ 8 by decide)
      have hu : r.unread = Bsr.unread { r with src := rest, rbuf := c, rcnt := 8 } := by
        simp [Bsr.unread, h0, hsrc, List.drop_eq_nil_of_le]
      rw [← hu, h] at h1
      obtain ⟨hb, hbs⟩ := List.cons.inj h1
      refine ⟨(bufferedBit { r with src := rest, rbuf := c, rcnt := 8 }).2, ?_, hbs.symm, rfl, by omega, ?_⟩
      · simp [fetchBit, h0, srcNext, hsrc, hb]
      · exact List.suffix_cons c rest
  · obtain ⟨h1, h2, -⟩ := bufferedBit_spec r h0 h8
    rw [h] at h1
    obtain ⟨hb, hbs⟩ := List.cons.inj h1
    exact ⟨(bufferedBit r).2, by simp only [fetchBit, if_neg h0, hb], hbs.symm, rfl, by omega, List.suffix_refl _⟩

/-- What n fetches deliver and leave: the first n unread bits, zeros past the end, and EOS set by a fetch past the end (R130, R131). -/
theorem fetchBits_spec (n : Nat) (r : Bsr) (h8 : r.rcnt.toNat ≤ 8) :
    (fetchBits n r).1 = (r.unread ++ List.replicate n false).take n ∧
    (fetchBits n r).2.unread = r.unread.drop n ∧
    (fetchBits n r).2.eos = (r.eos || decide (r.unread.length < n)) ∧
    (fetchBits n r).2.rcnt.toNat ≤ 8 ∧ (fetchBits n r).2.src <:+ r.src := by
  induction n generalizing r with
  | zero => simp [fetchBits, h8]
  | succ n ih =>
    cases hu : r.unread with
    | nil =>
      have hf := fetchBit_empty r h8 hu
      have hu' : Bsr.unread { r with eos := true } = [] := hu
      obtain ⟨i1, i2, i3, i4, i5⟩ := ih { r with eos := true } h8
      simp only [fetchBits, hf]
      rw [hu'] at i1 i2
      refine ⟨?_, ?_, ?_, i4, i5⟩
      · simp [i1, List.replicate_succ]
      · simp [i2]
      · simp [i3]
    | cons b bs =>
      obtain ⟨r', hf, hu', he, h8', hs⟩ := fetchBit_cons r h8 b bs hu
      obtain ⟨i1, i2, i3, i4, i5⟩ := ih r' h8'
      simp only [fetchBits, hf]
      rw [hu'] at i1 i2 i3
      refine ⟨?_, ?_, ?_, i4, i5.trans hs⟩
      · simp only [i1, List.cons_append, List.take_succ_cons, List.cons.injEq, true_and]
        rw [List.take_append, List.take_append]
        simp only [List.take_replicate]
        congr 2; omega
      · simp [i2]
      · simp [i3, he]

@[simp] theorem fetchBits_length (n : Nat) (r : Bsr) : (fetchBits n r).1.length = n := by
  induction n generalizing r with
  | zero => rfl
  | succ n ih => simp [fetchBits, ih]

/-- A read either raises EndOfStreamError, with EOS set at its entry and nothing changed, or delivers n bits (R131). -/
theorem bsrRead_eq (n : Nat) (r : Bsr) :
    bsrRead n r = if r.eos then .error .endOfStream r
      else .ok (BitVec.ofNat 64 (natOfBits (fetchBits n r).1)) (fetchBits n r).2 := rfl

/-! ### The writer -/

/-- An append puts its bit at the end of the flat stream (R132). -/
theorem appendBit_bits (b : Bool) (w : Bsw) : (appendBit b w).bits = w.bits ++ [b] := by
  have hlt : w.wfill.toNat < 8 := w.wfill.isLt
  have hpre : ∀ k, k ≤ w.wfill.toNat → fieldBits (setBit w.wacc w.wfill.toNat b) k = fieldBits w.wacc k := by
    intro k hk
    refine List.ext_getElem (by simp) fun i h1 h2 => ?_
    simp only [fieldBits_length] at h1 h2
    rw [fieldBits_getElem, fieldBits_getElem, setBit_getLsbD _ _ _ _ hlt, if_neg (by omega)]
  have hsucc : fieldBits (setBit w.wacc w.wfill.toNat b) (w.wfill.toNat + 1) = fieldBits w.wacc w.wfill.toNat ++ [b] := by
    rw [fieldBits_succ, hpre _ le_rfl, setBit_getLsbD _ _ _ _ hlt, if_pos rfl]
  have htake : ∀ (v : Byte) (k : Nat), k ≤ 8 → (fieldBits v 8).take k = fieldBits v k := by
    intro v k hk
    simp [fieldBits, ← List.map_take, List.take_range, Nat.min_eq_left hk]
  unfold appendBit
  split
  · rename_i h7
    have h7' : w.wfill.toNat = 7 := by rw [h7]; rfl
    simp only [Bsw.bits, sinkPut, streamBits_append, streamBits_cons, streamBits_nil, List.append_nil]
    rw [h7'] at hsucc ⊢
    simpa [htake _ 7 (by omega)] using hsucc
  · rename_i h7
    have h7' : w.wfill.toNat ≠ 7 := fun h => h7 (BitVec.eq_of_toNat_eq (by simpa using h))
    have hs : (w.wfill + 1).toNat = w.wfill.toNat + 1 := by
      rw [BitVec.toNat_add_of_lt]
      · rfl
      · simp; omega
    simp only [Bsw.bits, hs]
    rw [htake _ _ (by omega), htake _ _ (by omega), hsucc, List.append_assoc]

/-- Appends put their bits at the end of the flat stream, in order (R132, R77). -/
theorem appendBits_bits (bs : List Bool) (w : Bsw) : (appendBits bs w).bits = w.bits ++ bs := by
  induction bs generalizing w with
  | nil => simp [appendBits]
  | cons b bs ih =>
    have : appendBits (b :: bs) w = appendBits bs (appendBit b w) := rfl
    rw [this, ih, appendBit_bits]; simp

@[simp] theorem appendBits_nil (w : Bsw) : appendBits [] w = w := rfl

theorem appendBits_append (a b : List Bool) (w : Bsw) : appendBits (a ++ b) w = appendBits b (appendBits a w) := by
  simp [appendBits, List.foldl_append]

@[simp] theorem appendBit_wclosed (b : Bool) (w : Bsw) : (appendBit b w).wclosed = w.wclosed := by
  unfold appendBit; split <;> rfl

@[simp] theorem appendBits_wclosed (bs : List Bool) (w : Bsw) : (appendBits bs w).wclosed = w.wclosed := by
  induction bs generalizing w with
  | nil => rfl
  | cons b bs ih => exact (ih (appendBit b w)).trans (appendBit_wclosed b w)

theorem appendBit_clean (b : Bool) (w : Bsw) (h : w.clean) : (appendBit b w).clean := by
  have hlt : w.wfill.toNat < 8 := w.wfill.isLt
  unfold appendBit
  split
  · intro i _; simp
  · rename_i h7
    have h7' : w.wfill.toNat ≠ 7 := fun h => h7 (BitVec.eq_of_toNat_eq (by simpa using h))
    have hs : (w.wfill + 1).toNat = w.wfill.toNat + 1 := by
      rw [BitVec.toNat_add_of_lt]
      · rfl
      · simp; omega
    intro i hi
    simp only [hs] at hi
    simp only [setBit_getLsbD _ _ _ _ hlt]
    rw [if_neg (by omega), h i (by omega)]

/-- The unfilled bits of WACC stay 0 (10_state.md R45). -/
theorem appendBits_clean (bs : List Bool) (w : Bsw) (h : w.clean) : (appendBits bs w).clean := by
  induction bs generalizing w with
  | nil => exact h
  | cons b bs ih => exact ih _ (appendBit_clean b w h)

theorem appendBit_sink (b : Bool) (w : Bsw) : w.sink <+: (appendBit b w).sink := by
  unfold appendBit
  split
  · exact List.prefix_append _ _
  · exact List.prefix_refl _

/-- Bytes in SINK stay as they are (20_memory.md R63). -/
theorem appendBits_sink (bs : List Bool) (w : Bsw) : w.sink <+: (appendBits bs w).sink := by
  induction bs generalizing w with
  | nil => exact List.prefix_refl _
  | cons b bs ih => exact (appendBit_sink b w).trans (ih _)

/-- A disposal closes the writer and moves the partial byte to SINK, its high bits zero (R134). -/
theorem bswDispose_spec (w : Bsw) (h : w.clean) :
    (bswDispose w).wclosed = true ∧ (bswDispose w).wfill = 0 ∧ (bswDispose w).wacc = 0 ∧
    streamBits (bswDispose w).sink = w.bits ++ List.replicate ((8 - w.wfill.toNat) % 8) false := by
  refine ⟨rfl, rfl, rfl, ?_⟩
  have hlt : w.wfill.toNat < 8 := w.wfill.isLt
  by_cases h0 : w.wfill = 0
  · simp [bswDispose, h0, Bsw.bits]
  · have hn : w.wfill.toNat ≠ 0 := fun h => h0 (BitVec.eq_of_toNat_eq (by simpa using h))
    have hsplit : fieldBits w.wacc 8 =
        (fieldBits w.wacc 8).take w.wfill.toNat ++ List.replicate (8 - w.wfill.toNat) false := by
      conv_lhs => rw [← List.take_append_drop w.wfill.toNat (fieldBits w.wacc 8)]
      congr 1
      refine List.ext_getElem (by simp) fun i h1 h2 => ?_
      rw [List.getElem_drop, fieldBits_getElem, h _ (by omega), List.getElem_replicate]
    simp only [bswDispose, if_neg h0, sinkPut, Bsw.bits, streamBits_append, streamBits_cons, streamBits_nil,
      List.append_nil]
    rw [Nat.mod_eq_of_lt (by omega), List.append_assoc, ← hsplit]

end Sys2Proof.Machine
end

