-- ==== Sys2Proof/Laws/Procedures.lean ====
section
/-! SUPPORT. How procedures compose and what a command makes of one (spec 00_scope.md R12, 30_encoding.md R95, 60_exceptions.md R246). -/

namespace Sys2Proof.Machine

/-! ### Composition -/

@[simp] theorem proc_bind {σ α β : Type} (p : EStateM ErrKind σ α) (f : α → EStateM ErrKind σ β) (s : σ) :
    (p >>= f) s = match p s with
      | .ok a t => f a t
      | .error k t => .error k t := by
  cases h : p s <;> simp [bind, EStateM.bind, h]

@[simp] theorem proc_pure {σ α : Type} (a : α) (s : σ) : (pure a : EStateM ErrKind σ α) s = .ok a s := rfl

@[simp] theorem proc_get {σ : Type} (s : σ) : (get : EStateM ErrKind σ σ) s = .ok s s := rfl

@[simp] theorem proc_modify {σ : Type} (f : σ → σ) (s : σ) :
    (modify f : EStateM ErrKind σ PUnit) s = .ok ⟨⟩ (f s) := rfl

@[simp] theorem raise_apply {σ α : Type} (k : ErrKind) (s : σ) : (raise k : EStateM ErrKind σ α) s = .error k s := rfl

@[simp] theorem onBsw_apply (f : Bsw → Bsw) (s : State) : onBsw f s = .ok () { s with bsw := f s.bsw } := rfl

@[simp] theorem outPut_apply (e : Event) (s : State) : outPut e s = .ok () { s with out := s.out ++ [e] } := rfl

@[simp] theorem setHit_apply (y : Sym) (s : State) : setHit y s = .ok () { s with hit := true, rsym := y } := rfl

@[simp] theorem setMore_apply (m : Bool) (s : State) : setMore m s = .ok () { s with more := m } := rfl

@[simp] theorem setWritten_apply (m e : Code) (s : State) :
    setWritten m e s = .ok () { s with pomf := m, paend := e, written := true } := rfl

theorem liftBsr_ok {α : Type} {p : BsrProc α} {s : State} {a : α} {r : Bsr} (h : p s.bsr = .ok a r) :
    liftBsr p s = .ok a { s with bsr := r } := by
  simp [liftBsr, h]

theorem liftBsr_error {α : Type} {p : BsrProc α} {s : State} {k : ErrKind} {r : Bsr} (h : p s.bsr = .error k r) :
    liftBsr p s = .error k { s with bsr := r } := by
  simp [liftBsr, h]

theorem checkOpen_open {s : State} (h : s.bsw.wclosed = false) : checkOpen s = .ok () s := by
  simp [checkOpen, h]

theorem checkOpen_closed {s : State} (h : s.bsw.wclosed = true) : checkOpen s = .error .illegalCommand s := by
  simp [checkOpen, h]

/-! ### What a procedure's result satisfies -/

/-- A procedure's result meets Q when it ends and E when it raises. -/
def Sat {σ α : Type} (p : EStateM ErrKind σ α) (s : σ) (Q : α → σ → Prop) (E : ErrKind → σ → Prop) : Prop :=
  match p s with
  | .ok a t => Q a t
  | .error k t => E k t

theorem Sat.bind {σ α β : Type} {p : EStateM ErrKind σ α} {f : α → EStateM ErrKind σ β} {s : σ} {Q : α → σ → Prop}
    {R : β → σ → Prop} {E : ErrKind → σ → Prop} (h : Sat p s Q E) (hf : ∀ a t, Q a t → Sat (f a) t R E) :
    Sat (p >>= f) s R E := by
  unfold Sat at *
  rw [proc_bind]
  cases hp : p s with
  | ok a t => rw [hp] at h; exact hf a t h
  | error k t => rw [hp] at h; exact h

theorem Sat.pure {σ α : Type} {a : α} {s : σ} {Q : α → σ → Prop} {E : ErrKind → σ → Prop} (h : Q a s) :
    Sat (pure a : EStateM ErrKind σ α) s Q E := h

theorem Sat.weaken {σ α : Type} {p : EStateM ErrKind σ α} {s : σ} {Q Q' : α → σ → Prop} {E E' : ErrKind → σ → Prop}
    (h : Sat p s Q E) (hq : ∀ a t, Q a t → Q' a t) (he : ∀ k t, E k t → E' k t) : Sat p s Q' E' := by
  unfold Sat at *
  cases hp : p s with
  | ok a t => rw [hp] at h; exact hq _ _ h
  | error k t => rw [hp] at h; exact he _ _ h

/-- A reader's procedure on the whole state changes the reader alone. -/
theorem Sat.lift {α : Type} {p : BsrProc α} {s : State} {Q : α → Bsr → Prop} {E : ErrKind → Bsr → Prop}
    (h : Sat p s.bsr Q E) :
    Sat (liftBsr p) s (fun a t => Q a t.bsr ∧ t = { s with bsr := t.bsr }) (fun k t => E k t.bsr ∧ t = { s with bsr := t.bsr }) := by
  unfold Sat at *
  cases hp : p s.bsr with
  | ok a r => rw [liftBsr_ok hp]; rw [hp] at h; exact ⟨h, rfl⟩
  | error k r => rw [liftBsr_error hp]; rw [hp] at h; exact ⟨h, rfl⟩

/-! ### Commands -/

/-- A command whose procedure ends makes the procedure's state the next one. -/
theorem command_ok {i : Instr} {p : Proc Unit} {s t : State} (hf : s.fault = false) (hw : i.wf = true) (h : p s = .ok () t) :
    command i p s = .next t := by
  simp [command, hf, hw, h, finish]

/-- A command whose procedure raises traps on the state at the raise. -/
theorem command_error {i : Instr} {p : Proc Unit} {s t : State} {k : ErrKind} (hf : s.fault = false) (hw : i.wf = true)
    (h : p s = .error k t) : command i p s = .next (trapEntry k t) := by
  simp [command, hf, hw, h, finish]

/-- A command with an operand out of its range is illegal. -/
theorem command_illegal {i : Instr} {p : Proc Unit} {s : State} (hf : s.fault = false) (hw : i.wf = false) :
    command i p s = .next (trapEntry .illegalCommand s) := by
  simp [command, hf, hw]

/-- While FAULT = 1 a command is ignored. -/
theorem command_fault {i : Instr} {p : Proc Unit} {s : State} (hf : s.fault = true) : command i p s = .next s := by
  simp [command, hf]

/-- Everything a command can do. -/
theorem command_cases {i : Instr} {p : Proc Unit} {s t : State} (h : command i p s = .next t) :
    (s.fault = true ∧ t = s) ∨
    (s.fault = false ∧ i.wf = false ∧ t = trapEntry .illegalCommand s) ∨
    (s.fault = false ∧ i.wf = true ∧ p s = .ok () t) ∨
    (s.fault = false ∧ i.wf = true ∧ ∃ k u, p s = .error k u ∧ t = trapEntry k u) := by
  unfold command at h
  cases hf : s.fault with
  | true => simp [hf] at h; simp [h]
  | false =>
    cases hw : i.wf with
    | false => simp [hf, hw] at h; simp [h]
    | true =>
      simp only [hf, hw, if_true, Bool.false_eq_true, if_false] at h
      cases hp : p s with
      | ok a u => simp [finish, hp] at h; simp [h]
      | error k u => simp [finish, hp] at h; simp [h]

end Sys2Proof.Machine
end

