-- ==== Sys2Proof/Laws/Assign.lean ====
section
/-! SUPPORT. Canonical code assignment (spec 41_tree_engine.md R160, R162, R164). A code is read as the interval that starts at its
value shifted to MAXLEN bits and is as wide as the shift (R164 e). -/

namespace Sys2Proof.Machine

/-! ### Canonical order -/

theorem canonicalLE_total (a b : Nat × Sym) : canonicalLE a b ∨ canonicalLE b a := by
  unfold canonicalLE; omega

theorem canonicalLE_trans (a b c : Nat × Sym) (h : canonicalLE a b) (h' : canonicalLE b c) : canonicalLE a c := by
  unfold canonicalLE at *; omega

theorem canonicalLE_antisymm (a b : Nat × Sym) (h : canonicalLE a b) (h' : canonicalLE b a) : a = b := by
  unfold canonicalLE at *
  exact Prod.ext (by omega) (BitVec.eq_of_toNat_eq (by omega))

theorem canonicalSort_perm (e : List (Nat × Sym)) : (canonicalSort e).Perm e := List.perm_insertionSort _ _

theorem canonicalSort_sorted (e : List (Nat × Sym)) : (canonicalSort e).Pairwise canonicalLE := by
  have : Std.Total canonicalLE := ⟨canonicalLE_total⟩
  have : IsTrans (Nat × Sym) canonicalLE := ⟨canonicalLE_trans⟩
  exact List.pairwise_insertionSort _ _

/-- Sorting depends on the pairs alone, not on their order (R160). -/
theorem canonicalSort_eq_of_perm {e e' : List (Nat × Sym)} (h : e.Perm e') : canonicalSort e = canonicalSort e' :=
  List.Perm.eq_of_pairwise (fun a b _ _ h1 h2 => canonicalLE_antisymm a b h1 h2) (canonicalSort_sorted e) (canonicalSort_sorted e')
    (((canonicalSort_perm e).trans h).trans (canonicalSort_perm e').symm)

theorem canonicalSort_of_sorted {e : List (Nat × Sym)} (h : e.Pairwise canonicalLE) : canonicalSort e = e := by
  have : Std.Total canonicalLE := ⟨canonicalLE_total⟩
  exact List.Pairwise.insertionSort_eq h

/-! ### Intervals -/

/-- The width of a code of length len. -/
def width (len : Nat) : Nat := 2 ^ (Config.maxLen - len)

/-- The start of a table entry's interval. -/
def CodeEntry.start (c : CodeEntry) : Nat := c.code.val.toNat * width c.code.len.toNat

/-- The pair a table entry came from. -/
def CodeEntry.pair (c : CodeEntry) : Nat × Sym := (c.code.len.toNat, c.sym)

theorem width_pos (len : Nat) : 0 < width len := Nat.two_pow_pos _

theorem width_mul {len : Nat} (h : len ≤ Config.maxLen) : 2 ^ len * width len = 2 ^ Config.maxLen := by
  rw [width, ← pow_add, Nat.add_sub_cancel' h]

theorem width_shift {plen len : Nat} (h : plen ≤ len) (h' : len ≤ Config.maxLen) :
    2 ^ (len - plen) * width len = width plen := by
  rw [width, width, ← pow_add]; congr 1; omega

theorem lenPairs_lenEntries (t : List CodeEntry) : lenPairs (lenEntries t) = t.map CodeEntry.pair := by
  simp [lenPairs, lenEntries, CodeEntry.pair]

theorem tableEntry_pair (y : Sym) {len : Nat} (val : Nat) (h : len ≤ Config.maxLen) :
    (tableEntry y len val).pair = (len, y) := by
  simp only [tableEntry, CodeEntry.pair, BitVec.toNat_ofNat]
  rw [Nat.mod_eq_of_lt]; unfold Config.maxLen at h; omega

theorem tableEntry_val (y : Sym) {len val : Nat} (h : len ≤ Config.maxLen) (hv : val < 2 ^ len) :
    (tableEntry y len val).code.val.toNat = val := by
  simp only [tableEntry, BitVec.toNat_ofNat]
  exact Nat.mod_eq_of_lt (lt_of_lt_of_le hv (Nat.pow_le_pow_right (by decide) h))

theorem tableEntry_len (y : Sym) {len : Nat} (val : Nat) (h : len ≤ Config.maxLen) :
    (tableEntry y len val).code.len.toNat = len :=
  congrArg Prod.fst (tableEntry_pair y val h)

/-- The value that follows a code that is not all ones fits the next length. -/
theorem next_val_lt {plen pval len : Nat} (hle : plen ≤ len) (hv : pval < 2 ^ plen) (hn : pval ≠ 2 ^ plen - 1) :
    (pval + 1) <<< (len - plen) < 2 ^ len := by
  rw [Nat.shiftLeft_eq]
  calc (pval + 1) * 2 ^ (len - plen) < 2 ^ plen * 2 ^ (len - plen) :=
        Nat.mul_lt_mul_of_pos_right (by omega) (Nat.two_pow_pos _)
    _ = 2 ^ len := by rw [← pow_add]; congr 1; omega

/-- What `Assign` makes after an entry of length plen and value pval: the pairs are kept, values fit, and the intervals follow one
another from the end of that entry's (R162, R164 e). -/
theorem assignFrom_spec : ∀ (e : List (Nat × Sym)) (plen pval : Nat) (t : List CodeEntry),
    e.Pairwise (fun a b => a.1 ≤ b.1) → (∀ p ∈ e, plen ≤ p.1 ∧ p.1 ≤ Config.maxLen) → pval < 2 ^ plen →
    assignFrom plen pval e = some t →
    t.map CodeEntry.pair = e ∧ (∀ c ∈ t, c.code.val.toNat < 2 ^ c.code.len.toNat) ∧
    List.IsChain (fun a b : CodeEntry => b.start = a.start + width a.code.len.toNat) t ∧
    ∀ c, t.head? = some c → c.start = (pval + 1) * width plen
  | [], plen, pval, t, _, _, _, h => by
    simp only [assignFrom, Option.some.injEq] at h
    subst h; simp
  | (len, y) :: e, plen, pval, t, hs, hl, hv, h => by
    obtain ⟨hhd, htl⟩ := List.pairwise_cons.mp hs
    obtain ⟨hp, hm⟩ := hl (len, y) (by simp)
    simp only [assignFrom] at h
    split at h
    · exact absurd h (by simp)
    · rename_i hn
      have hv' := next_val_lt hp hv hn
      split at h
      · exact absurd h (by simp)
      · rename_i t' ht'
        obtain ⟨i1, i2, i3, i4⟩ := assignFrom_spec e len _ t' htl
          (fun p hp' => ⟨hhd p hp', (hl p (by simp [hp'])).2⟩) hv' ht'
        obtain rfl := Option.some.inj h
        have hst : (tableEntry y len ((pval + 1) <<< (len - plen))).start = (pval + 1) * width plen := by
          rw [CodeEntry.start, tableEntry_val y hm hv', tableEntry_len y _ hm, Nat.shiftLeft_eq, mul_assoc, width_shift hp hm]
        have hen : (tableEntry y len ((pval + 1) <<< (len - plen))).start + width len =
            ((pval + 1) <<< (len - plen) + 1) * width len := by
          rw [CodeEntry.start, tableEntry_val y hm hv', tableEntry_len y _ hm]; ring
        refine ⟨by simp [i1, tableEntry_pair y _ hm], ?_, ?_, ?_⟩
        · intro c hc
          rcases List.mem_cons.mp hc with rfl | hc
          · rw [tableEntry_val y hm hv', tableEntry_len y _ hm]; exact hv'
          · exact i2 c hc
        · cases t' with
          | nil => exact List.isChain_singleton _
          | cons c t' =>
            refine List.isChain_cons_cons.mpr ⟨?_, i3⟩
            rw [tableEntry_len y _ hm, hen]; exact i4 c rfl
        · intro c hc
          obtain rfl := Option.some.inj hc
          exact hst

/-- What `Assign` makes of pairs in canonical order: the pairs are kept, values fit their lengths, and the intervals follow one another
from 0 (R162, R164 a and e). -/
theorem assign_spec {e : List (Nat × Sym)} {t : List CodeEntry} (hs : e.Pairwise (fun a b => a.1 ≤ b.1))
    (hl : ∀ p ∈ e, p.1 ≤ Config.maxLen) (h : assign e = some t) :
    t.map CodeEntry.pair = e ∧ (∀ c ∈ t, c.code.val.toNat < 2 ^ c.code.len.toNat) ∧
    List.IsChain (fun a b : CodeEntry => b.start = a.start + width a.code.len.toNat) t ∧
    ∀ c, t.head? = some c → c.start = 0 := by
  cases e with
  | nil => simp only [assign, Option.some.injEq] at h; subst h; simp
  | cons p e =>
    obtain ⟨len, y⟩ := p
    obtain ⟨hhd, htl⟩ := List.pairwise_cons.mp hs
    have hm : len ≤ Config.maxLen := hl (len, y) (by simp)
    simp only [assign] at h
    split at h
    · exact absurd h (by simp)
    · rename_i t' ht'
      have hv : 0 < 2 ^ len := Nat.two_pow_pos _
      obtain ⟨i1, i2, i3, i4⟩ := assignFrom_spec e len 0 t' htl (fun p hp' => ⟨hhd p hp', hl p (by simp [hp'])⟩) hv ht'
      obtain rfl := Option.some.inj h
      have hst : (tableEntry y len 0).start = 0 := by rw [CodeEntry.start, tableEntry_val y hm hv, zero_mul]
      refine ⟨by simp [i1, tableEntry_pair y _ hm], ?_, ?_, ?_⟩
      · intro c hc
        rcases List.mem_cons.mp hc with rfl | hc
        · rw [tableEntry_val y hm hv, tableEntry_len y _ hm]; exact hv
        · exact i2 c hc
      · cases t' with
        | nil => exact List.isChain_singleton _
        | cons c t' =>
          refine List.isChain_cons_cons.mpr ⟨?_, i3⟩
          rw [tableEntry_len y _ hm, hst]
          simpa using i4 c rfl
      · intro c hc
        obtain rfl := Option.some.inj hc
        exact hst

/-- `Assign` goes on as long as the widths still to come fit behind the entry before (R162, R164 f). -/
theorem assignFrom_of_room : ∀ (e : List (Nat × Sym)) (plen pval : Nat), e.Pairwise (fun a b => a.1 ≤ b.1) →
    (∀ p ∈ e, plen ≤ p.1 ∧ p.1 ≤ Config.maxLen) → pval < 2 ^ plen → plen ≤ Config.maxLen →
    (pval + 1) * width plen + (e.map fun p => width p.1).sum ≤ 2 ^ Config.maxLen → ∃ t, assignFrom plen pval e = some t
  | [], plen, pval, _, _, _, _, _ => ⟨[], rfl⟩
  | (len, y) :: e, plen, pval, hs, hl, hv, hpm, hk => by
    obtain ⟨hhd, htl⟩ := List.pairwise_cons.mp hs
    obtain ⟨hp, hm⟩ := hl (len, y) (by simp)
    have hn : pval ≠ 2 ^ plen - 1 := by
      intro h
      have h1 : (pval + 1) * width plen = 2 ^ Config.maxLen := by
        rw [h, Nat.sub_add_cancel (Nat.one_le_two_pow), width_mul hpm]
      simp only [List.map_cons, List.sum_cons] at hk
      have := width_pos len
      omega
    have hv' := next_val_lt hp hv hn
    have hk' : ((pval + 1) <<< (len - plen) + 1) * width len + (e.map fun p => width p.1).sum ≤ 2 ^ Config.maxLen := by
      rw [Nat.add_mul, one_mul, Nat.shiftLeft_eq, mul_assoc, width_shift hp hm]
      simp only [List.map_cons, List.sum_cons] at hk
      omega
    obtain ⟨t, ht⟩ := assignFrom_of_room e len _ htl (fun p hp' => ⟨hhd p hp', (hl p (by simp [hp'])).2⟩) hv' hm hk'
    exact ⟨tableEntry y len ((pval + 1) <<< (len - plen)) :: t, by simp only [assignFrom, if_neg hn, ht]⟩

/-- `Assign` succeeds on pairs whose widths fit (R164 f). -/
theorem assign_of_room {e : List (Nat × Sym)} (hs : e.Pairwise (fun a b => a.1 ≤ b.1)) (hl : ∀ p ∈ e, p.1 ≤ Config.maxLen)
    (hk : (e.map fun p => width p.1).sum ≤ 2 ^ Config.maxLen) : ∃ t, assign e = some t := by
  cases e with
  | nil => exact ⟨[], rfl⟩
  | cons p e =>
    obtain ⟨len, y⟩ := p
    obtain ⟨hhd, htl⟩ := List.pairwise_cons.mp hs
    obtain ⟨t, ht⟩ := assignFrom_of_room e len 0 htl (fun p hp' => ⟨hhd p hp', hl p (by simp [hp'])⟩) (Nat.two_pow_pos _)
      (hl (len, y) (by simp)) (by simpa using hk)
    exact ⟨tableEntry y len 0 :: t, by simp only [assign, ht]⟩

/-- Canonical order is ascending in length. -/
theorem sorted_lens {e : List (Nat × Sym)} (h : e.Pairwise canonicalLE) : e.Pairwise (fun a b => a.1 ≤ b.1) :=
  h.imp fun h => by unfold canonicalLE at h; omega

/-! ### Codes as bit strings -/

theorem code_bits_getElem (c : Code) (i : Nat) (h : i < c.bits.length) :
    c.bits[i] = c.val.getLsbD (c.len.toNat - 1 - i) := by
  simp [Code.bits]

/-- A code that starts another one has an interval around the other's (R164 e). -/
theorem start_of_prefix {a b : CodeEntry} (ha : a.code.val.toNat < 2 ^ a.code.len.toNat)
    (hb : b.code.val.toNat < 2 ^ b.code.len.toNat) (hm : b.code.len.toNat ≤ Config.maxLen) (h : a.code.bits <+: b.code.bits) :
    a.start ≤ b.start ∧ b.start < a.start + width a.code.len.toNat := by
  have hle : a.code.len.toNat ≤ b.code.len.toNat := by simpa using h.length_le
  have hval : b.code.val.toNat / 2 ^ (b.code.len.toNat - a.code.len.toNat) = a.code.val.toNat := by
    refine Nat.eq_of_testBit_eq fun i => ?_
    rw [Nat.testBit_div_two_pow]
    by_cases hi : i < a.code.len.toNat
    · have h1 : a.code.len.toNat - 1 - i < a.code.bits.length := by simp; omega
      have h2 : a.code.len.toNat - 1 - i < b.code.bits.length := by simp; omega
      have := h.getElem h1
      rw [code_bits_getElem _ _ h1, code_bits_getElem _ _ h2] at this
      rw [BitVec.testBit_toNat, BitVec.testBit_toNat]
      rw [show a.code.len.toNat - 1 - (a.code.len.toNat - 1 - i) = i by omega,
        show b.code.len.toNat - 1 - (a.code.len.toNat - 1 - i) = b.code.len.toNat - a.code.len.toNat + i by omega] at this
      rw [this, add_comm]
    · rw [Nat.testBit_lt_two_pow (lt_of_lt_of_le hb (Nat.pow_le_pow_right (by decide) (by omega))),
        Nat.testBit_lt_two_pow (lt_of_lt_of_le ha (Nat.pow_le_pow_right (by decide) (by omega)))]
  have hw : 2 ^ (b.code.len.toNat - a.code.len.toNat) * width b.code.len.toNat = width a.code.len.toNat := width_shift hle hm
  have hdm := Nat.div_add_mod b.code.val.toNat (2 ^ (b.code.len.toNat - a.code.len.toNat))
  have hlt := Nat.mod_lt b.code.val.toNat (Nat.two_pow_pos (b.code.len.toNat - a.code.len.toNat))
  rw [hval] at hdm
  have hbs : b.start = a.start +
      b.code.val.toNat % 2 ^ (b.code.len.toNat - a.code.len.toNat) * width b.code.len.toNat := by
    rw [CodeEntry.start, CodeEntry.start, ← hw]
    conv_lhs => rw [← hdm]
    ring
  refine ⟨by omega, ?_⟩
  rw [hbs, ← hw]
  have := Nat.mul_lt_mul_of_pos_right hlt (width_pos b.code.len.toNat)
  omega

/-- In a table whose intervals follow one another, every later interval starts at or after the end of every earlier one. -/
theorem starts_of_chain {t : List CodeEntry}
    (h : List.IsChain (fun a b : CodeEntry => b.start = a.start + width a.code.len.toNat) t) :
    t.Pairwise fun a b => a.start + width a.code.len.toNat ≤ b.start := by
  have h' : List.IsChain (fun a b : CodeEntry => a.start + width a.code.len.toNat ≤ b.start) t := h.imp fun _ _ h => h.ge
  have : IsTrans CodeEntry (fun a b => a.start + width a.code.len.toNat ≤ b.start) :=
    ⟨fun a b c hab hbc => by have := width_pos b.code.len.toNat; omega⟩
  exact List.isChain_iff_pairwise.mp h'

/-- Entries whose intervals follow one another have codes none of which starts another. -/
theorem prefixFree_of_chain {t : List CodeEntry}
    (h : List.IsChain (fun a b : CodeEntry => b.start = a.start + width a.code.len.toNat) t)
    (hv : ∀ c ∈ t, c.code.val.toNat < 2 ^ c.code.len.toNat) (hl : ∀ c ∈ t, c.code.len.toNat ≤ Config.maxLen) :
    t.Pairwise fun a b => ¬ a.code.bits <+: b.code.bits ∧ ¬ b.code.bits <+: a.code.bits := by
  refine (List.pairwise_iff_getElem.mpr fun i j hi hj hij => ?_)
  have hstart := List.pairwise_iff_getElem.mp (starts_of_chain h) i j hi hj hij
  have va := hv _ (List.getElem_mem hi)
  have vb := hv _ (List.getElem_mem hj)
  have la := hl _ (List.getElem_mem hi)
  have lb := hl _ (List.getElem_mem hj)
  constructor
  · intro hp
    have := start_of_prefix va vb lb hp
    omega
  · intro hp
    have := start_of_prefix vb va la hp
    have := width_pos (t[i]).code.len.toNat
    omega

/-- What a table that Assign made of a sorted list is like, in one place. -/
theorem assign_table {e : List (Nat × Sym)} {t : List CodeEntry} (hs : e.Pairwise canonicalLE) (hl : ∀ p ∈ e, p.1 ≤ Config.maxLen)
    (h : assign e = some t) :
    t.map CodeEntry.pair = e ∧ (∀ c ∈ t, c.code.val.toNat < 2 ^ c.code.len.toNat) ∧ (∀ c ∈ t, c.code.len.toNat ≤ Config.maxLen) ∧
    t.Pairwise fun a b => ¬ a.code.bits <+: b.code.bits ∧ ¬ b.code.bits <+: a.code.bits := by
  obtain ⟨h1, h2, h3, -⟩ := assign_spec (sorted_lens hs) hl h
  have h4 : ∀ c ∈ t, c.code.len.toNat ≤ Config.maxLen := fun c hc => hl c.pair (h1 ▸ List.mem_map.mpr ⟨c, hc, rfl⟩)
  exact ⟨h1, h2, h4, prefixFree_of_chain h3 h2 h4⟩

end Sys2Proof.Machine
end

