-- ==== Sys2Proof/Laws/Build.lean ====
section
/-! SUPPORT. BUILD's work area (spec 41_tree_engine.md R155 to R159, R163, R164 f). -/

namespace Sys2Proof.Machine

open Sys2Proof.Config (BTree QNode TieBreak)

/-! ### ExtractMin -/

theorem leastNodes_mem {q : List QNode} {x : QNode} : x ∈ leastNodes q ↔ x ∈ q ∧ ∀ y ∈ q, x.prio ≤ y.prio := by
  simp [leastNodes]

theorem leastNodes_ne_nil {q : List QNode} (h : q ≠ []) : leastNodes q ≠ [] := by
  obtain ⟨x, hx⟩ := List.exists_mem_of_ne_nil q h
  obtain ⟨y, hy, hmin⟩ := q.toFinset.exists_min_image QNode.prio ⟨x, List.mem_toFinset.mpr hx⟩
  exact List.ne_nil_of_mem (leastNodes_mem.mpr ⟨List.mem_toFinset.mp hy, fun z hz => hmin z (List.mem_toFinset.mpr hz)⟩)

/-- `ExtractMin` takes a node out of Q, or finds Q empty. -/
theorem extractMin_spec (tb : TieBreak) (q : List QNode) :
    (q = [] ∧ extractMin tb q = none) ∨
    ∃ x, extractMin tb q = some (x, q.erase x) ∧ x ∈ leastNodes q ∧ (leastNodes q)[tb (leastNodes q) % (leastNodes q).length]? = some x := by
  by_cases hq : q = []
  · subst hq; left; simp [extractMin, leastNodes]
  · right
    have hlt : tb (leastNodes q) % (leastNodes q).length < (leastNodes q).length :=
      Nat.mod_lt _ (List.length_pos_iff.mpr (leastNodes_ne_nil hq))
    refine ⟨(leastNodes q)[tb (leastNodes q) % (leastNodes q).length], ?_, List.getElem_mem hlt, List.getElem?_eq_getElem hlt⟩
    simp [extractMin, List.getElem?_eq_getElem hlt]

theorem extractMin_perm {tb : TieBreak} {q q' : List QNode} {x : QNode} (h : extractMin tb q = some (x, q')) :
    q.Perm (x :: q') := by
  rcases extractMin_spec tb q with ⟨-, h'⟩ | ⟨y, h', hm, -⟩
  · rw [h'] at h; exact absurd h (by simp)
  · rw [h'] at h
    obtain ⟨rfl, rfl⟩ := Prod.mk.inj (Option.some.inj h)
    exact List.perm_cons_erase (leastNodes_mem.mp hm).1

theorem extractMin_none {tb : TieBreak} {q : List QNode} (h : extractMin tb q = none) : q = [] := by
  rcases extractMin_spec tb q with ⟨hq, -⟩ | ⟨y, h', -⟩
  · exact hq
  · rw [h'] at h; exact absurd h (by simp)

/-! ### Merge -/

/-- The leaves of a tree. -/
def leaves (t : BTree) : List Sym := (leafDepths 0 t).map Prod.snd

theorem leafDepths_map (t : BTree) (d : Nat) : leafDepths d t = (leafDepths 0 t).map fun p => (p.1 + d, p.2) := by
  induction t generalizing d with
  | leaf y => simp [leafDepths]
  | node l r il ir =>
    simp only [leafDepths, List.map_append]
    rw [il (d + 1), ir (d + 1), il (0 + 1), ir (0 + 1)]
    simp [Function.comp_def, Nat.add_assoc, Nat.add_comm 1 d]

theorem leaves_leaf (y : Sym) : leaves (.leaf y) = [y] := rfl

theorem leaves_node (l r : BTree) : leaves (.node l r) = leaves l ++ leaves r := by
  simp only [leaves, leafDepths, List.map_append]
  rw [leafDepths_map l, leafDepths_map r]
  simp [Function.comp_def]

theorem leaves_ne_nil (t : BTree) : leaves t ≠ [] := by
  induction t with
  | leaf y => simp [leaves_leaf]
  | node l r il _ => simp [leaves_node, il]

/-- No leaf of a tree is deeper than its number of leaves less one (R163). -/
theorem depth_le (t : BTree) : ∀ p ∈ leafDepths 0 t, p.1 + 1 ≤ (leaves t).length := by
  induction t with
  | leaf y => simp [leafDepths, leaves]
  | node l r il ir =>
    have hl := List.length_pos_iff.mpr (leaves_ne_nil l)
    have hr := List.length_pos_iff.mpr (leaves_ne_nil r)
    intro p hp
    simp only [leafDepths, List.mem_append] at hp
    rw [leafDepths_map l, leafDepths_map r] at hp
    simp only [leaves_node, List.length_append]
    rcases hp with hp | hp <;> obtain ⟨p', hp', rfl⟩ := List.mem_map.mp hp
    · have := il p' hp'; dsimp only; omega
    · have := ir p' hp'; dsimp only; omega

/-- The widths of a tree's leaf depths fill the space below its root's depth (R164 f). -/
theorem widths_sum (t : BTree) (d : Nat) (h : ∀ p ∈ leafDepths d t, p.1 ≤ Config.maxLen) :
    ((leafDepths d t).map fun p => width p.1).sum = width d := by
  induction t generalizing d with
  | leaf y => simp [leafDepths]
  | node l r il ir =>
    have hl := il (d + 1) fun p hp => h p (by simp [leafDepths, hp])
    have hr := ir (d + 1) fun p hp => h p (by simp [leafDepths, hp])
    have hd : d + 1 ≤ Config.maxLen := by
      obtain ⟨p, hp⟩ := List.exists_mem_of_ne_nil _ (leaves_ne_nil l)
      obtain ⟨p', hp', -⟩ := List.mem_map.mp hp
      have := h (p'.1 + (d + 1), p'.2) (by
        simp only [leafDepths, List.mem_append]
        left
        rw [leafDepths_map l]
        exact List.mem_map.mpr ⟨p', hp', rfl⟩)
      dsimp only at this; omega
    simp only [leafDepths, List.map_append, List.sum_append, hl, hr]
    rw [← width_shift (Nat.le_succ d) hd]
    simp; ring

/-- `Merge` keeps the leaves of Q (R156). -/
theorem merge_leaves (tb : TieBreak) : ∀ (k seq : Nat) (q : List QNode) (t : BTree), merge tb k seq q = some t →
    (leaves t).Perm (q.flatMap fun n => leaves n.tree)
  | 0, _, _, _, h => by simp [merge] at h
  | k + 1, seq, q, t, h => by
    simp only [merge] at h
    split at h
    · exact absurd h (by simp)
    · rename_i a q1 ha
      have pa := extractMin_perm ha
      split at h
      · rename_i hb
        obtain rfl := extractMin_none hb
        obtain rfl := Option.some.inj h
        have := pa.flatMap_right (fun n => leaves n.tree)
        simpa using this.symm
      · rename_i b q2 hb
        have pb := extractMin_perm hb
        have ih := merge_leaves tb k (seq + 1) _ t h
        refine ih.trans ?_
        have h1 := (pa.trans (pb.cons a)).flatMap_right (fun n => leaves n.tree)
        refine List.Perm.trans ?_ h1.symm
        simp only [List.flatMap_append, List.flatMap_cons, List.flatMap_nil, List.append_nil, leaves_node]
        exact List.perm_append_comm.trans (by simp)

/-- `Merge` of a nonempty Q ends within one round per node (R156, log entry 10). -/
theorem merge_isSome (tb : TieBreak) : ∀ (k seq : Nat) (q : List QNode), q ≠ [] → q.length ≤ k → ∃ t, merge tb k seq q = some t
  | 0, _, q, hq, hk => absurd (List.eq_nil_of_length_eq_zero (by omega)) hq
  | k + 1, seq, q, hq, hk => by
    simp only [merge]
    split
    · rename_i ha; exact absurd (extractMin_none ha) hq
    · rename_i a q1 ha
      have pa := (extractMin_perm ha).length_eq
      split
      · exact ⟨_, rfl⟩
      · rename_i b q2 hb
        have pb := (extractMin_perm hb).length_eq
        simp only [List.length_cons] at pa pb
        exact merge_isSome tb k (seq + 1) _ (by simp) (by simp; omega)

theorem merge_nil (tb : TieBreak) (k seq : Nat) : merge tb k seq [] = none := by
  cases k with
  | zero => rfl
  | succ k => simp [merge, extractMin, leastNodes]

/-- With two nodes or more `Merge` takes the least two and puts a node with their summed priority in (R156). -/
theorem merge_two (tb : TieBreak) (k seq : Nat) (q : List QNode) (h : 2 ≤ q.length) :
    ∃ a b q1 q2, extractMin tb q = some (a, q1) ∧ extractMin tb q1 = some (b, q2) ∧
      merge tb (k + 1) seq q = merge tb k (seq + 1) (q2 ++ [⟨a.prio + b.prio, seq, .node a.tree b.tree⟩]) := by
  rcases extractMin_spec tb q with ⟨rfl, -⟩ | ⟨a, ha, -, -⟩
  · simp at h
  · have hl := (extractMin_perm ha).length_eq
    rcases extractMin_spec tb (q.erase a) with ⟨h0, -⟩ | ⟨b, hb, -, -⟩
    · simp [h0] at hl; omega
    · exact ⟨a, b, _, _, ha, hb, by simp only [merge, ha, hb]⟩

/-- `Merge` of one node gives its tree (R156). -/
theorem merge_one (tb : TieBreak) (k seq : Nat) (x : QNode) : merge tb (k + 1) seq [x] = some x.tree := by
  simp [merge, extractMin, leastNodes, Nat.mod_one]

/-! ### Leaves -/

/-- Place k of a numbered list's kept elements holds the one with k kept ones before it. -/
theorem zipIdx_filter_getElem? {α β : Type} (P : α → Bool) (g : α → Nat → β) {q : β} : ∀ {l : List α} {n k : Nat},
    (((l.zipIdx n).filter fun p => P p.1).map fun p => g p.1 p.2)[k]? = some q ↔
      ∃ i, ∃ h : i < l.length, P l[i] = true ∧ k = (l.take i).countP P ∧ q = g l[i] (n + i)
  | [], _, _ => by simp
  | a :: l, n, k => by
    have hsplit : ∀ p : Nat → Prop, (∃ i, p i) ↔ p 0 ∨ ∃ i, p (i + 1) := fun p =>
      ⟨fun ⟨i, h⟩ => by cases i with | zero => exact .inl h | succ i => exact .inr ⟨i, h⟩,
       fun h => h.elim (fun h => ⟨0, h⟩) fun ⟨i, h⟩ => ⟨i + 1, h⟩⟩
    have ih := fun k => zipIdx_filter_getElem? P g (q := q) (l := l) (n := n + 1) (k := k)
    simp only [show ∀ i, n + 1 + i = n + (i + 1) by omega] at ih
    rw [hsplit, List.zipIdx_cons]
    by_cases ha : P a = true
    · cases k with
      | zero =>
        rw [List.filter_cons_of_pos (by exact ha), List.map_cons, List.getElem?_cons_zero, Option.some_inj]
        constructor
        · rintro rfl
          exact .inl ⟨by simp, ha, by simp, rfl⟩
        · rintro (⟨_, -, -, h⟩ | ⟨i, _, -, h, -⟩)
          · exact h.symm
          · simp [ha] at h
      | succ k =>
        rw [List.filter_cons_of_pos (by exact ha), List.map_cons, List.getElem?_cons_succ, ih]
        simp [ha]
    · rw [List.filter_cons_of_neg (by exact ha), ih]
      simp [ha]

/-- The leaf at place k is that of the symbol with k present ones below it; its priority is the symbol's count and its number k (R155). -/
theorem makeLeaves_getElem? {f : Vector Count Config.nsym} {k : Nat} {x : QNode} : (makeLeaves f)[k]? = some x ↔
    ∃ y, ∃ h : y < Config.nsym, f[y] ≠ 0 ∧ k = (f.toList.take y).countP (· ≠ 0) ∧
      x = ⟨f[y].toNat, k, .leaf (BitVec.ofNat Config.symW y)⟩ := by
  have hz := fun q : Sym × Nat => zipIdx_filter_getElem? (fun v : Count => decide (v ≠ 0))
    (fun v i => (BitVec.ofNat Config.symW i, v.toNat)) (q := q) (l := f.toList) (n := 0) (k := k)
  change ∀ q, (presentSymbols f)[k]? = some q ↔ _ at hz
  simp only [makeLeaves, List.getElem?_map, List.getElem?_zipIdx, Option.map_map, Option.map_eq_some_iff, hz]
  constructor
  · rintro ⟨q, ⟨i, h, h1, h2, rfl⟩, rfl⟩
    exact ⟨i, by simpa using h, by simpa using h1, h2, by simp⟩
  · rintro ⟨i, h, h1, h2, rfl⟩
    exact ⟨_, ⟨i, by simpa using h, by simpa using h1, h2, rfl⟩, by simp⟩

/-- The symbols BUILD makes leaves for are those with a nonzero count (R155). -/
theorem mem_presentSymbols {f : Vector Count Config.nsym} {y : Sym} :
    (∃ c, (y, c) ∈ presentSymbols f) ↔ ∃ h : y.toNat < Config.nsym, f[y.toNat] ≠ 0 := by
  simp only [presentSymbols, List.mem_map, List.mem_filter, decide_eq_true_eq]
  constructor
  · rintro ⟨c, ⟨v, i⟩, ⟨hm, hv⟩, he⟩
    obtain ⟨hi, hvi⟩ := List.mem_zipIdx' hm
    simp only [Prod.mk.injEq] at he
    obtain ⟨rfl, -⟩ := he
    have hi' : i < 259 := by simpa using hi
    have hn : (BitVec.ofNat Config.symW i).toNat = i := by
      rw [BitVec.toNat_ofNat]; exact Nat.mod_eq_of_lt (lt_of_lt_of_le hi' (by decide))
    refine ⟨by rw [hn]; exact hi', ?_⟩
    simp only [hn]
    simpa [hvi] using hv
  · rintro ⟨h, hv⟩
    refine ⟨f[y.toNat].toNat, (f[y.toNat], y.toNat), ⟨?_, hv⟩, by simp⟩
    rw [List.mem_zipIdx_iff_getElem?]
    simp [h]

theorem presentSymbols_nodup (f : Vector Count Config.nsym) : ((presentSymbols f).map Prod.fst).Nodup := by
  have hidx : ((f.toList.zipIdx.filter fun p => p.1 ≠ 0).map Prod.snd).Nodup := by
    refine ((List.filter_sublist).map Prod.snd).nodup ?_
    rw [List.zipIdx_map_snd]
    exact List.nodup_range'
  have hlt : ∀ p ∈ f.toList.zipIdx.filter (fun p => p.1 ≠ 0), p.2 < 512 := by
    rintro ⟨v, i⟩ hp
    obtain ⟨hi, -⟩ := List.mem_zipIdx' (List.mem_filter.mp hp).1
    have : i < 259 := by simpa using hi
    dsimp only; omega
  have hmap : (presentSymbols f).map Prod.fst =
      ((f.toList.zipIdx.filter fun p => p.1 ≠ 0).map Prod.snd).map (BitVec.ofNat Config.symW) := by
    simp [presentSymbols, Function.comp_def]
  rw [hmap]
  refine List.Nodup.map_on ?_ hidx
  intro a ha b hb hab
  obtain ⟨p, hp, rfl⟩ := List.mem_map.mp ha
  obtain ⟨p', hp', rfl⟩ := List.mem_map.mp hb
  have h1 := hlt p hp
  have h2 := hlt p' hp'
  have := congrArg BitVec.toNat hab
  simp only [BitVec.toNat_ofNat] at this
  have e : 2 ^ Config.symW = 512 := rfl
  rwa [e, Nat.mod_eq_of_lt h1, Nat.mod_eq_of_lt h2] at this

theorem presentSymbols_length (f : Vector Count Config.nsym) : (presentSymbols f).length ≤ Config.nsym := by
  have h1 : (presentSymbols f).length = (f.toList.zipIdx.filter fun p => p.1 ≠ 0).length := by simp [presentSymbols]
  have h2 := List.length_filter_le (fun p : Count × Nat => decide (p.1 ≠ 0)) f.toList.zipIdx
  rw [h1]
  simpa using h2

theorem makeLeaves_leaves (f : Vector Count Config.nsym) :
    (makeLeaves f).flatMap (fun n => leaves n.tree) = (presentSymbols f).map Prod.fst := by
  have h : ∀ (l : List (Sym × Nat)) (k : Nat),
      ((l.zipIdx k).map fun p => (⟨p.1.2, p.2, .leaf p.1.1⟩ : QNode)).flatMap (fun n => leaves n.tree) = l.map Prod.fst := by
    intro l
    induction l with
    | nil => intro k; rfl
    | cons a l ih => intro k; simp [List.zipIdx_cons, leaves_leaf, ih (k + 1)]
  exact h _ 0

@[simp] theorem makeLeaves_length (f : Vector Count Config.nsym) : (makeLeaves f).length = (presentSymbols f).length := by
  simp [makeLeaves]

/-! ### The table -/

/-- Everything steps 1 to 5 of BUILD can do (R154): DegenerateError when no symbol is present; else a table whose pairs are the
(depth, symbol) pairs of a tree of the present symbols, in canonical order. No depth exceeds MAXLEN and no increment overflows. -/
theorem buildTable_cases (tb : TieBreak) (f : Vector Count Config.nsym) :
    (presentSymbols f = [] ∧ buildTable tb f = .error .degenerate) ∨
    ∃ (root : BTree) (t : List CodeEntry), buildTable tb f = .ok t ∧ (leaves root).Perm ((presentSymbols f).map Prod.fst) ∧
      (∀ p ∈ leafDepths 0 root, p.1 ≤ Config.maxLen) ∧ assign (canonicalSort (leafDepths 0 root)) = some t := by
  by_cases hp : presentSymbols f = []
  · left
    refine ⟨hp, ?_⟩
    have : makeLeaves f = [] := List.eq_nil_of_length_eq_zero (by simp [hp])
    simp [buildTable, this, merge_nil]
  · right
    have hq : makeLeaves f ≠ [] := fun h => hp (List.eq_nil_of_length_eq_zero (by simpa [h] using (makeLeaves_length f).symm))
    obtain ⟨root, hr⟩ := merge_isSome tb (makeLeaves f).length (makeLeaves f).length _ hq le_rfl
    have hperm := merge_leaves tb _ _ _ _ hr
    rw [makeLeaves_leaves] at hperm
    have hlen : (leaves root).length ≤ Config.nsym := by
      have h1 := presentSymbols_length f
      have h2 := hperm.length_eq
      simp only [List.length_map] at h2
      omega
    have hdep : ∀ p ∈ leafDepths 0 root, p.1 ≤ Config.maxLen := fun p hp => by
      have h1 := depth_le root p hp
      unfold Config.nsym at hlen
      unfold Config.maxLen
      omega
    have hsp := canonicalSort_perm (leafDepths 0 root)
    have hmem : ∀ p ∈ canonicalSort (leafDepths 0 root), p.1 ≤ Config.maxLen := fun p hp => hdep p (hsp.mem_iff.mp hp)
    have hk : ((canonicalSort (leafDepths 0 root)).map fun p => width p.1).sum ≤ 2 ^ Config.maxLen := by
      rw [(hsp.map _).sum_eq, widths_sum root 0 hdep, width, Nat.sub_zero]
    obtain ⟨t, ht⟩ := assign_of_room (sorted_lens (canonicalSort_sorted _)) hmem hk
    refine ⟨root, t, ?_, hperm, hdep, ht⟩
    have hany : (canonicalSort (leafDepths 0 root)).any (fun p => decide (Config.maxLen < p.1)) = false := by
      simp only [List.any_eq_false, decide_eq_true_eq]
      exact fun p hp => Nat.not_lt.mpr (hmem p hp)
    simp only [buildTable, hr, hany, ht, Bool.false_eq_true, if_false]

/-- What a table BUILD made comes from. -/
theorem buildTable_ok {tb : TieBreak} {f : Vector Count Config.nsym} {t : List CodeEntry} (h : buildTable tb f = .ok t) :
    ∃ root : BTree, (leaves root).Perm ((presentSymbols f).map Prod.fst) ∧ (∀ p ∈ leafDepths 0 root, p.1 ≤ Config.maxLen) ∧
      assign (canonicalSort (leafDepths 0 root)) = some t ∧ t.map CodeEntry.pair = canonicalSort (leafDepths 0 root) := by
  rcases buildTable_cases tb f with ⟨-, h'⟩ | ⟨root, t', h', hp, hd, ha⟩
  · rw [h'] at h; cases h
  · rw [h'] at h
    cases h
    exact ⟨root, hp, hd, ha, (assign_spec (sorted_lens (canonicalSort_sorted _))
      (fun p hp => hd p ((canonicalSort_perm _).mem_iff.mp hp)) ha).1⟩

/-- A table BUILD made has the (depth, symbol) pairs of the merged tree of the leaves (R154 to R159). -/
theorem buildTable_merge {tb : TieBreak} {f : Vector Count Config.nsym} {t : List CodeEntry} (h : buildTable tb f = .ok t) :
    ∃ root, merge tb (makeLeaves f).length (makeLeaves f).length (makeLeaves f) = some root ∧
      t.map CodeEntry.pair = canonicalSort (leafDepths 0 root) := by
  simp only [buildTable] at h
  split at h
  · cases h
  · rename_i root hr
    refine ⟨root, hr, ?_⟩
    split at h
    · cases h
    · rename_i hany
      split at h
      · cases h
      · rename_i t' ha
        cases h
        refine (assign_spec (sorted_lens (canonicalSort_sorted _)) (fun p hp => ?_) ha).1
        simpa using (List.any_eq_false.mp (Bool.eq_false_iff.mpr hany)) p hp

theorem countOf_ofNat {f : Vector Count Config.nsym} {y : Nat} (h : y < Config.nsym) :
    countOf f (BitVec.ofNat Config.symW y) = f[y].toNat := by
  have : y % 2 ^ Config.symW = y := Nat.mod_eq_of_lt (lt_of_lt_of_le h (by decide))
  simp [countOf, BitVec.toNat_ofNat, this, h]

/-- The symbols of a table BUILD made are the present ones, each once. -/
theorem buildTable_syms {tb : TieBreak} {f : Vector Count Config.nsym} {t : List CodeEntry} (h : buildTable tb f = .ok t) :
    (t.map CodeEntry.sym).Perm ((presentSymbols f).map Prod.fst) := by
  obtain ⟨root, hp, -, -, ht⟩ := buildTable_ok h
  have : t.map CodeEntry.sym = (t.map CodeEntry.pair).map Prod.snd := by simp [CodeEntry.pair, Function.comp_def]
  rw [this, ht]
  exact ((canonicalSort_perm _).map _).trans hp

theorem buildTable_nodup {tb : TieBreak} {f : Vector Count Config.nsym} {t : List CodeEntry} (h : buildTable tb f = .ok t) :
    (t.map CodeEntry.sym).Nodup :=
  (buildTable_syms h).nodup_iff.mpr (presentSymbols_nodup f)

/-- A symbol has an entry exactly when its counter is not 0 (R155). -/
theorem buildTable_mem {tb : TieBreak} {f : Vector Count Config.nsym} {t : List CodeEntry} (h : buildTable tb f = .ok t) (y : Sym) :
    (∃ e ∈ t, e.sym = y) ↔ ∃ h : y.toNat < Config.nsym, f[y.toNat] ≠ 0 := by
  rw [← mem_presentSymbols, ← List.mem_map, (buildTable_syms h).mem_iff]
  simp

/-- A table BUILD made has at most 259 entries (R163). -/
theorem buildTable_length {tb : TieBreak} {f : Vector Count Config.nsym} {t : List CodeEntry} (h : buildTable tb f = .ok t) :
    t.length ≤ Config.nsym := by
  have := (buildTable_syms h).length_eq
  simp only [List.length_map] at this
  rw [this]
  exact presentSymbols_length f

/-- No code of a table BUILD made is longer than the number of entries less one (R163). -/
theorem buildTable_depth {tb : TieBreak} {f : Vector Count Config.nsym} {t : List CodeEntry} (h : buildTable tb f = .ok t) :
    ∀ e ∈ t, e.code.len.toNat + 1 ≤ t.length := by
  obtain ⟨root, hp, -, -, ht⟩ := buildTable_ok h
  intro e he
  have hm : e.pair ∈ leafDepths 0 root := (canonicalSort_perm _).mem_iff.mp (ht ▸ List.mem_map.mpr ⟨e, he, rfl⟩)
  have h1 := depth_le root _ hm
  have h2 := (buildTable_syms h).length_eq
  have h3 := hp.length_eq
  simp only [List.length_map] at h2 h3
  exact h1.trans (by omega)

/-- The pairs of a table BUILD made are in canonical order (R160). -/
theorem buildTable_sorted {tb : TieBreak} {f : Vector Count Config.nsym} {t : List CodeEntry} (h : buildTable tb f = .ok t) :
    (lenPairs (lenEntries t)).Pairwise canonicalLE := by
  obtain ⟨root, -, -, -, ht⟩ := buildTable_ok h
  rw [lenPairs_lenEntries, ht]
  exact canonicalSort_sorted _

/-- A table BUILD made is what Assign gives its pairs (R154 step 5). -/
theorem buildTable_assign {tb : TieBreak} {f : Vector Count Config.nsym} {t : List CodeEntry} (h : buildTable tb f = .ok t) :
    assign (lenPairs (lenEntries t)) = some t := by
  obtain ⟨root, -, -, ha, ht⟩ := buildTable_ok h
  rw [lenPairs_lenEntries, ht, ha]

/-- BUILD makes a table exactly when some symbol is present (R161). -/
theorem buildTable_isOk {tb : TieBreak} {f : Vector Count Config.nsym} (h : presentSymbols f ≠ []) : ∃ t, buildTable tb f = .ok t := by
  rcases buildTable_cases tb f with ⟨h', -⟩ | ⟨_, t, ht, -⟩
  · exact absurd h' h
  · exact ⟨t, ht⟩

theorem presentSymbols_ne_nil {f : Vector Count Config.nsym} : presentSymbols f ≠ [] ↔ ∃ y, ∃ h : y < Config.nsym, f[y] ≠ 0 := by
  constructor
  · intro h
    obtain ⟨⟨y, c⟩, hm⟩ := List.exists_mem_of_ne_nil _ h
    obtain ⟨h1, h2⟩ := mem_presentSymbols.mp ⟨c, hm⟩
    exact ⟨y.toNat, h1, h2⟩
  · rintro ⟨y, h1, h2⟩ hnil
    have hy : (BitVec.ofNat Config.symW y).toNat = y := by
      rw [BitVec.toNat_ofNat]; exact Nat.mod_eq_of_lt (lt_of_lt_of_le h1 (by decide))
    obtain ⟨c, hc⟩ := mem_presentSymbols.mpr (show ∃ h : (BitVec.ofNat Config.symW y).toNat < Config.nsym,
        f[(BitVec.ofNat Config.symW y).toNat] ≠ 0 by
      rw [hy]; exact ⟨h1, h2⟩)
    simp [hnil] at hc

theorem le_leafDepths (t : BTree) : ∀ d, ∀ p ∈ leafDepths d t, d ≤ p.1 := by
  induction t with
  | leaf y => intro d p hp; simp [leafDepths] at hp; simp [hp]
  | node l r il ir =>
    intro d p hp
    rcases List.mem_append.mp hp with hp | hp
    · exact (Nat.le_succ d).trans (il _ p hp)
    · exact (Nat.le_succ d).trans (ir _ p hp)

/-- With two entries or more every code has a bit (41_tree_engine.md R154 corner cases a and b). -/
theorem buildTable_len_pos {tb : TieBreak} {f : Vector Count Config.nsym} {t : List CodeEntry} (h : buildTable tb f = .ok t)
    (h2 : 2 ≤ t.length) : ∀ c ∈ t, 1 ≤ c.code.len.toNat := by
  obtain ⟨root, hp, -, -, ht⟩ := buildTable_ok h
  have hlen := (hp.trans (buildTable_syms h).symm).length_eq
  intro c hc
  have hm : c.pair ∈ leafDepths 0 root := (canonicalSort_perm _).mem_iff.mp (ht ▸ List.mem_map.mpr ⟨c, hc, rfl⟩)
  cases root with
  | leaf y => simp [leaves_leaf] at hlen; omega
  | node l r =>
    rcases List.mem_append.mp hm with hm | hm
    · exact le_leafDepths l 1 _ hm
    · exact le_leafDepths r 1 _ hm

end Sys2Proof.Machine
end

