-- ==== Sys2Proof/Laws/Decode.lean ====
section
/-! SUPPORT. The fields of a command word (spec 30_encoding.md R90, R91). -/

namespace Sys2Proof

/-- A word put together from its fields (R90). -/
def packWord (o : BitVec 8) (b a : BitVec 9) : Word := o ++ (0 : BitVec 3) ++ b ++ (0 : BitVec 3) ++ a

theorem packWord_getLsbD (o : BitVec 8) (b a : BitVec 9) (i : Nat) :
    (packWord o b a).getLsbD i =
      if i < 9 then a.getLsbD i else if i < 12 then false else if i < 21 then b.getLsbD (i - 12)
      else if i < 24 then false else o.getLsbD (i - 24) := by
  simp only [packWord, BitVec.getLsbD_append]
  split_ifs <;> first
    | rfl
    | omega
    | simp [Nat.sub_sub]

@[simp] theorem opField_packWord (o : BitVec 8) (b a : BitVec 9) : opField (packWord o b a) = o := by
  refine BitVec.eq_of_getLsbD_eq fun i hi => ?_
  simp only [opField, BitVec.getLsbD_extractLsb', packWord_getLsbD, hi, decide_true, Bool.true_and]
  split_ifs <;> first
    | omega
    | simp

@[simp] theorem aField_packWord (o : BitVec 8) (b a : BitVec 9) : aField (packWord o b a) = a := by
  refine BitVec.eq_of_getLsbD_eq fun i hi => ?_
  simp [aField, packWord_getLsbD, hi]

@[simp] theorem bField_packWord (o : BitVec 8) (b a : BitVec 9) : bField (packWord o b a) = b := by
  refine BitVec.eq_of_getLsbD_eq fun i hi => ?_
  simp only [bField, BitVec.getLsbD_extractLsb', packWord_getLsbD, hi, decide_true, Bool.true_and]
  split_ifs <;> first
    | omega
    | simp

theorem encode_eq_packWord (i : Instr) : encode i = packWord i.opcode i.bOperand i.aOperand := rfl

/-- Two words with the same fields and reserved bits 0 are the same word. -/
theorem packWord_fields {w : Word} (h : w &&& 0x00E00E00#32 = 0) : packWord (opField w) (bField w) (aField w) = w := by
  refine BitVec.eq_of_getLsbD_eq fun i hi => ?_
  have hr : ∀ j, (w.getLsbD j && (0x00E00E00#32).getLsbD j) = false := by
    intro j; rw [← BitVec.getLsbD_and, h]; simp
  rw [packWord_getLsbD]
  split_ifs with h1 h2 h3 h4
  · simp [aField, h1]
  · have := hr i
    have hb : (0x00E00E00#32).getLsbD i = true := by
      have : 9 ≤ i := by omega
      interval_cases i <;> rfl
    simpa [hb] using this.symm
  · simp [bField, show i - 12 < 9 by omega, show 12 + (i - 12) = i by omega]
  · have := hr i
    have hb : (0x00E00E00#32).getLsbD i = true := by
      have : 21 ≤ i := by omega
      interval_cases i <;> rfl
    simpa [hb] using this.symm
  · simp [opField, show i - 24 < 8 by omega, show 24 + (i - 24) = i by omega]

theorem mask_ab (w : Word) : w &&& Format.mask .ab = matchWord (opField w) ↔ w &&& 0x00E00E00#32 = 0 := by
  constructor
  · intro h
    refine BitVec.eq_of_getLsbD_eq fun i hi => ?_
    have := congrArg (fun v : Word => v.getLsbD i) h
    simp only [matchWord, opField, Format.mask, BitVec.getLsbD_and, BitVec.getLsbD_shiftLeft, BitVec.getLsbD_setWidth,
      BitVec.getLsbD_extractLsb'] at this
    rw [BitVec.getLsbD_and]
    interval_cases i <;> simp_all
  · intro h
    refine BitVec.eq_of_getLsbD_eq fun i hi => ?_
    have := congrArg (fun v : Word => v.getLsbD i) h
    simp only [matchWord, opField, Format.mask, BitVec.getLsbD_and, BitVec.getLsbD_shiftLeft, BitVec.getLsbD_setWidth,
      BitVec.getLsbD_extractLsb'] at this ⊢
    interval_cases i <;> simp_all

theorem mask_a (w : Word) : w &&& Format.mask .a = matchWord (opField w) ↔ w &&& 0x00E00E00#32 = 0 ∧ bField w = 0 := by
  constructor
  · intro h
    constructor
    · refine BitVec.eq_of_getLsbD_eq fun i hi => ?_
      have := congrArg (fun v : Word => v.getLsbD i) h
      simp only [matchWord, opField, Format.mask, BitVec.getLsbD_and, BitVec.getLsbD_shiftLeft, BitVec.getLsbD_setWidth,
        BitVec.getLsbD_extractLsb'] at this
      rw [BitVec.getLsbD_and]
      interval_cases i <;> simp_all
    · refine BitVec.eq_of_getLsbD_eq fun i hi => ?_
      have := congrArg (fun v : Word => v.getLsbD (12 + i)) h
      simp only [matchWord, opField, Format.mask, BitVec.getLsbD_and, BitVec.getLsbD_shiftLeft, BitVec.getLsbD_setWidth,
        BitVec.getLsbD_extractLsb'] at this
      simp only [bField, BitVec.getLsbD_extractLsb']
      interval_cases i <;> simp_all
  · rintro ⟨h, hb⟩
    refine BitVec.eq_of_getLsbD_eq fun i hi => ?_
    have h1 := congrArg (fun v : Word => v.getLsbD i) h
    have h2 := congrArg (fun v : BitVec 9 => v.getLsbD (i - 12)) hb
    simp only [matchWord, opField, bField, Format.mask, BitVec.getLsbD_and, BitVec.getLsbD_shiftLeft, BitVec.getLsbD_setWidth,
      BitVec.getLsbD_extractLsb'] at h1 h2 ⊢
    interval_cases i <;> simp_all

theorem mask_z (w : Word) : w &&& Format.mask .z = matchWord (opField w) ↔
    w &&& 0x00E00E00#32 = 0 ∧ bField w = 0 ∧ aField w = 0 := by
  constructor
  · intro h
    refine ⟨?_, ?_, ?_⟩
    · refine BitVec.eq_of_getLsbD_eq fun i hi => ?_
      have := congrArg (fun v : Word => v.getLsbD i) h
      simp only [matchWord, opField, Format.mask, BitVec.getLsbD_and, BitVec.getLsbD_shiftLeft, BitVec.getLsbD_setWidth,
        BitVec.getLsbD_extractLsb'] at this
      rw [BitVec.getLsbD_and]
      interval_cases i <;> simp_all
    · refine BitVec.eq_of_getLsbD_eq fun i hi => ?_
      have := congrArg (fun v : Word => v.getLsbD (12 + i)) h
      simp only [matchWord, opField, Format.mask, BitVec.getLsbD_and, BitVec.getLsbD_shiftLeft, BitVec.getLsbD_setWidth,
        BitVec.getLsbD_extractLsb'] at this
      simp only [bField, BitVec.getLsbD_extractLsb']
      interval_cases i <;> simp_all
    · refine BitVec.eq_of_getLsbD_eq fun i hi => ?_
      have := congrArg (fun v : Word => v.getLsbD i) h
      simp only [matchWord, opField, Format.mask, BitVec.getLsbD_and, BitVec.getLsbD_shiftLeft, BitVec.getLsbD_setWidth,
        BitVec.getLsbD_extractLsb'] at this
      simp only [aField, BitVec.getLsbD_extractLsb']
      interval_cases i <;> simp_all
  · rintro ⟨h, hb, ha⟩
    refine BitVec.eq_of_getLsbD_eq fun i hi => ?_
    have h1 := congrArg (fun v : Word => v.getLsbD i) h
    have h2 := congrArg (fun v : BitVec 9 => v.getLsbD (i - 12)) hb
    have h3 := congrArg (fun v : BitVec 9 => v.getLsbD i) ha
    simp only [matchWord, opField, bField, aField, Format.mask, BitVec.getLsbD_and, BitVec.getLsbD_shiftLeft, BitVec.getLsbD_setWidth,
      BitVec.getLsbD_extractLsb'] at h1 h2 h3 ⊢
    interval_cases i <;> simp_all

end Sys2Proof
end

