-- ==== Sys2Proof/Laws/Tree.lean ====
section
/-! SUPPORT. The decode tree: what an insertion does to it, and the tree of a table (spec 10_state.md R38, 41_tree_engine.md R168, R170). -/

namespace Sys2Proof.Machine

@[simp] theorem sub_nil (d : DTree) : d.sub [] = d := by cases d <;> rfl

@[simp] theorem sub_absent (p : List Bool) : DTree.absent.sub p = .absent := by cases p <;> rfl

theorem sub_append (d : DTree) (p q : List Bool) : d.sub (p ++ q) = (d.sub p).sub q := by
  induction p generalizing d with
  | nil => simp
  | cons b p ih =>
    cases d with
    | absent => simp
    | leaf y => simp [DTree.sub]
    | inner l r => simp only [List.cons_append, DTree.sub, ih]

/-- A path that has a longer path in the tree is an internal node (R38 c). -/
theorem sub_inner_of_longer {d : DTree} {p : List Bool} {b : Bool} {q : List Bool} (h : d.sub (p ++ b :: q) ≠ .absent) :
    ∃ l r, d.sub p = .inner l r := by
  rw [sub_append] at h
  cases hd : d.sub p with
  | absent => rw [hd] at h; simp at h
  | leaf y => rw [hd] at h; simp [DTree.sub] at h
  | inner l r => exact ⟨l, r, rfl⟩

/-- The inserted path ends on the leaf (R170). -/
theorem sub_insert_self (d : DTree) (p : List Bool) (y : Sym) : (d.insert p y).sub p = .leaf y := by
  induction p generalizing d with
  | nil => cases d <;> simp [DTree.insert]
  | cons b p ih => cases d <;> cases b <;> simp [DTree.insert, DTree.sub, ih]

/-- Every proper beginning of the inserted path is an internal node (R170). -/
theorem sub_insert_beginning (d : DTree) (p q : List Bool) (y : Sym) (h : q <+: p) (hne : q ≠ p) :
    ∃ l r, (d.insert p y).sub q = .inner l r := by
  obtain ⟨u, rfl⟩ := h
  cases u with
  | nil => simp at hne
  | cons b u => exact sub_inner_of_longer (b := b) (q := u) (by rw [sub_insert_self]; simp)

/-- A path that neither starts the inserted one nor goes on from it keeps what it had, where the insertion passes through no leaf. -/
theorem sub_insert_other (d : DTree) (p q : List Bool) (y : Sym) (h1 : ¬ q <+: p) (h2 : ¬ p <+: q)
    (hl : ∀ u, u <+: p → u ≠ p → ∀ z, d.sub u ≠ .leaf z) : (d.insert p y).sub q = d.sub q := by
  induction p generalizing d q with
  | nil => exact absurd (List.nil_prefix) h2
  | cons b p ih =>
    cases q with
    | nil => exact absurd (List.nil_prefix) h1
    | cons c q =>
      by_cases hbc : c = b
      · subst hbc
        have h1' : ¬ q <+: p := fun h => h1 (List.cons_prefix_cons.mpr ⟨rfl, h⟩)
        have h2' : ¬ p <+: q := fun h => h2 (List.cons_prefix_cons.mpr ⟨rfl, h⟩)
        cases d with
        | absent =>
          have := ih .absent q h1' h2' (by simp)
          cases c <;> simp [DTree.insert, DTree.sub, this]
        | leaf z => exact absurd (sub_nil _) (hl [] List.nil_prefix (by simp) z)
        | inner l r =>
          have := ih (if c then r else l) q h1' h2' fun u hu hne z => by
            simpa [DTree.sub] using hl (c :: u) (List.cons_prefix_cons.mpr ⟨rfl, hu⟩) (by simpa using hne) z
          cases c <;> simpa [DTree.insert, DTree.sub] using this
      · cases d with
        | absent => cases b <;> cases c <;> simp_all [DTree.insert, DTree.sub]
        | leaf z => exact absurd (sub_nil _) (hl [] List.nil_prefix (by simp) z)
        | inner l r => cases b <;> cases c <;> simp_all [DTree.insert, DTree.sub]

/-- A path that goes on from the inserted one is not in the tree. -/
theorem sub_insert_beyond (d : DTree) (p q : List Bool) (y : Sym) (h : p <+: q) (hne : p ≠ q) : (d.insert p y).sub q = .absent := by
  obtain ⟨u, rfl⟩ := h
  rw [sub_append, sub_insert_self]
  cases u with
  | nil => simp at hne
  | cons b u => rfl

/-- The tree of a list of codes none of which starts another: exactly the codes are paths to leaves, and exactly their proper beginnings
and the root are internal nodes (R168, R170). -/
def TreeHolds (d : DTree) (t : List CodeEntry) : Prop :=
  (∀ p y, d.sub p = .leaf y ↔ ∃ e ∈ t, e.code.bits = p ∧ e.sym = y) ∧
  (∀ p, (∃ l r, d.sub p = .inner l r) ↔ p = [] ∨ ∃ e ∈ t, p <+: e.code.bits ∧ p ≠ e.code.bits)

theorem treeHolds_root : TreeHolds (.inner .absent .absent) [] := by
  refine ⟨fun p y => ?_, fun p => ?_⟩ <;> cases p with
  | nil => simp
  | cons b p => cases b <;> simp [DTree.sub]

theorem treeHolds_insert {d : DTree} {t : List CodeEntry} {e : CodeEntry} (h : TreeHolds d t) (hne : e.code.bits ≠ [])
    (hpf : ∀ a ∈ t, ¬ a.code.bits <+: e.code.bits ∧ ¬ e.code.bits <+: a.code.bits) :
    TreeHolds (d.insert e.code.bits e.sym) (t ++ [e]) := by
  obtain ⟨hleaf, hinner⟩ := h
  have hpass : ∀ u, u <+: e.code.bits → u ≠ e.code.bits → ∀ z, d.sub u ≠ .leaf z := by
    intro u hu _ z hz
    obtain ⟨a, ha, rfl, -⟩ := (hleaf u z).mp hz
    exact (hpf a ha).1 hu
  have hcases : ∀ q, q = e.code.bits ∨ (q <+: e.code.bits ∧ q ≠ e.code.bits) ∨ (e.code.bits <+: q ∧ e.code.bits ≠ q) ∨
      (¬ q <+: e.code.bits ∧ ¬ e.code.bits <+: q) := by
    intro q
    by_cases h0 : q = e.code.bits
    · exact .inl h0
    · by_cases h1 : q <+: e.code.bits
      · exact .inr (.inl ⟨h1, h0⟩)
      · by_cases h2 : e.code.bits <+: q
        · exact .inr (.inr (.inl ⟨h2, Ne.symm h0⟩))
        · exact .inr (.inr (.inr ⟨h1, h2⟩))
  refine ⟨fun p y => ?_, fun p => ?_⟩
  · simp only [List.mem_append, List.mem_singleton]
    rcases hcases p with rfl | ⟨h1, h2⟩ | ⟨h1, h2⟩ | ⟨h1, h2⟩
    · rw [sub_insert_self]
      constructor
      · intro h; exact ⟨e, .inr rfl, rfl, by simpa using h⟩
      · rintro ⟨a, ha | rfl, hb, rfl⟩
        · exact absurd (hb ▸ List.prefix_refl _) (hpf a ha).1
        · rfl
    · obtain ⟨l, r, hi⟩ := sub_insert_beginning d _ p e.sym h1 h2
      rw [hi]
      constructor
      · intro h; exact absurd h (by simp)
      · rintro ⟨a, ha | rfl, rfl, -⟩
        · exact absurd h1 (hpf a ha).1
        · exact absurd rfl h2
    · rw [sub_insert_beyond d _ p e.sym h1 h2]
      constructor
      · intro h; exact absurd h (by simp)
      · rintro ⟨a, ha | rfl, rfl, -⟩
        · exact absurd h1 (hpf a ha).2
        · exact absurd rfl h2
    · rw [sub_insert_other d _ p e.sym h1 h2 hpass, hleaf]
      constructor
      · rintro ⟨a, ha, h⟩; exact ⟨a, .inl ha, h⟩
      · rintro ⟨a, ha | rfl, rfl, hy⟩
        · exact ⟨a, ha, rfl, hy⟩
        · exact absurd (List.prefix_refl _) h1
  · simp only [List.mem_append, List.mem_singleton]
    rcases hcases p with rfl | ⟨h1, h2⟩ | ⟨h1, h2⟩ | ⟨h1, h2⟩
    · rw [sub_insert_self]
      constructor
      · rintro ⟨l, r, h⟩; exact absurd h (by simp)
      · rintro (h | ⟨a, ha | rfl, hb, hn⟩)
        · exact absurd h hne
        · exact absurd hb (hpf a ha).2
        · exact absurd rfl hn
    · have hi := sub_insert_beginning d _ p e.sym h1 h2
      exact ⟨fun _ => .inr ⟨e, .inr rfl, h1, h2⟩, fun _ => hi⟩
    · rw [sub_insert_beyond d _ p e.sym h1 h2]
      constructor
      · rintro ⟨l, r, h⟩; exact absurd h (by simp)
      · rintro (rfl | ⟨a, ha | rfl, hb, hn⟩)
        · exact absurd (List.prefix_nil.mp h1) hne
        · exact absurd (h1.trans hb) (hpf a ha).2
        · exact absurd (h1.eq_of_length_le hb.length_le) h2
    · rw [sub_insert_other d _ p e.sym h1 h2 hpass, hinner]
      constructor
      · rintro (h | ⟨a, ha, h⟩)
        · exact .inl h
        · exact .inr ⟨a, .inl ha, h⟩
      · rintro (h | ⟨a, ha | rfl, h⟩)
        · exact .inl h
        · exact .inr ⟨a, ha, h⟩
        · exact absurd h.1 h1

/-- REBUILD's tree of a prefix-free table of nonempty codes (R168, R170). -/
theorem treeHolds_treeOf {t : List CodeEntry} (hne : ∀ e ∈ t, e.code.bits ≠ [])
    (hpf : t.Pairwise fun a b => ¬ a.code.bits <+: b.code.bits ∧ ¬ b.code.bits <+: a.code.bits) : TreeHolds (treeOf t) t := by
  have gen : ∀ (u v : List CodeEntry) (d : DTree), TreeHolds d v → (∀ e ∈ u, e.code.bits ≠ []) →
      (v ++ u).Pairwise (fun a b => ¬ a.code.bits <+: b.code.bits ∧ ¬ b.code.bits <+: a.code.bits) →
      TreeHolds (u.foldl (fun d e => d.insert e.code.bits e.sym) d) (v ++ u) := by
    intro u
    induction u with
    | nil => intro v d h _ _; simpa using h
    | cons e u ih =>
      intro v d h hn hp
      have h' := treeHolds_insert h (hn e (by simp)) fun a ha =>
        (List.pairwise_append.mp hp).2.2 a ha e (by simp)
      have := ih (v ++ [e]) _ h' (fun a ha => hn a (by simp [ha])) (by simpa using hp)
      simpa using this
  simpa [treeOf] using gen t [] _ treeHolds_root hne (by simpa using hpf)

/-- The tree REBUILD makes of a length list whose lengths lie in 1 to MAXLEN (41_tree_engine.md R168, R170). -/
theorem treeHolds_of_assign {l : List LenEntry} {t : List CodeEntry} (hl : ∀ e ∈ l, 1 ≤ e.len.toNat ∧ e.len.toNat ≤ Config.maxLen)
    (h : assign (canonicalSort (lenPairs l)) = some t) : TreeHolds (treeOf t) t := by
  have hmem : ∀ p ∈ canonicalSort (lenPairs l), 1 ≤ p.1 ∧ p.1 ≤ Config.maxLen := by
    intro p hp
    obtain ⟨e, he, rfl⟩ := List.mem_map.mp ((canonicalSort_perm _).mem_iff.mp hp)
    exact hl e he
  obtain ⟨h1, -, -, h4⟩ := assign_table (canonicalSort_sorted _) (fun p hp => (hmem p hp).2) h
  refine treeHolds_treeOf (fun c hc hnil => ?_) h4
  have := (hmem c.pair (h1 ▸ List.mem_map.mpr ⟨c, hc, rfl⟩)).1
  have hlen := code_bits_length c.code
  rw [hnil] at hlen
  simp only [CodeEntry.pair, List.length_nil] at this hlen
  omega

end Sys2Proof.Machine
end

