-- ==== Sys2Proof/Laws/Serializer.lean ====
section
/-! SUPPORT. Headers and codes on the flat bit streams (spec 42_serializer.md). -/

namespace Sys2Proof.Machine

/-! ### Reading fields -/

theorem unread_length {r : Bsr} (h8 : r.rcnt.toNat ≤ 8) : r.unread.length = r.rcnt.toNat + 8 * r.src.length := by
  simp [Bsr.unread]; omega

/-- A reader in use: EOS = 0 and RCNT in its range. -/
def Bsr.live (r : Bsr) : Prop := r.eos = false ∧ r.rcnt.toNat ≤ 8

/-- Reading n real bits (40_bitstream.md R131). -/
theorem bsrRead_bits {r : Bsr} {bs rest : List Bool} (h : r.live) (hu : r.unread = bs ++ rest) :
    ∃ r', bsrRead bs.length r = .ok (BitVec.ofNat 64 (natOfBits bs)) r' ∧ r'.unread = rest ∧ r'.live ∧ r'.src <:+ r.src := by
  obtain ⟨h1, h2, h3, h4, h5⟩ := fetchBits_spec bs.length r h.2
  refine ⟨(fetchBits bs.length r).2, ?_, ?_, ⟨?_, h4⟩, h5⟩
  · rw [bsrRead_eq, h1, hu]
    simp [h.1]
  · rw [h2, hu]; simp
  · rw [h3, hu]; simp [h.1]

theorem field_toNat (v : BitVec 9) : (v.setWidth 64).toNat = v.toNat := by
  have := v.isLt
  simp only [BitVec.toNat_setWidth]; omega

/-- A reader in use before its next fields (`Bsr.offers`), or behind the last of them: EOS = 1 exactly when that one ran past the end. -/
def Bsr.before (r : Bsr) (vs : List (BitVec 9)) (rest : List Bool) (m : Nat) : Prop :=
  r.rcnt.toNat ≤ 8 ∧ (vs = [] → r.unread = rest ∧ r.eos = decide (0 < m)) ∧ (vs ≠ [] → r.eos = false ∧ r.offers vs rest m)

theorem Bsr.live.before {r : Bsr} {vs : List (BitVec 9)} {rest : List Bool} {m : Nat} (h : r.live) (ho : r.offers vs rest m) :
    r.before vs rest m := by
  refine ⟨h.2, ?_, fun _ => ⟨h.1, ho⟩⟩
  rintro rfl
  rcases ho with ⟨hu, rfl | ⟨-, -, h0⟩⟩
  · exact ⟨by simpa using hu, h.1⟩
  · exact absurd rfl h0

theorem Bsr.before_real {r : Bsr} {vs : List (BitVec 9)} {rest : List Bool} (h : r.live)
    (hu : r.unread = vs.flatMap (fun v => fieldBits v 9) ++ rest) : r.before vs rest 0 :=
  h.before ⟨by simpa using hu, .inl rfl⟩

/-- Reading the next field, the bits past the end as 0 (40_bitstream.md R131). -/
theorem bsrRead_before {r : Bsr} {v : BitVec 9} {vs : List (BitVec 9)} {rest : List Bool} {m : Nat} (h : r.before (v :: vs) rest m) :
    ∃ r', bsrRead 9 r = .ok (v.setWidth 64) r' ∧ r'.before vs rest m ∧ r'.src <:+ r.src := by
  obtain ⟨h8, -, h⟩ := h
  obtain ⟨he, hu, hm⟩ := h (by simp)
  obtain ⟨h1, h2, h3, h4, h5⟩ := fetchBits_spec 9 r h8
  have hlen := congrArg List.length hu
  simp only [List.length_append, List.length_replicate, List.flatMap_cons, fieldBits_length] at hlen
  have hbits : (r.unread ++ List.replicate 9 false).take 9 = fieldBits v 9 := by
    have e1 : (r.unread ++ List.replicate m false).take 9 = fieldBits v 9 := by
      rw [hu, List.flatMap_cons, List.append_assoc, List.take_append_of_le_length (by simp)]
      simp
    rw [← e1, List.take_append, List.take_append]
    simp only [List.take_replicate]
    rw [show min (9 - r.unread.length) 9 = min (9 - r.unread.length) m by omega]
  have hval : BitVec.ofNat 64 (natOfBits (fieldBits v 9)) = v.setWidth 64 := by
    rw [natOfBits_fieldBits]
    refine BitVec.eq_of_toNat_eq ?_
    have := v.isLt
    simp only [BitVec.toNat_ofNat, BitVec.toNat_setWidth]
    rw [Nat.mod_eq_of_lt (by omega : v.toNat < 2 ^ 9)]
  refine ⟨(fetchBits 9 r).2, ?_, ⟨h4, ?_, ?_⟩, h5⟩
  · rw [bsrRead_eq, h1, hbits, hval]; simp [he]
  · rintro rfl
    simp only [List.flatMap_cons, List.flatMap_nil, List.append_nil] at hu
    rw [h2, h3, he]
    rcases hm with rfl | ⟨hm, rfl, -⟩
    · simp only [List.replicate_zero, List.append_nil] at hu
      rw [hu]; simp
    · simp only [List.flatMap_nil, List.length_nil] at hlen
      exact ⟨List.drop_eq_nil_of_le (by omega), by rw [Bool.false_or, decide_eq_decide]; omega⟩
  · intro hvs
    have hle : 9 ≤ r.unread.length := by
      rcases hm with rfl | ⟨hm, rfl, -⟩
      · omega
      · obtain ⟨w, vs, rfl⟩ := List.exists_cons_of_ne_nil hvs
        simp only [List.flatMap_cons, List.length_append, fieldBits_length] at hlen
        omega
    refine ⟨by rw [h3, he]; simpa using hle, ?_, hm.imp_right fun h => ⟨h.1, h.2.1, hvs⟩⟩
    have := congrArg (List.drop 9) hu
    rw [List.drop_append_of_le_length hle, List.flatMap_cons, List.append_assoc, List.drop_left' (by simp)] at this
    rw [h2]; exact this

/-- Behind a last field that ran past the end every further read raises EndOfStreamError (70_reset_and_hazards.md R284). -/
theorem bsrRead_behind {r : Bsr} {rest : List Bool} {m n : Nat} (h : r.before [] rest m) (hm : 0 < m) :
    bsrRead n r = .error .endOfStream r ∧ r.unread = rest := by
  obtain ⟨hu, he⟩ := h.2.1 rfl
  exact ⟨by rw [bsrRead_eq, he]; simp [hm], hu⟩

theorem readSyms_before {vs : List (BitVec 9)} {rest : List Bool} {m : Nat} : ∀ {ys : List Sym} {r : Bsr}, r.before (ys ++ vs) rest m →
    ∃ r', readSyms ys.length r = .ok ys r' ∧ r'.before vs rest m ∧ r'.src <:+ r.src
  | [], r, h => ⟨r, rfl, h, List.suffix_refl _⟩
  | y :: ys, r, h => by
    obtain ⟨r1, e1, b1, s1⟩ := bsrRead_before h
    obtain ⟨r2, e2, b2, s2⟩ := readSyms_before b1
    refine ⟨r2, ?_, b2, s2.trans s1⟩
    simp only [List.length_cons, readSyms, proc_bind, e1, e2, proc_pure]
    congr 2
    exact BitVec.setWidth_setWidth_of_le _ (by decide) |>.trans (BitVec.setWidth_eq _)

/-- Symbol fields that end with the stream (R192 corner case e). -/
theorem readSyms_short {rest : List Bool} {m : Nat} (hm : 0 < m) : ∀ {ys : List Sym} {n : Nat} {r : Bsr}, r.before ys rest m → ys.length < n →
    ∃ r', readSyms n r = .error .endOfStream r' ∧ r'.unread = rest
  | _, 0, _, _, hn => absurd hn (Nat.not_lt_zero _)
  | [], n + 1, r, h, _ => by
    obtain ⟨e, hu⟩ := bsrRead_behind (n := 9) h hm
    exact ⟨r, by simp only [readSyms, proc_bind, e], hu⟩
  | y :: ys, n + 1, r, h, hn => by
    obtain ⟨r1, e1, b1, -⟩ := bsrRead_before h
    obtain ⟨r2, e2, u2⟩ := readSyms_short hm b1 (n := n) (by simpa using hn)
    exact ⟨r2, by simp only [readSyms, proc_bind, e1, e2], u2⟩

/-! ### Headers -/

theorem le_greatestLen {l : List LenEntry} {e : LenEntry} (h : e ∈ l) : e.len.toNat ≤ greatestLen l := by
  induction l with
  | nil => simp at h
  | cons a l ih =>
    simp only [greatestLen, List.map_cons, List.foldr_cons]
    rcases List.mem_cons.mp h with rfl | h
    · exact le_max_left _ _
    · exact (ih h).trans (le_max_right _ _)

theorem greatestLen_le {l : List LenEntry} {n : Nat} (h : ∀ e ∈ l, e.len.toNat ≤ n) : greatestLen l ≤ n := by
  induction l with
  | nil => simp [greatestLen]
  | cons a l ih =>
    simp only [greatestLen, List.map_cons, List.foldr_cons]
    exact max_le (h a (by simp)) (ih fun e he => h e (by simp [he]))

theorem greatestLen_cons (a : LenEntry) (l : List LenEntry) : greatestLen (a :: l) = max a.len.toNat (greatestLen l) := rfl

/-- The run counts of the lengths from L + 1 to the greatest (30_encoding.md R102). -/
def countsFrom (L : Nat) (l : List LenEntry) : List Nat :=
  (List.range (greatestLen l - L)).map fun j => l.countP fun e => e.len.toNat = L + 1 + j

theorem countsFrom_zero (l : List LenEntry) :
    countsFrom 0 l = (List.range (greatestLen l)).map fun j => l.countP fun e => e.len.toNat = j + 1 := by
  simp [countsFrom, Nat.add_comm 1]

theorem countsFrom_succ {L : Nat} {l : List LenEntry} (h : L < greatestLen l) :
    countsFrom L l = (l.countP fun e => e.len.toNat = L + 1) :: countsFrom (L + 1) l := by
  rw [countsFrom, show greatestLen l - L = (greatestLen l - (L + 1)) + 1 by omega, List.range_succ_eq_map]
  simp only [List.map_cons, List.map_map, countsFrom, Nat.add_zero, Function.comp_def]
  congr 2
  funext j
  congr 2
  funext e
  rw [show L + 1 + (j + 1) = L + 1 + 1 + j by omega]

theorem headerLayout_eq (l : List LenEntry) :
    headerLayout l = l.length :: (l.map (fun e => e.sym.toNat) ++ countsFrom 0 l) := by
  rw [headerLayout, countsFrom_zero]

/-- The machine's run counts are those of the format (42_serializer.md R190 corner cases a and b). -/
theorem runCounts_eq (ct : List CodeEntry) : ∀ (k sum : Nat), k ≤ 511 →
    sum = ct.countP (fun e => e.code.len.toNat ≤ 511 - k) →
    runCounts k sum ct = countsFrom (511 - k) (lenEntries ct)
  | 0, sum, _, hsum => by
    have : greatestLen (lenEntries ct) ≤ 511 := greatestLen_le fun e _ => by have := e.len.isLt; omega
    simp [runCounts, countsFrom, Nat.sub_eq_zero_of_le this]
  | k + 1, sum, hk, hsum => by
    have hsplit : ct.countP (fun e => e.code.len.toNat ≤ 511 - k) = sum + ct.countP fun e => e.code.len.toNat = 511 - k := by
      rw [hsum]
      clear hsum
      obtain ⟨m, hm⟩ : ∃ m, m = 511 - (k + 1) := ⟨_, rfl⟩
      rw [← hm, show 511 - k = m + 1 by omega]
      clear hm
      induction ct with
      | nil => rfl
      | cons a ct ih =>
        simp only [List.countP_cons, ih, decide_eq_true_eq]
        split_ifs <;> omega
    by_cases hlt : sum < ct.length
    · have hg : 511 - (k + 1) < greatestLen (lenEntries ct) := by
        by_contra hle
        have : ct.countP (fun e => e.code.len.toNat ≤ 511 - (k + 1)) = ct.length := by
          rw [List.countP_eq_length]
          intro e he
          have := le_greatestLen (l := lenEntries ct) (e := ⟨e.sym, e.code.len⟩) (List.mem_map.mpr ⟨e, he, rfl⟩)
          simp only [decide_eq_true_eq]
          dsimp only at this
          omega
        omega
      rw [countsFrom_succ hg, runCounts, if_pos hlt]
      show _ :: runCounts k (sum + ct.countP fun e => e.code.len.toNat = 511 - k) ct = _
      have hc : (lenEntries ct).countP (fun e => e.len.toNat = 511 - (k + 1) + 1) =
          ct.countP fun e => e.code.len.toNat = 511 - k := by
        rw [lenEntries, List.countP_map]
        rw [show 511 - (k + 1) + 1 = 511 - k by omega]; rfl
      rw [hc, runCounts_eq ct k _ (by omega) hsplit.symm, show 511 - (k + 1) + 1 = 511 - k by omega]
    · have hg : greatestLen (lenEntries ct) ≤ 511 - (k + 1) := by
        refine greatestLen_le fun e he => ?_
        obtain ⟨c, hc, rfl⟩ := List.mem_map.mp he
        have hle := List.countP_le_length (p := fun e : CodeEntry => decide (e.code.len.toNat ≤ 511 - (k + 1))) (l := ct)
        have heq : ct.countP (fun e => e.code.len.toNat ≤ 511 - (k + 1)) = ct.length := by omega
        simpa using (List.countP_eq_length.mp heq) c hc
      rw [runCounts, if_neg hlt, countsFrom, Nat.sub_eq_zero_of_le hg]
      rfl

/-- The bits HDRWR writes are those of the format (R190, 30_encoding.md R100, R101). -/
theorem headerFields_bits {ct : List CodeEntry} (h : ∀ e ∈ ct, e.code.len ≠ 0) :
    (headerFields ct).flatMap (fun v => fieldBits v 9) = headerBits (lenEntries ct) := by
  have h0 : (0 : Nat) = ct.countP (fun e => e.code.len.toNat ≤ 511 - 511) := by
    symm
    rw [List.countP_eq_zero]
    intro e he hle
    have hle : e.code.len.toNat ≤ 0 := by simpa using hle
    exact h e he (BitVec.eq_of_toNat_eq (Nat.le_zero.mp hle))
  rw [headerFields, runCounts_eq ct 511 0 le_rfl h0, headerBits, headerLayout_eq]
  simp [lenEntries, List.flatMap_map, Function.comp_def, List.map_map]

theorem foldl_bswWrite (vs : List (BitVec 9)) (w : Bsw) :
    vs.foldl (fun w v => bswWrite v 9 w) w = appendBits (vs.flatMap fun v => fieldBits v 9) w := by
  induction vs generalizing w with
  | nil => rfl
  | cons v vs ih => rw [List.foldl_cons, ih, List.flatMap_cons, appendBits_append]; rfl

/-- `SER.WriteHeader()` on a table without a length 0 (R190). -/
theorem writeHeader_ok {s : State} (h : ∀ e ∈ s.ct, e.code.len ≠ 0) :
    writeHeader s = .ok () { s with bsw := appendBits (headerBits (lenEntries s.ct)) s.bsw } := by
  have hany : s.ct.any (fun e => e.code.len == 0) = false := by
    simp only [List.any_eq_false, beq_iff_eq]
    exact h
  simp only [writeHeader, hany, Bool.false_eq_true, if_false, foldl_bswWrite, headerFields_bits h]

/-- Reading the run counts that are still to come gives the entries that are still to come (R192, 30_encoding.md R103). -/
theorem readCounts_counts {rest : List Bool} {m : Nat} : ∀ (k : Nat) {l : List LenEntry} {r : Bsr}, k ≤ Config.maxLen →
    l.length ≤ Config.llMax → l.Pairwise (fun a b => a.len.toNat ≤ b.len.toNat) →
    (∀ e ∈ l, Config.maxLen - k < e.len.toNat ∧ e.len.toNat ≤ Config.maxLen) →
    r.before ((countsFrom (Config.maxLen - k) l).map (BitVec.ofNat 9)) rest m →
    ∃ r', readCounts k (l.map LenEntry.sym) r = .ok l r' ∧ r'.before [] rest m ∧ r'.src <:+ r.src
  | k, [], r, _, _, _, _, h => by
    refine ⟨r, ?_, by simpa [countsFrom, greatestLen] using h, List.suffix_refl _⟩
    cases k <;> rfl
  | 0, a :: l, r, _, _, _, hl, _ => by
    obtain ⟨h1, h2⟩ := hl a (by simp)
    omega
  | k + 1, a :: l, r, hk, hmax, hs, hl, h => by
    have hg : Config.maxLen - (k + 1) < greatestLen (a :: l) := lt_of_lt_of_le (hl a (by simp)).1 (le_greatestLen (by simp))
    rw [countsFrom_succ hg, List.map_cons] at h
    obtain ⟨r1, e1, b1, s1⟩ := bsrRead_before h
    have hL : Config.maxLen - (k + 1) + 1 = Config.maxLen - k := by omega
    rw [hL] at b1 e1
    -- the entries of the length at hand stand first
    have hpart : ∀ (m : List LenEntry), m.Pairwise (fun a b => a.len.toNat ≤ b.len.toNat) →
        (∀ e ∈ m, Config.maxLen - k ≤ e.len.toNat) →
        ∃ m', m = m.take (m.countP fun e => e.len.toNat = Config.maxLen - k) ++ m' ∧
          m.drop (m.countP fun e => e.len.toNat = Config.maxLen - k) = m' ∧
          (∀ e ∈ m.take (m.countP fun e => e.len.toNat = Config.maxLen - k), e.len.toNat = Config.maxLen - k) ∧
          (∀ e ∈ m', Config.maxLen - k < e.len.toNat) := by
      intro m
      induction m with
      | nil => intro _ _; exact ⟨[], by simp⟩
      | cons b m ih =>
        intro hs hl
        obtain ⟨hb, hs'⟩ := List.pairwise_cons.mp hs
        by_cases hbe : b.len.toNat = Config.maxLen - k
        · obtain ⟨m', e1, e2, e3, e4⟩ := ih hs' fun e he => hl e (by simp [he])
          refine ⟨m', ?_, ?_, ?_, e4⟩
          · simp only [List.countP_cons, hbe, decide_true, if_true, List.take_succ_cons, List.cons_append]
            exact congrArg _ e1
          · simpa [List.countP_cons, hbe] using e2
          · simp only [List.countP_cons, hbe, decide_true, if_true, List.take_succ_cons, List.mem_cons]
            rintro e (rfl | he)
            · exact hbe
            · exact e3 e he
        · have hgt : ∀ e ∈ b :: m, Config.maxLen - k < e.len.toNat := by
            have h0 := hl b (by simp)
            rintro e he
            rcases List.mem_cons.mp he with rfl | he
            · omega
            · have := hb e he; omega
          have hz : (b :: m).countP (fun e => e.len.toNat = Config.maxLen - k) = 0 := by
            rw [List.countP_eq_zero]
            intro e he
            have := hgt e he
            simp only [decide_eq_true_eq]; omega
          exact ⟨b :: m, by simp [hz], by simp [hz], by simp [hz], hgt⟩
    obtain ⟨m', p1, p2, p3, p4⟩ := hpart (a :: l) hs fun e he => by have := (hl e he).1; omega
    have hcle := List.countP_le_length (p := fun e : LenEntry => decide (e.len.toNat = Config.maxLen - k)) (l := a :: l)
    generalize hc : (a :: l).countP (fun e => e.len.toNat = Config.maxLen - k) = c at *
    have hsuf : m' <:+ a :: l := p2 ▸ List.drop_suffix _ _
    have hv : ((BitVec.ofNat 9 c).setWidth 64).toNat = c := by
      have h511 : c ≤ 511 := hcle.trans hmax
      rw [field_toNat, BitVec.toNat_ofNat]
      exact Nat.mod_eq_of_lt (by omega)
    have hcf : countsFrom (Config.maxLen - k) (a :: l) = countsFrom (Config.maxLen - k) m' := by
      have hcount : ∀ j, (a :: l).countP (fun e => e.len.toNat = Config.maxLen - k + 1 + j) =
          m'.countP fun e => e.len.toNat = Config.maxLen - k + 1 + j := by
        intro j
        conv_lhs => rw [p1]
        rw [List.countP_append]
        have : ((a :: l).take c).countP (fun e => e.len.toNat = Config.maxLen - k + 1 + j) = 0 := by
          rw [List.countP_eq_zero]
          intro e he
          have := p3 e he
          simp only [decide_eq_true_eq]; omega
        omega
      have hgr : greatestLen (a :: l) - (Config.maxLen - k) = greatestLen m' - (Config.maxLen - k) := by
        have h1 : greatestLen m' ≤ greatestLen (a :: l) := greatestLen_le fun e he => le_greatestLen (hsuf.subset he)
        have h2 : greatestLen (a :: l) ≤ max (Config.maxLen - k) (greatestLen m') := by
          refine greatestLen_le fun e he => ?_
          rw [p1] at he
          rcases List.mem_append.mp he with he | he
          · exact (p3 e he).le.trans (le_max_left _ _)
          · exact (le_greatestLen he).trans (le_max_right _ _)
        omega
      simp only [countsFrom, hgr, hcount]
    rw [hcf] at b1
    obtain ⟨r2, e2, b2, s2⟩ := readCounts_counts k (l := m') (by omega) (hsuf.length_le.trans hmax)
      (hs.sublist hsuf.sublist) (fun e he => ⟨p4 e he, (hl e (hsuf.subset he)).2⟩) b1
    refine ⟨r2, ?_, b2, s2.trans s1⟩
    have hdrop : ((a :: l).map LenEntry.sym).drop c = m'.map LenEntry.sym := by rw [← List.map_drop, p2]
    have htake : (((a :: l).map LenEntry.sym).take c).map (fun z => (⟨z, BitVec.ofNat 9 (Config.maxLen - k)⟩ : LenEntry)) =
        (a :: l).take c := by
      rw [← List.map_take, List.map_map]
      conv_rhs => rw [← List.map_id ((a :: l).take c)]
      refine List.map_congr_left fun e he => ?_
      have := p3 e he
      simp [← this]
    have hnot : ¬ ((a :: l).map LenEntry.sym).length < c := by simpa using Nat.not_lt.mpr hcle
    rw [List.map_cons] at hdrop htake hnot ⊢
    rw [← hv] at hnot
    simp only [readCounts, proc_bind, e1]
    rw [if_neg hnot, hv]
    simp only [hdrop, proc_bind, e2, proc_pure, htake]
    rw [← p1]

/-- The run counts of a header until their sum would pass or miss the symbol count (R192): whatever error the rest of them meets. -/
theorem readCounts_run {vs : List (BitVec 9)} {rest : List Bool} {m : Nat} : ∀ {cs : List (BitVec 9)} {k : Nat} {ys : List Sym} {r : Bsr},
    (cs.map BitVec.toNat).sum < ys.length → cs.length ≤ k → r.before (cs ++ vs) rest m →
    ∃ r', r'.before vs rest m ∧ ∀ e t, readCounts (k - cs.length) (ys.drop (cs.map BitVec.toNat).sum) r' = .error e t →
      readCounts k ys r = .error e t
  | [], k, ys, r, _, _, h => ⟨r, h, fun e t he => by simpa using he⟩
  | _ :: _, 0, _, _, _, hk, _ => absurd hk (by simp)
  | _ :: _, _ + 1, [], _, hs, _, _ => absurd hs (by simp)
  | c :: cs, k + 1, y :: ys, r, hs, hk, h => by
    simp only [List.map_cons, List.sum_cons] at hs
    obtain ⟨r1, e1, b1, -⟩ := bsrRead_before h
    obtain ⟨r2, b2, h2⟩ := readCounts_run (ys := (y :: ys).drop c.toNat) (by rw [List.length_drop]; omega) (by simpa using hk) b1
    refine ⟨r2, b2, fun e t he => ?_⟩
    have he := h2 e t (by simpa [List.drop_drop] using he)
    simp only [readCounts, proc_bind, e1]
    rw [field_toNat, if_neg (by omega)]
    simp only [proc_bind, he]

/-- The first field of a header is its symbol count (R192). -/
theorem readHeaderList_count {n : BitVec 9} {vs : List (BitVec 9)} {rest : List Bool} {m : Nat} {r : Bsr} (h : r.before (n :: vs) rest m) :
    ∃ r', r'.before vs rest m ∧ r'.src <:+ r.src ∧
      readHeaderList r = (do let ys ← readSyms n.toNat; readCounts Config.maxLen ys : BsrProc (List LenEntry)) r' := by
  obtain ⟨r1, e1, b1, s1⟩ := bsrRead_before h
  exact ⟨r1, b1, s1, by simp only [readHeaderList, proc_bind, e1, field_toNat]⟩

/-- `SER.ReadHeader()` on a header, complete or completed by zeros past the end of the stream (R192, R193). -/
theorem readHeaderList_before {l : List LenEntry} {r : Bsr} {rest : List Bool} {m : Nat} (hl : usableList l)
    (h : r.before ((headerLayout l).map (BitVec.ofNat 9)) rest m) :
    ∃ r', readHeaderList r = .ok l r' ∧ r'.before [] rest m ∧ r'.src <:+ r.src := by
  obtain ⟨hmax, hlen, hs⟩ := hl
  rw [headerLayout_eq, List.map_cons, List.map_append] at h
  obtain ⟨r1, b1, s1, e1⟩ := readHeaderList_count h
  have hn : (BitVec.ofNat 9 l.length).toNat = (l.map LenEntry.sym).length := by
    have : l.length ≤ 511 := hmax
    simp only [BitVec.toNat_ofNat, List.length_map]
    omega
  have hsyms : (l.map fun e => e.sym.toNat).map (BitVec.ofNat 9) = l.map LenEntry.sym := by simp [Function.comp_def]
  rw [hsyms] at b1
  obtain ⟨r2, e2, b2, s2⟩ := readSyms_before b1
  obtain ⟨r3, e3, b3, s3⟩ := readCounts_counts Config.maxLen (l := l) le_rfl hmax hs
    (fun e he => by have := hlen e he; omega) (by simpa using b2)
  exact ⟨r3, by simp only [e1, hn, proc_bind, e2, e3], b3, s3.trans (s2.trans s1)⟩

theorem readHeaderList_ok {l : List LenEntry} {r : Bsr} {rest : List Bool} (hl : usableList l) (h : r.live)
    (hu : r.unread = headerBits l ++ rest) :
    ∃ r', readHeaderList r = .ok l r' ∧ r'.unread = rest ∧ r'.live ∧ r'.src <:+ r.src := by
  obtain ⟨r', e, b, hs⟩ := readHeaderList_before hl (Bsr.before_real h (by simpa [headerBits, List.flatMap_map] using hu))
  obtain ⟨h1, h2⟩ := b.2.1 rfl
  exact ⟨r', e, h1, ⟨h2, b.1⟩, hs⟩

/-- A stream that ends among a header's symbols (R192 corner case e). -/
theorem readHeaderList_short {n : BitVec 9} {ys : List (BitVec 9)} {rest : List Bool} {m : Nat} {r : Bsr} (hm : 0 < m)
    (hn : ys.length < n.toNat) (h : r.before (n :: ys) rest m) :
    ∃ r', readHeaderList r = .error .endOfStream r' ∧ r'.unread = rest := by
  obtain ⟨r1, b1, -, e1⟩ := readHeaderList_count h
  obtain ⟨r2, e2, u2⟩ := readSyms_short hm b1 hn
  exact ⟨r2, by simp only [e1, proc_bind, e2], u2⟩

/-- What a header meets whose counts cs sum below its symbol count (R192): FormatError at a next count that passes it,
CapacityError after MAXLEN counts, EndOfStreamError when the stream has ended. -/
theorem readHeaderList_counts {n : BitVec 9} {ys cs vs : List (BitVec 9)} {rest : List Bool} {m : Nat} {r : Bsr} (hn : ys.length = n.toNat)
    (hs : (cs.map BitVec.toNat).sum < n.toNat) (hk : cs.length ≤ Config.maxLen) (h : r.before (n :: (ys ++ cs ++ vs)) rest m) :
    (∀ c, vs = [c] → cs.length < Config.maxLen → n.toNat < (cs.map BitVec.toNat).sum + c.toNat →
      ∃ r', readHeaderList r = .error .format r' ∧ r'.unread = rest) ∧
    (vs = [] → cs.length = Config.maxLen → ∃ r', readHeaderList r = .error .capacity r' ∧ r'.unread = rest) ∧
    (vs = [] → cs.length < Config.maxLen → 0 < m → ∃ r', readHeaderList r = .error .endOfStream r' ∧ r'.unread = rest) := by
  obtain ⟨r1, b1, -, e1⟩ := readHeaderList_count h
  rw [List.append_assoc] at b1
  obtain ⟨r2, e2, b2, -⟩ := readSyms_before b1
  obtain ⟨r3, b3, h3⟩ := readCounts_run (ys := ys) (k := Config.maxLen) (by omega) hk b2
  have hlift : ∀ {e t}, readCounts (Config.maxLen - cs.length) (ys.drop (cs.map BitVec.toNat).sum) r3 = .error e t →
      readHeaderList r = .error e t := fun he => by simp only [e1, ← hn, proc_bind, e2, h3 _ _ he]
  obtain ⟨z, zs, hz⟩ := List.exists_cons_of_ne_nil (l := ys.drop (cs.map BitVec.toNat).sum)
    (List.ne_nil_of_length_pos (by rw [List.length_drop]; omega))
  have hzl := congrArg List.length hz
  rw [List.length_drop] at hzl
  rw [hz] at hlift
  refine ⟨?_, ?_, ?_⟩
  · rintro c rfl hc hover
    obtain ⟨r4, e4, b4, -⟩ := bsrRead_before b3
    obtain ⟨k, hk⟩ := Nat.exists_eq_add_one.mpr (Nat.sub_pos_of_lt hc)
    refine ⟨r4, hlift ?_, (b4.2.1 rfl).1⟩
    rw [hk]
    simp only [readCounts, proc_bind, e4]
    rw [field_toNat, if_pos (by omega)]; rfl
  · rintro rfl hc
    exact ⟨r3, hlift (by rw [hc, Nat.sub_self]; rfl), (b3.2.1 rfl).1⟩
  · rintro rfl hc hm
    obtain ⟨e4, u4⟩ := bsrRead_behind (n := 9) b3 hm
    obtain ⟨k, hk⟩ := Nat.exists_eq_add_one.mpr (Nat.sub_pos_of_lt hc)
    exact ⟨r3, hlift (by rw [hk]; simp only [readCounts, proc_bind, e4]), u4⟩

/-! ### Codes -/

theorem emitCode_apply (c : Code) (s : State) : emitCode c s = .ok () { s with bsw := appendBits c.bits s.bsw } := rfl

theorem encSym_ok {s : State} {y : Sym} {c : Code} (h : codeOf s.ct y = some c) :
    encSym y s = .ok () { s with bsw := appendBits c.bits s.bsw } := by
  simp [encSym, h, emitCode_apply]

/-! ### One decoded symbol -/

/-- One round of the loop (R198): the bit that was read decides. -/
theorem decSymLoop_succ {k : Nat} {s : State} {v : BitVec 64} {r : Bsr} (h : bsrRead 1 s.bsr = .ok v r) :
    decSymLoop (k + 1) s =
      match s.dt.sub (walkStart s ++ [v.getLsbD 0]) with
      | .absent => .error .corruptTree { s with bsr := r }
      | .leaf y => .ok y { s with cur := walkStart s ++ [v.getLsbD 0], bsr := r }
      | .inner _ _ => decSymLoop k { s with cur := walkStart s ++ [v.getLsbD 0], bsr := r } := by
  have hws : walkStart { s with bsr := r } = walkStart s := rfl
  simp only [decSymLoop, proc_bind, liftBsr_ok h, htWalk, hws]
  cases s.dt.sub (walkStart s ++ [v.getLsbD 0]) <;> rfl

/-- The read comes first in each round (R198). -/
theorem decSymLoop_eos {s : State} (k : Nat) (h : s.bsr.eos = true) : decSymLoop k s = .error .endOfStream s := by
  have e : bsrRead 1 s.bsr = .error .endOfStream s.bsr := by rw [bsrRead_eq, h]; rfl
  cases k with
  | zero => rfl
  | succ k => simp only [decSymLoop, proc_bind, liftBsr_error e]

theorem bsrRead_one {r : Bsr} {rest : List Bool} (h : r.live) (hu : r.unread = rest) :
    ∃ v r', bsrRead 1 r = .ok v r' ∧ v.getLsbD 0 = rest.headD false ∧ r'.unread = rest.tail ∧ r'.eos = rest.isEmpty ∧
      r'.rcnt.toNat ≤ 8 := by
  obtain ⟨h1, h2, h3, h4, -⟩ := fetchBits_spec 1 r h.2
  refine ⟨_, _, by rw [bsrRead_eq, h.1]; rfl, ?_, by rw [h2, hu, List.drop_one], ?_, h4⟩
  · rw [h1, hu]
    rcases rest with _ | ⟨b, rest⟩
    · rfl
    · simp only [List.cons_append, List.take_succ_cons, List.take_zero]
      cases b <;> rfl
  · rw [h3, h.1, hu]
    cases rest <;> simp

theorem walkStart_inner {s : State} {l r : DTree} (h : s.dt.sub s.cur = .inner l r) : walkStart s = s.cur := by
  simp only [walkStart, h]

/-- Walking on to an internal node (R198): the rounds that are left start there. -/
theorem decSymLoop_inner : ∀ (p : List Bool) (k : Nat) (s : State) (rest : List Bool), p.length ≤ k → s.bsr.live →
    (∃ l r, s.dt.sub (walkStart s ++ p) = .inner l r) → s.bsr.unread = p ++ rest →
    ∃ c r, decSymLoop k s = decSymLoop (k - p.length) { s with cur := c, bsr := r } ∧
      walkStart { s with cur := c, bsr := r } = walkStart s ++ p ∧ r.unread = rest ∧ r.live
  | [], k, s, rest, _, hlive, _, hu => ⟨s.cur, s.bsr, rfl, by simp, hu, hlive⟩
  | b :: p, 0, _, _, hk, _, _, _ => absurd hk (by simp)
  | b :: p, k + 1, s, rest, hk, hlive, hin, hu => by
    obtain ⟨v, r1, e1, hb, u1, he, h8⟩ := bsrRead_one hlive hu
    simp only [List.cons_append, List.headD_cons, List.tail_cons, List.isEmpty_cons] at hb u1 he
    obtain ⟨l, r, hfirst⟩ : ∃ l r, s.dt.sub (walkStart s ++ [b]) = .inner l r := by
      cases p with
      | nil => exact hin
      | cons c p =>
        obtain ⟨l, r, h⟩ := hin
        exact sub_inner_of_longer (b := c) (q := p) (by rw [List.append_assoc, List.singleton_append, h]; simp)
    have hws : walkStart { s with cur := walkStart s ++ [b], bsr := r1 } = walkStart s ++ [b] := walkStart_inner hfirst
    obtain ⟨c, r2, e2, w2, u2, l2⟩ := decSymLoop_inner p k { s with cur := walkStart s ++ [b], bsr := r1 } rest (by simpa using hk)
      ⟨he, h8⟩ (by rw [hws]; simpa using hin) u1
    refine ⟨c, r2, ?_, ?_, u2, l2⟩
    · rw [decSymLoop_succ e1, hb, hfirst]
      simpa using e2
    · rw [hws] at w2
      simpa using w2

theorem path_le_budget {r : Bsr} {p rest : List Bool} (h8 : r.rcnt.toNat ≤ 8) (hu : r.unread = p ++ rest) :
    p.length ≤ bitBudget r := by
  have h1 := unread_length h8
  rw [hu, List.length_append] at h1
  unfold bitBudget
  omega

/-- `SER.DecSym()` from an internal node p bits below the walk's start (R198): the next bit, 0 past the end of the stream, leads to a
leaf or out of the tree, or, past the end, to an internal node. -/
theorem decSym_bit {s : State} {p rest : List Bool} (hlive : s.bsr.live) (hin : ∃ l r, s.dt.sub (walkStart s ++ p) = .inner l r)
    (hu : s.bsr.unread = p ++ rest) :
    ∃ c r, r.unread = rest.tail ∧ r.eos = rest.isEmpty ∧ r.rcnt.toNat ≤ 8 ∧
      (∀ y, s.dt.sub (walkStart s ++ p ++ [rest.headD false]) = .leaf y →
        decSym s = .ok y { s with cur := walkStart s ++ p ++ [rest.headD false], bsr := r }) ∧
      (s.dt.sub (walkStart s ++ p ++ [rest.headD false]) = .absent → decSym s = .error .corruptTree { s with cur := c, bsr := r }) ∧
      (rest = [] → (∃ a b, s.dt.sub (walkStart s ++ p ++ [false]) = .inner a b) →
        decSym s = .error .endOfStream { s with cur := walkStart s ++ p ++ [false], bsr := r }) := by
  have hbud := path_le_budget hlive.2 hu
  obtain ⟨c, r1, e1, w1, u1, l1⟩ := decSymLoop_inner p (bitBudget s.bsr + 1) s rest (by omega) hlive hin hu
  obtain ⟨v, r, e2, hb, u2, he, h8⟩ := bsrRead_one l1 u1
  obtain ⟨k, hk⟩ := Nat.exists_eq_add_one.mpr (show 0 < bitBudget s.bsr + 1 - p.length by omega)
  have hloop : decSym s = _ := e1.trans ((congrArg (decSymLoop · { s with cur := c, bsr := r1 }) hk).trans (decSymLoop_succ e2))
  simp only [w1, hb] at hloop
  refine ⟨c, r, u2, he, h8, fun y hy => ?_, fun ha => ?_, ?_⟩
  · rw [hloop, hy]
  · rw [hloop, ha]
  · rintro rfl ⟨a, b, hi⟩
    have hi' : s.dt.sub (walkStart s ++ p ++ [List.headD [] false]) = .inner a b := hi
    rw [hloop, hi']
    exact decSymLoop_eos k he

/-- `SER.DecSym()` on a path to a leaf (R198). -/
theorem decSym_path {s : State} {p rest : List Bool} {y : Sym} (hp : p ≠ []) (hlive : s.bsr.live)
    (hsub : s.dt.sub (walkStart s ++ p) = .leaf y) (hu : s.bsr.unread = p ++ rest) :
    ∃ r, decSym s = .ok y { s with cur := walkStart s ++ p, bsr := r } ∧ r.unread = rest ∧ r.live := by
  obtain ⟨q, b, rfl⟩ := (List.eq_nil_or_concat p).resolve_left hp
  rw [List.concat_eq_append] at *
  rw [← List.append_assoc] at hsub ⊢
  obtain ⟨-, r, hr, he, h8, hleaf, -⟩ := decSym_bit (p := q) (rest := b :: rest) hlive
    (sub_inner_of_longer (b := b) (q := []) (by rw [hsub]; simp)) (by simpa using hu)
  exact ⟨r, hleaf y hsub, hr, he, h8⟩

end Sys2Proof.Machine
end

