-- ==== Sys2Proof/Laws/State.lean ====
section
/-! SUPPORT. The fields of a state after each named update of it, and of a reset and a trapped state. -/

namespace Sys2Proof.Machine

/-! ### FREQ[y] <- c -/

@[simp] theorem setFreq_wdata (s : State) (y : Sym) (c : Count) : (s.setFreq y c).wdata = s.wdata := rfl
@[simp] theorem setFreq_rdata (s : State) (y : Sym) (c : Count) : (s.setFreq y c).rdata = s.rdata := rfl
@[simp] theorem setFreq_rsym (s : State) (y : Sym) (c : Count) : (s.setFreq y c).rsym = s.rsym := rfl
@[simp] theorem setFreq_rlen (s : State) (y : Sym) (c : Count) : (s.setFreq y c).rlen = s.rlen := rfl
@[simp] theorem setFreq_rcode (s : State) (y : Sym) (c : Count) : (s.setFreq y c).rcode = s.rcode := rfl
@[simp] theorem setFreq_fault (s : State) (y : Sym) (c : Count) : (s.setFreq y c).fault = s.fault := rfl
@[simp] theorem setFreq_err (s : State) (y : Sym) (c : Count) : (s.setFreq y c).err = s.err := rfl
@[simp] theorem setFreq_hit (s : State) (y : Sym) (c : Count) : (s.setFreq y c).hit = s.hit := rfl
@[simp] theorem setFreq_more (s : State) (y : Sym) (c : Count) : (s.setFreq y c).more = s.more := rfl
@[simp] theorem setFreq_written (s : State) (y : Sym) (c : Count) : (s.setFreq y c).written = s.written := rfl
@[simp] theorem setFreq_bsr (s : State) (y : Sym) (c : Count) : (s.setFreq y c).bsr = s.bsr := rfl
@[simp] theorem setFreq_bsw (s : State) (y : Sym) (c : Count) : (s.setFreq y c).bsw = s.bsw := rfl
@[simp] theorem setFreq_freq (s : State) (y : Sym) (c : Count) : (s.setFreq y c).freq = s.freq.setIfInBounds y.toNat c := rfl
@[simp] theorem setFreq_ct (s : State) (y : Sym) (c : Count) : (s.setFreq y c).ct = s.ct := rfl
@[simp] theorem setFreq_ll (s : State) (y : Sym) (c : Count) : (s.setFreq y c).ll = s.ll := rfl
@[simp] theorem setFreq_dt (s : State) (y : Sym) (c : Count) : (s.setFreq y c).dt = s.dt := rfl
@[simp] theorem setFreq_cur (s : State) (y : Sym) (c : Count) : (s.setFreq y c).cur = s.cur := rfl
@[simp] theorem setFreq_pomf (s : State) (y : Sym) (c : Count) : (s.setFreq y c).pomf = s.pomf := rfl
@[simp] theorem setFreq_paend (s : State) (y : Sym) (c : Count) : (s.setFreq y c).paend = s.paend := rfl
@[simp] theorem setFreq_namein (s : State) (y : Sym) (c : Count) : (s.setFreq y c).namein = s.namein := rfl
@[simp] theorem setFreq_datain (s : State) (y : Sym) (c : Count) : (s.setFreq y c).datain = s.datain := rfl
@[simp] theorem setFreq_out (s : State) (y : Sym) (c : Count) : (s.setFreq y c).out = s.out := rfl
@[simp] theorem setFreq_script (s : State) (y : Sym) (c : Count) : (s.setFreq y c).script = s.script := rfl
@[simp] theorem setFreq_reads (s : State) (y : Sym) (c : Count) : (s.setFreq y c).reads = s.reads := rfl
@[simp] theorem setFreq_freeIdx (s : State) (y : Sym) (c : Count) : (s.setFreq y c).freeIdx = s.freeIdx := rfl

/-! ### A value read by the host -/

@[simp] theorem recordRead_wdata (off : Nat) (v : BitVec 64) (s : State) : (recordRead off v s).wdata = s.wdata := rfl
@[simp] theorem recordRead_rdata (off : Nat) (v : BitVec 64) (s : State) : (recordRead off v s).rdata = s.rdata := rfl
@[simp] theorem recordRead_rsym (off : Nat) (v : BitVec 64) (s : State) : (recordRead off v s).rsym = s.rsym := rfl
@[simp] theorem recordRead_rlen (off : Nat) (v : BitVec 64) (s : State) : (recordRead off v s).rlen = s.rlen := rfl
@[simp] theorem recordRead_rcode (off : Nat) (v : BitVec 64) (s : State) : (recordRead off v s).rcode = s.rcode := rfl
@[simp] theorem recordRead_fault (off : Nat) (v : BitVec 64) (s : State) : (recordRead off v s).fault = s.fault := rfl
@[simp] theorem recordRead_err (off : Nat) (v : BitVec 64) (s : State) : (recordRead off v s).err = s.err := rfl
@[simp] theorem recordRead_hit (off : Nat) (v : BitVec 64) (s : State) : (recordRead off v s).hit = s.hit := rfl
@[simp] theorem recordRead_more (off : Nat) (v : BitVec 64) (s : State) : (recordRead off v s).more = s.more := rfl
@[simp] theorem recordRead_written (off : Nat) (v : BitVec 64) (s : State) : (recordRead off v s).written = s.written := rfl
@[simp] theorem recordRead_bsr (off : Nat) (v : BitVec 64) (s : State) : (recordRead off v s).bsr = s.bsr := rfl
@[simp] theorem recordRead_bsw (off : Nat) (v : BitVec 64) (s : State) : (recordRead off v s).bsw = s.bsw := rfl
@[simp] theorem recordRead_freq (off : Nat) (v : BitVec 64) (s : State) : (recordRead off v s).freq = s.freq := rfl
@[simp] theorem recordRead_ct (off : Nat) (v : BitVec 64) (s : State) : (recordRead off v s).ct = s.ct := rfl
@[simp] theorem recordRead_ll (off : Nat) (v : BitVec 64) (s : State) : (recordRead off v s).ll = s.ll := rfl
@[simp] theorem recordRead_dt (off : Nat) (v : BitVec 64) (s : State) : (recordRead off v s).dt = s.dt := rfl
@[simp] theorem recordRead_cur (off : Nat) (v : BitVec 64) (s : State) : (recordRead off v s).cur = s.cur := rfl
@[simp] theorem recordRead_pomf (off : Nat) (v : BitVec 64) (s : State) : (recordRead off v s).pomf = s.pomf := rfl
@[simp] theorem recordRead_paend (off : Nat) (v : BitVec 64) (s : State) : (recordRead off v s).paend = s.paend := rfl
@[simp] theorem recordRead_namein (off : Nat) (v : BitVec 64) (s : State) : (recordRead off v s).namein = s.namein := rfl
@[simp] theorem recordRead_datain (off : Nat) (v : BitVec 64) (s : State) : (recordRead off v s).datain = s.datain := rfl
@[simp] theorem recordRead_out (off : Nat) (v : BitVec 64) (s : State) : (recordRead off v s).out = s.out := rfl
@[simp] theorem recordRead_script (off : Nat) (v : BitVec 64) (s : State) : (recordRead off v s).script = s.script := rfl
@[simp] theorem recordRead_reads (off : Nat) (v : BitVec 64) (s : State) : (recordRead off v s).reads = s.reads ++ [⟨off, v⟩] := rfl
@[simp] theorem recordRead_freeIdx (off : Nat) (v : BitVec 64) (s : State) : (recordRead off v s).freeIdx = s.freeIdx := rfl

/-! ### The next action of the host -/

@[simp] theorem withFetchWord_wdata (s : State) (nbits w : Nat) : (s.withFetchWord nbits w).wdata = s.wdata := rfl
@[simp] theorem withFetchWord_rdata (s : State) (nbits w : Nat) : (s.withFetchWord nbits w).rdata = s.rdata := rfl
@[simp] theorem withFetchWord_rsym (s : State) (nbits w : Nat) : (s.withFetchWord nbits w).rsym = s.rsym := rfl
@[simp] theorem withFetchWord_rlen (s : State) (nbits w : Nat) : (s.withFetchWord nbits w).rlen = s.rlen := rfl
@[simp] theorem withFetchWord_rcode (s : State) (nbits w : Nat) : (s.withFetchWord nbits w).rcode = s.rcode := rfl
@[simp] theorem withFetchWord_fault (s : State) (nbits w : Nat) : (s.withFetchWord nbits w).fault = s.fault := rfl
@[simp] theorem withFetchWord_err (s : State) (nbits w : Nat) : (s.withFetchWord nbits w).err = s.err := rfl
@[simp] theorem withFetchWord_hit (s : State) (nbits w : Nat) : (s.withFetchWord nbits w).hit = s.hit := rfl
@[simp] theorem withFetchWord_more (s : State) (nbits w : Nat) : (s.withFetchWord nbits w).more = s.more := rfl
@[simp] theorem withFetchWord_written (s : State) (nbits w : Nat) : (s.withFetchWord nbits w).written = s.written := rfl
@[simp] theorem withFetchWord_bsr (s : State) (nbits w : Nat) : (s.withFetchWord nbits w).bsr = s.bsr := rfl
@[simp] theorem withFetchWord_bsw (s : State) (nbits w : Nat) : (s.withFetchWord nbits w).bsw = s.bsw := rfl
@[simp] theorem withFetchWord_freq (s : State) (nbits w : Nat) : (s.withFetchWord nbits w).freq = s.freq := rfl
@[simp] theorem withFetchWord_ct (s : State) (nbits w : Nat) : (s.withFetchWord nbits w).ct = s.ct := rfl
@[simp] theorem withFetchWord_ll (s : State) (nbits w : Nat) : (s.withFetchWord nbits w).ll = s.ll := rfl
@[simp] theorem withFetchWord_dt (s : State) (nbits w : Nat) : (s.withFetchWord nbits w).dt = s.dt := rfl
@[simp] theorem withFetchWord_cur (s : State) (nbits w : Nat) : (s.withFetchWord nbits w).cur = s.cur := rfl
@[simp] theorem withFetchWord_pomf (s : State) (nbits w : Nat) : (s.withFetchWord nbits w).pomf = s.pomf := rfl
@[simp] theorem withFetchWord_paend (s : State) (nbits w : Nat) : (s.withFetchWord nbits w).paend = s.paend := rfl
@[simp] theorem withFetchWord_namein (s : State) (nbits w : Nat) : (s.withFetchWord nbits w).namein = s.namein := rfl
@[simp] theorem withFetchWord_datain (s : State) (nbits w : Nat) : (s.withFetchWord nbits w).datain = s.datain := rfl
@[simp] theorem withFetchWord_out (s : State) (nbits w : Nat) : (s.withFetchWord nbits w).out = s.out := rfl
@[simp] theorem withFetchWord_script (s : State) (nbits w : Nat) : (s.withFetchWord nbits w).script = HostAction.issue (BitVec.ofNat 32 (w % 2 ^ nbits)) :: s.script := rfl
@[simp] theorem withFetchWord_reads (s : State) (nbits w : Nat) : (s.withFetchWord nbits w).reads = s.reads := rfl
@[simp] theorem withFetchWord_freeIdx (s : State) (nbits w : Nat) : (s.withFetchWord nbits w).freeIdx = s.freeIdx := rfl

/-! ### Reset -/

@[simp] theorem resetState_wdata (s : State) : (resetState s).wdata = State.reset.wdata := rfl
@[simp] theorem resetState_rdata (s : State) : (resetState s).rdata = State.reset.rdata := rfl
@[simp] theorem resetState_rsym (s : State) : (resetState s).rsym = State.reset.rsym := rfl
@[simp] theorem resetState_rlen (s : State) : (resetState s).rlen = State.reset.rlen := rfl
@[simp] theorem resetState_rcode (s : State) : (resetState s).rcode = State.reset.rcode := rfl
@[simp] theorem resetState_fault (s : State) : (resetState s).fault = State.reset.fault := rfl
@[simp] theorem resetState_err (s : State) : (resetState s).err = State.reset.err := rfl
@[simp] theorem resetState_hit (s : State) : (resetState s).hit = State.reset.hit := rfl
@[simp] theorem resetState_more (s : State) : (resetState s).more = State.reset.more := rfl
@[simp] theorem resetState_written (s : State) : (resetState s).written = State.reset.written := rfl
@[simp] theorem resetState_freq (s : State) : (resetState s).freq = State.reset.freq := rfl
@[simp] theorem resetState_ct (s : State) : (resetState s).ct = State.reset.ct := rfl
@[simp] theorem resetState_ll (s : State) : (resetState s).ll = State.reset.ll := rfl
@[simp] theorem resetState_dt (s : State) : (resetState s).dt = State.reset.dt := rfl
@[simp] theorem resetState_cur (s : State) : (resetState s).cur = State.reset.cur := rfl
@[simp] theorem resetState_pomf (s : State) : (resetState s).pomf = State.reset.pomf := rfl
@[simp] theorem resetState_paend (s : State) : (resetState s).paend = State.reset.paend := rfl
@[simp] theorem resetState_namein (s : State) : (resetState s).namein = s.namein := rfl
@[simp] theorem resetState_datain (s : State) : (resetState s).datain = s.datain := rfl
@[simp] theorem resetState_out (s : State) : (resetState s).out = s.out := rfl
@[simp] theorem resetState_script (s : State) : (resetState s).script = s.script := rfl
@[simp] theorem resetState_reads (s : State) : (resetState s).reads = s.reads := rfl
@[simp] theorem resetState_freeIdx (s : State) : (resetState s).freeIdx = s.freeIdx := rfl

@[simp] theorem resetState_bsr_src (s : State) : (resetState s).bsr.src = s.bsr.src := rfl
@[simp] theorem resetState_bsr_rbuf (s : State) : (resetState s).bsr.rbuf = 0 := rfl
@[simp] theorem resetState_bsr_rcnt (s : State) : (resetState s).bsr.rcnt = 0 := rfl
@[simp] theorem resetState_bsr_eos (s : State) : (resetState s).bsr.eos = false := rfl
@[simp] theorem resetState_bsw_sink (s : State) : (resetState s).bsw.sink = s.bsw.sink := rfl
@[simp] theorem resetState_bsw_wacc (s : State) : (resetState s).bsw.wacc = 0 := rfl
@[simp] theorem resetState_bsw_wfill (s : State) : (resetState s).bsw.wfill = 0 := rfl
@[simp] theorem resetState_bsw_wclosed (s : State) : (resetState s).bsw.wclosed = false := rfl

/-! ### Trap entry: what it keeps and sets -/

@[simp] theorem trapEntry_wdata (k : ErrKind) (s : State) : (trapEntry k s).wdata = s.wdata := rfl
@[simp] theorem trapEntry_fault (k : ErrKind) (s : State) : (trapEntry k s).fault = true := rfl
@[simp] theorem trapEntry_err (k : ErrKind) (s : State) : (trapEntry k s).err = k.code := rfl
@[simp] theorem trapEntry_namein (k : ErrKind) (s : State) : (trapEntry k s).namein = s.namein := rfl
@[simp] theorem trapEntry_datain (k : ErrKind) (s : State) : (trapEntry k s).datain = s.datain := rfl
@[simp] theorem trapEntry_out (k : ErrKind) (s : State) : (trapEntry k s).out = s.out := rfl
@[simp] theorem trapEntry_script (k : ErrKind) (s : State) : (trapEntry k s).script = s.script := rfl
@[simp] theorem trapEntry_reads (k : ErrKind) (s : State) : (trapEntry k s).reads = s.reads := rfl
@[simp] theorem trapEntry_freeIdx (k : ErrKind) (s : State) : (trapEntry k s).freeIdx = s.freeIdx + 1 := rfl

@[simp] theorem trapEntry_bsr_src (k : ErrKind) (s : State) : (trapEntry k s).bsr.src = s.bsr.src := rfl
@[simp] theorem trapEntry_bsw_sink (k : ErrKind) (s : State) : (trapEntry k s).bsw.sink = s.bsw.sink := rfl

end Sys2Proof.Machine
end

