-- ==== Sys2Proof/Laws/Sequencer.lean ====
section
/-! SUPPORT. Blocks: what the sequencer's loops do on a stream of codes, and what ENCFILE emits (spec 43_sequencer.md). -/

namespace Sys2Proof.Machine

/-! ### Codes of symbol lists -/

theorem codeOf_some {t : List CodeEntry} {y : Sym} {c : Code} (h : codeOf t y = some c) : ∃ e ∈ t, e.sym = y ∧ e.code = c := by
  unfold codeOf at h
  obtain ⟨e, he, rfl⟩ := Option.map_eq_some_iff.mp h
  exact ⟨e, List.mem_of_find?_eq_some he, by simpa using List.find?_some he, rfl⟩

theorem codeOf_isSome {t : List CodeEntry} {y : Sym} (h : ∃ e ∈ t, e.sym = y) : ∃ c, codeOf t y = some c := by
  obtain ⟨e, he, hy⟩ := h
  cases hf : t.find? fun e => e.sym == y with
  | none => exact absurd hy (by simpa using (List.find?_eq_none.mp hf) e he)
  | some e' => exact ⟨e'.code, by simp [codeOf, hf]⟩

@[simp] theorem codeBits_nil (t : List CodeEntry) : codeBits t [] = some [] := rfl

theorem codeBits_cons {t : List CodeEntry} {y : Sym} {ys : List Sym} {bs : List Bool} :
    codeBits t (y :: ys) = some bs ↔ ∃ c x, codeOf t y = some c ∧ codeBits t ys = some x ∧ bs = c.bits ++ x := by
  simp only [codeBits]
  cases codeOf t y <;> cases codeBits t ys <;> simp [eq_comm]

theorem codeBits_append {t : List CodeEntry} {a b : List Sym} {bs : List Bool} :
    codeBits t (a ++ b) = some bs ↔ ∃ x y, codeBits t a = some x ∧ codeBits t b = some y ∧ bs = x ++ y := by
  induction a generalizing bs with
  | nil => simp
  | cons z a ih =>
    rw [List.cons_append, codeBits_cons]
    constructor
    · rintro ⟨c, u, hc, hu, rfl⟩
      obtain ⟨x, y, hx, hy, rfl⟩ := ih.mp hu
      exact ⟨c.bits ++ x, y, codeBits_cons.mpr ⟨c, x, hc, hx, rfl⟩, hy, by simp⟩
    · rintro ⟨u, y, hu, hy, rfl⟩
      obtain ⟨c, x, hc, hx, rfl⟩ := codeBits_cons.mp hu
      exact ⟨c, x ++ y, hc, ih.mpr ⟨x, y, hx, hy, rfl⟩, by simp⟩

theorem codeBits_isSome {t : List CodeEntry} {ys : List Sym} (h : ∀ y ∈ ys, ∃ e ∈ t, e.sym = y) : ∃ bs, codeBits t ys = some bs := by
  induction ys with
  | nil => exact ⟨[], rfl⟩
  | cons y ys ih =>
    obtain ⟨c, hc⟩ := codeOf_isSome (h y (by simp))
    obtain ⟨x, hx⟩ := ih fun z hz => h z (by simp [hz])
    exact ⟨_, codeBits_cons.mpr ⟨c, x, hc, hx, rfl⟩⟩

/-! ### Decoding under a table's tree -/

theorem code_ne_nil {d : DTree} {t : List CodeEntry} {y : Sym} {c : Code} (hd : TreeHolds d t) (h : codeOf t y = some c) : c.bits ≠ [] := by
  intro hnil
  obtain ⟨e, he, hy, rfl⟩ := codeOf_some h
  have h1 := (hd.1 [] e.sym).mpr ⟨e, he, hnil, rfl⟩
  obtain ⟨l, r, h2⟩ := (hd.2 []).mpr (.inl rfl)
  rw [h1] at h2
  cases h2

theorem sub_code {d : DTree} {t : List CodeEntry} {y : Sym} {c : Code} (hd : TreeHolds d t) (h : codeOf t y = some c) :
    d.sub c.bits = .leaf y := by
  obtain ⟨e, he, hy, rfl⟩ := codeOf_some h
  exact (hd.1 _ _).mpr ⟨e, he, rfl, hy⟩

/-- Every code has a bit, so a list of symbols has at least as many bits. -/
theorem length_le_codeBits {d : DTree} {t : List CodeEntry} (hd : TreeHolds d t) {ys : List Sym} {bs : List Bool}
    (h : codeBits t ys = some bs) : ys.length ≤ bs.length := by
  induction ys generalizing bs with
  | nil => simp
  | cons y ys ih =>
    obtain ⟨c, x, hc, hx, rfl⟩ := codeBits_cons.mp h
    have h1 := List.length_pos_iff.mpr (code_ne_nil hd hc)
    have h2 := ih hx
    simp only [List.length_cons, List.length_append]
    omega

/-- A state in which the next DecSym reads a whole code: the walk starts at the root of a table's tree and the reader is in use. -/
def AtCode (t : List CodeEntry) (s : State) : Prop := TreeHolds s.dt t ∧ walkStart s = [] ∧ s.bsr.live

/-- `SER.DecSym()` on a code of the table (42_serializer.md R198, R199). -/
theorem decSym_code {s : State} {t : List CodeEntry} {y : Sym} {c : Code} {rest : List Bool} (h : AtCode t s)
    (hc : codeOf t y = some c) (hu : s.bsr.unread = c.bits ++ rest) :
    ∃ r, decSym s = .ok y { s with cur := c.bits, bsr := r } ∧ r.unread = rest ∧
      ∀ o, AtCode t { s with cur := c.bits, bsr := r, out := o } := by
  obtain ⟨hd, hw, hlive⟩ := h
  have hs := sub_code hd hc
  obtain ⟨r, e1, e2, e3⟩ := decSym_path (s := s) (p := c.bits) (y := y) (code_ne_nil hd hc) hlive (by rw [hw]; exact hs) hu
  rw [hw] at e1
  refine ⟨r, e1, e2, fun o => ⟨hd, ?_, e3⟩⟩
  show (match s.dt.sub c.bits with
    | .leaf _ => []
    | .absent => c.bits
    | .inner _ _ => c.bits) = _
  rw [hs]

theorem literal_toNat (b : Byte) : (literal b).toNat = b.toNat := by
  have := b.isLt
  rw [literal, BitVec.toNat_setWidth]
  exact Nat.mod_eq_of_lt (by show _ < 512; omega)

theorem literal_lt (b : Byte) : (literal b).toNat < 256 := (literal_toNat b).trans_lt b.isLt

@[simp] theorem literal_setWidth (b : Byte) : (literal b).setWidth 8 = b := by
  simp only [literal]
  exact BitVec.setWidth_setWidth_of_le _ (by decide) |>.trans (BitVec.setWidth_eq _)

theorem literal_ne_end (b : Byte) : literal b ≠ Config.filenameEnd := fun h => by
  have := literal_lt b
  rw [h] at this
  exact absurd this (by decide)

/-- The name phase on the codes of a name and FILENAME_END (R214 step 3). -/
theorem nameLoop_ok {t : List CodeEntry} : ∀ (name : List Byte) (k : Nat) (s : State) (bs rest : List Bool), AtCode t s →
    codeBits t (name.map literal ++ [Config.filenameEnd]) = some bs → s.bsr.unread = bs ++ rest → name.length < k →
    ∃ c r, codeOf t Config.filenameEnd = some c ∧
      nameLoop k s = .ok () { s with cur := c.bits, bsr := r, out := s.out ++ name.map Event.name } ∧ r.unread = rest ∧
      ∀ o, AtCode t { s with cur := c.bits, bsr := r, out := o }
  | _, 0, _, _, _, _, _, _, h => by simp at h
  | [], k + 1, s, bs, rest, hat, hb, hu, _ => by
    obtain ⟨c, x, hc, hx, rfl⟩ := codeBits_cons.mp hb
    cases hx
    obtain ⟨r, e1, e2, e3⟩ := decSym_code hat hc (by simpa using hu)
    refine ⟨c, r, hc, ?_, e2, e3⟩
    simp only [nameLoop, proc_bind, e1, if_true, proc_pure, List.map_nil, List.append_nil]
  | b :: name, k + 1, s, bs, rest, hat, hb, hu, hk => by
    rw [List.map_cons, List.cons_append] at hb
    obtain ⟨c, x, hc, hx, rfl⟩ := codeBits_cons.mp hb
    rw [List.append_assoc] at hu
    obtain ⟨r, e1, e2, e3⟩ := decSym_code hat hc hu
    obtain ⟨c', r', f1, f2, f3, f4⟩ := nameLoop_ok name k _ x rest (e3 (s.out ++ [.name b])) hx e2 (by simpa using hk)
    dsimp only at f2
    refine ⟨c', r', f1, ?_, f3, f4⟩
    have hlt : ¬ Config.filenameEnd < literal b := by
      have := literal_lt b
      rw [BitVec.lt_def]
      exact Nat.not_lt.mpr this.le
    simp only [nameLoop, proc_bind, e1]
    rw [if_neg (literal_ne_end b), if_neg hlt]
    simp only [proc_bind, outPut_apply, literal_setWidth, f2, List.map_cons, List.append_assoc, List.singleton_append]

/-- The name phase meets a symbol above FILENAME_END (43_sequencer.md R216). -/
theorem nameLoop_format {t : List CodeEntry} : ∀ (name : List Byte) (k : Nat) (s : State) (y : Sym) (bs rest : List Bool), AtCode t s →
    256 < y.toNat → codeBits t (name.map literal ++ [y]) = some bs → s.bsr.unread = bs ++ rest → name.length < k →
    ∃ u, nameLoop k s = .error .format u ∧ u.out = s.out ++ name.map Event.name ∧ u.bsr.unread = rest
  | _, 0, _, _, _, _, _, _, _, _, h => by simp at h
  | [], k + 1, s, y, bs, rest, hat, hy, hb, hu, _ => by
    obtain ⟨c, x, hc, hx, rfl⟩ := codeBits_cons.mp hb
    cases hx
    obtain ⟨r, e1, e2, -⟩ := decSym_code hat hc (by simpa using hu)
    refine ⟨{ s with cur := c.bits, bsr := r }, ?_, by simp, e2⟩
    have h1 : y ≠ Config.filenameEnd := by rintro rfl; exact absurd hy (by decide)
    have h2 : Config.filenameEnd < y := by rw [BitVec.lt_def]; exact hy
    simp only [nameLoop, proc_bind, e1]
    rw [if_neg h1, if_pos h2]
    rfl
  | b :: name, k + 1, s, y, bs, rest, hat, hy, hb, hu, hk => by
    rw [List.map_cons, List.cons_append] at hb
    obtain ⟨c, x, hc, hx, rfl⟩ := codeBits_cons.mp hb
    rw [List.append_assoc] at hu
    obtain ⟨r, e1, e2, e3⟩ := decSym_code hat hc hu
    obtain ⟨u, f1, f2, f3⟩ := nameLoop_format name k _ y x rest (e3 (s.out ++ [.name b])) hy hx e2 (by simpa using hk)
    dsimp only at f1 f2
    refine ⟨u, ?_, by simpa using f2, f3⟩
    have hlt : ¬ Config.filenameEnd < literal b := by
      have := literal_lt b
      rw [BitVec.lt_def]
      exact Nat.not_lt.mpr this.le
    simp only [nameLoop, proc_bind, e1]
    rw [if_neg (literal_ne_end b), if_neg hlt]
    simp only [proc_bind, outPut_apply, literal_setWidth, f1]

theorem literal_lt_end (b : Byte) : literal b < Config.filenameEnd := by
  rw [BitVec.lt_def]
  exact literal_lt b

/-- The content phase on the codes of a content and a terminator (R214 step 4). -/
theorem dataLoop_ok {t : List CodeEntry} : ∀ (data : List Byte) (k : Nat) (s : State) (term : Sym) (bs rest : List Bool), AtCode t s →
    (term = Config.oneMoreFile ∨ term = Config.archiveEnd) → codeBits t (data.map literal ++ [term]) = some bs →
    s.bsr.unread = bs ++ rest → data.length < k →
    ∃ c r, codeOf t term = some c ∧
      dataLoop k s = .ok term { s with
        cur := c.bits, bsr := r, out := s.out ++ data.map Event.data ++ [.fin (term == Config.oneMoreFile)] } ∧ r.unread = rest ∧
      ∀ o, AtCode t { s with cur := c.bits, bsr := r, out := o }
  | _, 0, _, _, _, _, _, _, _, _, h => by simp at h
  | [], k + 1, s, term, bs, rest, hat, ht, hb, hu, _ => by
    obtain ⟨c, x, hc, hx, rfl⟩ := codeBits_cons.mp hb
    cases hx
    obtain ⟨r, e1, e2, e3⟩ := decSym_code hat hc (by simpa using hu)
    refine ⟨c, r, hc, ?_, e2, e3⟩
    simp only [dataLoop, proc_bind, e1]
    rcases ht with rfl | rfl
    · rw [if_neg (by decide), if_pos rfl]
      simp
    · rw [if_neg (by decide), if_neg (by decide), if_pos rfl]
      rw [List.map_nil, List.append_nil]
      rfl
  | b :: data, k + 1, s, term, bs, rest, hat, ht, hb, hu, hk => by
    rw [List.map_cons, List.cons_append] at hb
    obtain ⟨c, x, hc, hx, rfl⟩ := codeBits_cons.mp hb
    rw [List.append_assoc] at hu
    obtain ⟨r, e1, e2, e3⟩ := decSym_code hat hc hu
    obtain ⟨c', r', f1, f2, f3, f4⟩ := dataLoop_ok data k _ term x rest (e3 (s.out ++ [.data b])) ht hx e2 (by simpa using hk)
    dsimp only at f2
    refine ⟨c', r', f1, ?_, f3, f4⟩
    simp only [dataLoop, proc_bind, e1]
    rw [if_pos (literal_lt_end b)]
    simp only [proc_bind, outPut_apply, literal_setWidth, f2, List.map_cons, List.append_assoc, List.cons_append, List.nil_append]

/-- The content phase meets FILENAME_END or a symbol above 258 (43_sequencer.md R216). -/
theorem dataLoop_format {t : List CodeEntry} : ∀ (data : List Byte) (k : Nat) (s : State) (y : Sym) (bs rest : List Bool), AtCode t s →
    (y.toNat = 256 ∨ 258 < y.toNat) → codeBits t (data.map literal ++ [y]) = some bs → s.bsr.unread = bs ++ rest → data.length < k →
    ∃ u, dataLoop k s = .error .format u ∧ u.out = s.out ++ data.map Event.data ∧ u.bsr.unread = rest
  | _, 0, _, _, _, _, _, _, _, _, h => by simp at h
  | [], k + 1, s, y, bs, rest, hat, hy, hb, hu, _ => by
    obtain ⟨c, x, hc, hx, rfl⟩ := codeBits_cons.mp hb
    cases hx
    obtain ⟨r, e1, e2, -⟩ := decSym_code hat hc (by simpa using hu)
    refine ⟨{ s with cur := c.bits, bsr := r }, ?_, by simp, e2⟩
    have h1 : ¬ y < Config.filenameEnd := by rw [BitVec.lt_def]; show ¬ y.toNat < 256; omega
    have h2 : y ≠ Config.oneMoreFile := by rintro rfl; exact absurd hy (by decide)
    have h3 : y ≠ Config.archiveEnd := by rintro rfl; exact absurd hy (by decide)
    simp only [dataLoop, proc_bind, e1]
    rw [if_neg h1, if_neg h2, if_neg h3]
    rfl
  | b :: data, k + 1, s, y, bs, rest, hat, hy, hb, hu, hk => by
    rw [List.map_cons, List.cons_append] at hb
    obtain ⟨c, x, hc, hx, rfl⟩ := codeBits_cons.mp hb
    rw [List.append_assoc] at hu
    obtain ⟨r, e1, e2, e3⟩ := decSym_code hat hc hu
    obtain ⟨u, f1, f2, f3⟩ := dataLoop_format data k _ y x rest (e3 (s.out ++ [.data b])) hy hx e2 (by simpa using hk)
    dsimp only at f1 f2
    refine ⟨u, ?_, by simpa using f2, f3⟩
    simp only [dataLoop, proc_bind, e1]
    rw [if_pos (literal_lt_end b)]
    simp only [proc_bind, outPut_apply, literal_setWidth, f1]

/-- The header phase of a block: the list, its table, its tree, and the cursor at the root (R214 steps 1 and 2). -/
theorem blockHeader_ok {s : State} {l : List LenEntry} {t : List CodeEntry} {rest : List Bool} (hl : usableList l) (hlive : s.bsr.live)
    (ht : tableOf l = some t) (hu : s.bsr.unread = headerBits l ++ rest) :
    ∃ r, readHeader s = .ok () { s with bsr := r, ll := l } ∧
      rebuild { s with bsr := r, ll := l } = .ok () { s with bsr := r, ll := l, ct := t, dt := treeOf t, cur := [] } ∧
      r.unread = rest ∧ AtCode t { s with bsr := r, ll := l, ct := t, dt := treeOf t, cur := [] } := by
  obtain ⟨r, h1, h2, h3, -⟩ := readHeaderList_ok hl hlive hu
  refine ⟨r, ?_, ?_, h2, ?_, ?_, h3⟩
  · simp only [readHeader, proc_bind, liftBsr_ok h1, proc_modify]
  · simp only [rebuild]
    have : assign (canonicalSort (lenPairs l)) = some t := ht
    rw [this]
  · exact treeHolds_of_assign hl.2.1 ht
  · obtain ⟨a, b, hab⟩ := ((treeHolds_of_assign hl.2.1 ht).2 []).mpr (.inl rfl)
    show (match (treeOf t).sub [] with
      | .leaf _ => []
      | .absent => []
      | .inner _ _ => []) = _
    rw [hab]

/-- `SEQ.DecodeBlock()` on a block (R214). -/
theorem decodeBlock_ok {s : State} {l : List LenEntry} {f : File} {term : Sym} {bs rest : List Bool} (hlive : s.bsr.live)
    (hl : usableList l) (ht : term = Config.oneMoreFile ∨ term = Config.archiveEnd) (hb : blockBits l f term = some bs)
    (hu : s.bsr.unread = bs ++ rest) :
    ∃ t c r, tableOf l = some t ∧ codeOf t term = some c ∧
      decodeBlock s = .ok term { s with
        ll := l, ct := t, dt := treeOf t, cur := c.bits, bsr := r, out := s.out ++ f.events (term == Config.oneMoreFile) } ∧
      r.unread = rest ∧ r.live := by
  unfold blockBits at hb
  cases htab : tableOf l with
  | none => rw [htab] at hb; cases hb
  | some t =>
    rw [htab] at hb
    cases hcb : codeBits t (f.symbols term) with
    | none => simp only [hcb] at hb; cases hb
    | some x =>
      simp only [hcb] at hb
      cases hb
      rw [List.append_assoc] at hu
      obtain ⟨r1, e1, e2, u1, at1⟩ := blockHeader_ok (s := s) hl hlive htab hu
      rw [File.symbols, List.append_assoc] at hcb
      obtain ⟨xn, xd, hxn, hxd, rfl⟩ := codeBits_append.mp hcb
      rw [List.append_assoc] at u1
      have b1 : f.name.length < bitBudget r1 + 1 := by
        have h1 := length_le_codeBits at1.1 hxn
        have h2 := path_le_budget (r := r1) at1.2.2.2 u1
        simp at h1; omega
      obtain ⟨c1, r2, hc1, n1, u2, at2⟩ := nameLoop_ok f.name (bitBudget r1 + 1) _ xn (xd ++ rest) at1 hxn u1 b1
      dsimp only at n1
      have b2 : f.data.length < bitBudget r2 + 1 := by
        have h1 := length_le_codeBits at1.1 hxd
        have h2 := path_le_budget (r := r2) (at2 []).2.2.2 u2
        simp at h1; omega
      obtain ⟨c2, r3, hc2, d1, u3, at3⟩ := dataLoop_ok f.data (bitBudget r2 + 1) _ term xd rest
        (at2 (s.out ++ f.name.map Event.name ++ [.openTarget])) ht hxd u2 b2
      dsimp only at d1
      refine ⟨t, c2, r3, rfl, hc2, ?_, u3, (at3 []).2.2⟩
      simp only [decodeBlock, proc_bind, e1, e2, proc_get, n1, outPut_apply, d1]
      simp only [File.events, List.append_assoc]

/-- `SEQ.DecodeBlock()` meets an illegal symbol in the name (R216). -/
theorem decodeBlock_badName {s : State} {l : List LenEntry} {t : List CodeEntry} {name : List Byte} {y : Sym} {bs rest : List Bool}
    (hlive : s.bsr.live) (hl : usableList l) (ht : tableOf l = some t) (hy : 256 < y.toNat)
    (hb : codeBits t (name.map literal ++ [y]) = some bs) (hu : s.bsr.unread = headerBits l ++ bs ++ rest) :
    ∃ u, decodeBlock s = .error .format u ∧ u.out = s.out ++ name.map Event.name ∧ u.bsr.unread = rest := by
  rw [List.append_assoc] at hu
  obtain ⟨r1, e1, e2, u1, at1⟩ := blockHeader_ok (s := s) hl hlive ht hu
  have b1 : name.length < bitBudget r1 + 1 := by
    have h1 := length_le_codeBits at1.1 hb
    have h2 := path_le_budget (r := r1) at1.2.2.2 u1
    simp at h1; omega
  obtain ⟨u, n1, n2, n3⟩ := nameLoop_format name (bitBudget r1 + 1) _ y bs rest at1 hy hb u1 b1
  dsimp only at n1 n2
  refine ⟨u, ?_, n2, n3⟩
  simp only [decodeBlock, proc_bind, e1, e2, proc_get, n1]

/-- `SEQ.DecodeBlock()` meets an illegal symbol in the content (R216). -/
theorem decodeBlock_badData {s : State} {l : List LenEntry} {t : List CodeEntry} {name data : List Byte} {y : Sym} {bs rest : List Bool}
    (hlive : s.bsr.live) (hl : usableList l) (ht : tableOf l = some t) (hy : y.toNat = 256 ∨ 258 < y.toNat)
    (hb : codeBits t (name.map literal ++ [Config.filenameEnd] ++ data.map literal ++ [y]) = some bs)
    (hu : s.bsr.unread = headerBits l ++ bs ++ rest) :
    ∃ u, decodeBlock s = .error .format u ∧
      u.out = s.out ++ name.map Event.name ++ [.openTarget] ++ data.map Event.data ∧ u.bsr.unread = rest := by
  rw [List.append_assoc] at hu hb
  obtain ⟨r1, e1, e2, u1, at1⟩ := blockHeader_ok (s := s) hl hlive ht hu
  obtain ⟨xn, xd, hxn, hxd, rfl⟩ := codeBits_append.mp hb
  rw [List.append_assoc] at u1
  have b1 : name.length < bitBudget r1 + 1 := by
    have h1 := length_le_codeBits at1.1 hxn
    have h2 := path_le_budget (r := r1) at1.2.2.2 u1
    simp at h1; omega
  obtain ⟨c1, r2, hc1, n1, u2, at2⟩ := nameLoop_ok name (bitBudget r1 + 1) _ xn (xd ++ rest) at1 hxn u1 b1
  dsimp only at n1
  have b2 : data.length < bitBudget r2 + 1 := by
    have h1 := length_le_codeBits at1.1 hxd
    have h2 := path_le_budget (r := r2) (at2 []).2.2.2 u2
    simp at h1; omega
  obtain ⟨u, d1, d2, d3⟩ := dataLoop_format data (bitBudget r2 + 1) _ y xd rest
    (at2 (s.out ++ name.map Event.name ++ [.openTarget])) hy hxd u2 b2
  dsimp only at d1 d2
  refine ⟨u, ?_, d2, d3⟩
  simp only [decodeBlock, proc_bind, e1, e2, proc_get, n1, outPut_apply, d1]

/-! ### Encoding a file -/

/-- Counting a list of symbols none of whose counters overflows (R210 step 1). -/
theorem freqIncAll_ok : ∀ (ys : List Sym) (s : State), (∀ y ∈ ys, y.toNat < Config.nsym) →
    (∀ y (h : y < Config.nsym), s.freq[y].toNat + ys.countP (fun z => z.toNat = y) < 2 ^ 64) →
    ∃ f : Vector Count Config.nsym, freqIncAll ys s = .ok () { s with freq := f } ∧
      ∀ y (h : y < Config.nsym), f[y].toNat = s.freq[y].toNat + ys.countP fun z => z.toNat = y
  | [], s, _, _ => ⟨s.freq, rfl, by simp⟩
  | y :: ys, s, hy, hn => by
    have hlt := hy y (by simp)
    have hat : s.freqAt y = s.freq[y.toNat] := by simp [State.freqAt, hlt]
    have hroom := hn y.toNat hlt
    simp only [List.countP_cons, decide_true, if_true] at hroom
    have hnot : ¬ s.freqAt y = BitVec.allOnes Config.freqW := by
      rw [hat]
      intro he
      rw [he] at hroom
      have : (BitVec.allOnes Config.freqW).toNat = 2 ^ 64 - 1 := rfl
      omega
    have hinc : freqInc y s = .ok () (s.setFreq y (s.freqAt y + 1)) := if_neg hnot
    have hval : (s.freqAt y + 1).toNat = s.freq[y.toNat].toNat + 1 := by
      rw [hat, BitVec.toNat_add]
      exact Nat.mod_eq_of_lt (by show _ + 1 < 2 ^ 64; omega)
    have hget : ∀ z (h : z < Config.nsym), (s.setFreq y (s.freqAt y + 1)).freq[z].toNat = s.freq[z].toNat + if y.toNat = z then 1 else 0 := by
      intro z hz
      simp only [setFreq_freq]
      by_cases he : y.toNat = z
      · subst he
        rw [Vector.getElem_setIfInBounds_self, hval, if_pos rfl]
      · rw [Vector.getElem_setIfInBounds_ne _ he, if_neg he, Nat.add_zero]
    obtain ⟨f, h1, h2⟩ := freqIncAll_ok ys (s.setFreq y (s.freqAt y + 1)) (fun z hz => hy z (by simp [hz])) (fun z hz => by
      have := hn z hz
      rw [hget z hz]
      simp only [List.countP_cons, decide_eq_true_eq] at this
      omega)
    refine ⟨f, ?_, fun z hz => ?_⟩
    · simp only [freqIncAll, proc_bind, hinc, h1]
      rfl
    · rw [h2 z hz, hget z hz]
      simp only [List.countP_cons, decide_eq_true_eq]
      omega

/-- Emitting the codes of a list of symbols that all have one (R210 step 4). -/
theorem encSyms_ok {ys : List Sym} : ∀ {s : State} {bs : List Bool}, codeBits s.ct ys = some bs →
    encSyms ys s = .ok () { s with bsw := appendBits bs s.bsw } := by
  induction ys with
  | nil => intro s bs h; cases h; rfl
  | cons y ys ih =>
    intro s bs h
    obtain ⟨c, x, hc, hx, rfl⟩ := codeBits_cons.mp h
    have h2 := ih (s := { s with bsw := appendBits c.bits s.bsw }) hx
    simp only [encSyms, proc_bind, encSym_ok hc, h2, appendBits_append]

/-- Emitting the remembered code of the last block, if there is one (R210 step 2, R213). -/
theorem emitTerminator_apply (c : State → Code) (s : State) :
    emitTerminator c s = .ok () { s with bsw := appendBits (if s.written then (c s).bits else []) s.bsw } := by
  unfold emitTerminator
  by_cases h : s.written = true
  · rw [if_pos h, if_pos h]; rfl
  · rw [if_neg h, if_neg h]; rfl

theorem count_literals (bs : List Byte) (y : Nat) : (bs.map literal).countP (fun z => z.toNat = y) = bs.countP fun b => b.toNat = y := by
  rw [List.countP_map]
  exact List.countP_congr fun b _ => by simp [Function.comp, literal_toNat]

/-- The symbols ENCFILE counts, in its order (R210 step 1). -/
def countedSymbols (f : File) : List Sym :=
  f.name.map literal ++ (f.data.map literal ++ [Config.filenameEnd, Config.oneMoreFile, Config.archiveEnd])

theorem count_symbols (f : File) (y : Nat) : (countedSymbols f).countP (fun z => z.toNat = y) = f.counts y := by
  rw [countedSymbols, List.countP_append, List.countP_append, count_literals, count_literals, File.counts, List.countP_append]
  have h : ([Config.filenameEnd, Config.oneMoreFile, Config.archiveEnd] : List Sym).countP (fun z => z.toNat = y) =
      if 256 ≤ y ∧ y ≤ 258 then 1 else 0 := by
    by_cases h0 : y = 256
    · subst h0; rfl
    · by_cases h1 : y = 257
      · subst h1; rfl
      · by_cases h2 : y = 258
        · subst h2; rfl
        · rw [if_neg (by omega), List.countP_eq_zero]
          intro z hz
          simp only [List.mem_cons, List.not_mem_nil, or_false] at hz
          simp only [decide_eq_true_eq]
          rcases hz with rfl | rfl | rfl
          · exact fun h => h0 (by rw [← h]; rfl)
          · exact fun h => h1 (by rw [← h]; rfl)
          · exact fun h => h2 (by rw [← h]; rfl)
  rw [h, Nat.add_assoc]

theorem counts_lt {f : File} (h : f.name.length + f.data.length < 2 ^ 64) (y : Nat) : f.counts y < 2 ^ 64 := by
  unfold File.counts
  by_cases hy : 256 ≤ y ∧ y ≤ 258
  · have : (f.name ++ f.data).countP (fun b => b.toNat = y) = 0 := by
      rw [List.countP_eq_zero]
      intro b _
      have := b.isLt
      simp only [decide_eq_true_eq]
      omega
    rw [this, if_pos hy]
    decide
  · have := List.countP_le_length (p := fun b : Byte => decide (b.toNat = y)) (l := f.name ++ f.data)
    rw [List.length_append] at this
    rw [if_neg hy]
    omega

theorem counts_symbol_pos {f : File} {y : Sym} (h : y ∈ countedSymbols f) : f.counts y.toNat ≠ 0 := by
  rw [← count_symbols]
  intro h0
  exact (List.countP_eq_zero.mp h0) y h (by simp)

theorem freqIncAll_append (a b : List Sym) (s : State) : freqIncAll (a ++ b) s = (do freqIncAll a; freqIncAll b) s := by
  induction a generalizing s with
  | nil => rfl
  | cons y a ih =>
    simp only [List.cons_append, freqIncAll, proc_bind]
    cases freqInc y s with
    | ok _ t => simp only [ih, proc_bind]
    | error k t => rfl

/-- `SEQ.EncodeFile()` (R210) on a file whose counts fit, for every tie-break. -/
theorem encodeFile_ok (tb : Config.TieBreak) (s : State) (h : s.namein.length + s.datain.length < 2 ^ 64) :
    ∃ (f : Vector Count Config.nsym) (t : List CodeEntry) (m e : Code) (bs : List Bool),
      (∀ y (h : y < Config.nsym), f[y].toNat = File.counts ⟨s.namein, s.datain⟩ y) ∧ buildTable tb f = .ok t ∧
      (∀ c ∈ t, 1 ≤ c.code.len.toNat) ∧ codeOf t Config.oneMoreFile = some m ∧ codeOf t Config.archiveEnd = some e ∧
      codeBits t (s.namein.map literal ++ [Config.filenameEnd] ++ s.datain.map literal) = some bs ∧
      encodeFile tb s = .ok () { s with
        freq := f, ct := t, pomf := m, paend := e, written := true,
        bsw := appendBits ((if s.written then s.pomf.bits else []) ++ headerBits (lenEntries t) ++ bs) s.bsw } := by
  have hsym : ∀ y ∈ countedSymbols ⟨s.namein, s.datain⟩, y.toNat < Config.nsym := by
    intro y hy
    simp only [countedSymbols, List.mem_append, List.mem_map, List.mem_cons, List.not_mem_nil, or_false] at hy
    rcases hy with ⟨b, -, rfl⟩ | ⟨b, -, rfl⟩ | rfl | rfl | rfl
    · exact (literal_lt b).trans (by decide)
    · exact (literal_lt b).trans (by decide)
    all_goals decide
  obtain ⟨f, h1, h2⟩ := freqIncAll_ok (countedSymbols ⟨s.namein, s.datain⟩) { s with freq := Vector.replicate Config.nsym 0 } hsym (fun y hy => by
    have := counts_lt (f := ⟨s.namein, s.datain⟩) h y
    simpa [count_symbols] using this)
  have hcount : ∀ y (h : y < Config.nsym), f[y].toNat = File.counts ⟨s.namein, s.datain⟩ y := fun y hy => by
    rw [h2 y hy, count_symbols]; simp
  have hpos : ∀ y ∈ countedSymbols ⟨s.namein, s.datain⟩, ∃ h : y.toNat < Config.nsym, f[y.toNat] ≠ 0 := fun y hy =>
    ⟨hsym y hy, fun h0 => counts_symbol_pos hy (by rw [← hcount _ (hsym y hy), h0]; rfl)⟩
  have hend : Config.filenameEnd ∈ countedSymbols ⟨s.namein, s.datain⟩ := by simp [countedSymbols]
  obtain ⟨t, ht⟩ := buildTable_isOk (tb := tb) (presentSymbols_ne_nil.mpr (by
    obtain ⟨h1, h2⟩ := hpos _ hend; exact ⟨_, h1, h2⟩))
  have hmem : ∀ y ∈ countedSymbols ⟨s.namein, s.datain⟩, ∃ e ∈ t, e.sym = y := fun y hy => (buildTable_mem ht y).mpr (hpos y hy)
  obtain ⟨m, hm⟩ := codeOf_isSome (hmem Config.oneMoreFile (by simp [countedSymbols]))
  obtain ⟨e, he⟩ := codeOf_isSome (hmem Config.archiveEnd (by simp [countedSymbols]))
  obtain ⟨bs, hbs⟩ := codeBits_isSome (t := t) (ys := s.namein.map literal ++ [Config.filenameEnd] ++ s.datain.map literal) (fun y hy => hmem y (by
    simp only [List.mem_append, List.mem_singleton] at hy
    simp only [countedSymbols, List.mem_append, List.mem_cons]
    rcases hy with (hy | rfl) | hy
    · exact .inl hy
    · exact .inr (.inr (.inl rfl))
    · exact .inr (.inl hy)))
  have hlen : ∀ c ∈ t, 1 ≤ c.code.len.toNat := buildTable_len_pos ht (by
    obtain ⟨a, ha, hay⟩ := hmem Config.oneMoreFile (by simp [countedSymbols])
    obtain ⟨b, hb, hby⟩ := hmem Config.archiveEnd (by simp [countedSymbols])
    rcases ht2 : t with _ | ⟨x, _ | ⟨z, u⟩⟩
    · rw [ht2] at ha; cases ha
    · rw [ht2, List.mem_singleton] at ha hb
      rw [ha, ← hb, hby] at hay
      exact absurd hay (by decide)
    · simp)
  refine ⟨f, t, m, e, bs, hcount, ht, hlen, hm, he, hbs, ?_⟩
  obtain ⟨x, xd, hx, hxd, rfl⟩ := codeBits_append.mp hbs
  obtain ⟨xn, xe, hxn, hxe, rfl⟩ := codeBits_append.mp hx
  obtain ⟨ce, z, hce, hz, rfl⟩ := codeBits_cons.mp hxe
  cases hz
  have hinc : ∃ u1 u2, freqIncAll (s.namein.map literal) { s with freq := Vector.replicate Config.nsym 0 } = .ok () u1 ∧
      freqIncAll (s.datain.map literal) u1 = .ok () u2 ∧
      freqIncAll [Config.filenameEnd, Config.oneMoreFile, Config.archiveEnd] u2 = .ok () { s with freq := f } := by
    rw [countedSymbols, freqIncAll_append, proc_bind] at h1
    cases g1 : freqIncAll (s.namein.map literal) { s with freq := Vector.replicate Config.nsym 0 } with
    | error k u => simp only [g1] at h1; cases h1
    | ok _ u =>
      simp only [g1, freqIncAll_append, proc_bind] at h1
      cases g2 : freqIncAll (s.datain.map literal) u with
      | error k u => simp only [g2] at h1; cases h1
      | ok _ u2 => simp only [g2] at h1; exact ⟨u, u2, rfl, g2, h1⟩
  obtain ⟨u1, u2, g1, g2, g3⟩ := hinc
  have hnz : ∀ c ∈ t, c.code.len ≠ 0 := fun c hc h0 => by have := hlen c hc; rw [h0] at this; simp at this
  unfold encodeFile
  simp only [proc_bind, proc_get, freqClear, proc_modify, g1, g2, g3, build, ht]
  rw [emitTerminator_apply]
  simp only
  rw [writeHeader_ok (by exact hnz)]
  simp only
  rw [encSyms_ok (bs := xn) (by exact hxn)]
  simp only
  rw [encSym_ok (c := ce) (by exact hce)]
  simp only
  rw [encSyms_ok (bs := xd) (by exact hxd)]
  simp only [codeOfPresent, hm, he, setWritten_apply, List.append_assoc, appendBits_append]
  simp

end Sys2Proof.Machine
end

