-- ==== Sys2Proof/Laws/Effects.lean ====
section
/-! SUPPORT. Everything each procedure can do, ended or raised: which fields it touches, which kinds it raises, and what of the
invariant it keeps. Whole-machine statements cite these and unfold no procedure. -/

namespace Sys2Proof.Machine

/-! ### The reader -/

/-- How a reader moves: bytes leave SRC at its front, and RCNT and the clause on EOS of 10_state.md R45 are kept. -/
structure BsrStep (r r' : Bsr) : Prop where
  src  : r'.src <:+ r.src
  rcnt : r.rcnt.toNat ≤ 8 → r'.rcnt.toNat ≤ 8
  eos  : (r.eos = true → r.src = [] ∧ r.rcnt = 0) → r'.eos = true → r'.src = [] ∧ r'.rcnt = 0

theorem BsrStep.refl (r : Bsr) : BsrStep r r := ⟨List.suffix_refl _, id, fun h => h⟩

theorem BsrStep.trans {a b c : Bsr} (h : BsrStep a b) (h' : BsrStep b c) : BsrStep a c :=
  ⟨h'.src.trans h.src, fun h8 => h'.rcnt (h.rcnt h8), fun he => h'.eos (h.eos he)⟩

theorem bufferedBit_step {r : Bsr} (h : r.rcnt ≠ 0) : BsrStep r (bufferedBit r).2 := by
  have hn : r.rcnt.toNat ≠ 0 := fun h' => h (BitVec.eq_of_toNat_eq (by simpa using h'))
  refine ⟨List.suffix_refl _, fun h8 => ?_, fun he h' => absurd (he h').2 h⟩
  show (r.rcnt - 1).toNat ≤ 8
  rw [BitVec.toNat_sub]
  have h1 : (1 : BitVec 4).toNat = 1 := rfl
  omega

theorem fetchBit_step (r : Bsr) : BsrStep r (fetchBit r).2 := by
  unfold fetchBit
  split
  · rename_i h0
    unfold srcNext
    cases hs : r.src with
    | nil => exact ⟨by simp [hs], id, fun _ _ => ⟨hs, h0⟩⟩
    | cons b rest =>
      have h1 : BsrStep r { r with src := rest, rbuf := b, rcnt := 8 } :=
        ⟨by rw [hs]; exact List.suffix_cons _ _, fun _ => (by decide : (8 : BitVec 4).toNat ≤ 8), fun he h' => absurd (he h').1 (by simp [hs])⟩
      exact h1.trans (bufferedBit_step (r := { r with src := rest, rbuf := b, rcnt := 8 }) (by decide : (8 : BitVec 4) ≠ 0))
  · exact bufferedBit_step ‹_›

theorem fetchBits_step (n : Nat) (r : Bsr) : BsrStep r (fetchBits n r).2 := by
  induction n generalizing r with
  | zero => exact .refl r
  | succ n ih => exact (fetchBit_step r).trans (ih _)

theorem bsrRead_sat (n : Nat) (r : Bsr) :
    Sat (bsrRead n) r (fun _ t => BsrStep r t) (fun k t => k = .endOfStream ∧ BsrStep r t) := by
  unfold Sat
  rw [bsrRead_eq]
  cases r.eos with
  | true => exact ⟨rfl, .refl r⟩
  | false => exact fetchBits_step n r

theorem readSyms_sat (n : Nat) (r : Bsr) :
    Sat (readSyms n) r (fun ys t => BsrStep r t ∧ ys.length = n) (fun k t => k = .endOfStream ∧ BsrStep r t) := by
  induction n generalizing r with
  | zero => exact ⟨.refl r, rfl⟩
  | succ n ih =>
    refine (bsrRead_sat 9 r).bind fun v t h => ?_
    refine Sat.bind ((ih t).weaken (fun _ _ h => h) fun k u hu => ⟨hu.1, h.trans hu.2⟩) fun ys u hu => ?_
    exact ⟨h.trans hu.1, by simp [hu.2]⟩

/-- The error kinds of reading a header (60_exceptions.md R256). -/
def headerKind (k : ErrKind) : Prop := k = .endOfStream ∨ k = .format ∨ k = .capacity

theorem readCounts_sat : ∀ (k : Nat) (ys : List Sym) (r : Bsr), k ≤ Config.maxLen →
    Sat (readCounts k ys) r
      (fun l t => BsrStep r t ∧ l.length = ys.length ∧ ∀ e ∈ l, 1 ≤ e.len.toNat ∧ e.len.toNat ≤ Config.maxLen)
      (fun e t => headerKind e ∧ BsrStep r t)
  | k, [], r, _ => by cases k <;> exact ⟨.refl r, rfl, by simp⟩
  | 0, _ :: _, r, _ => ⟨.inr (.inr rfl), .refl r⟩
  | k + 1, y :: ys, r, hk => by
    refine Sat.bind ((bsrRead_sat 9 r).weaken (fun _ _ h => h) fun _ _ h => ⟨.inl h.1, h.2⟩) fun v t h => ?_
    dsimp only
    split
    · exact ⟨.inr (.inl rfl), h⟩
    · refine Sat.bind ((readCounts_sat k _ t (by omega)).weaken (fun _ _ h => h) fun e u hu => ⟨hu.1, h.trans hu.2⟩) fun l u hu => ?_
      refine ⟨h.trans hu.1, ?_, fun e he => ?_⟩
      · rw [List.length_append, List.length_map, hu.2.1, List.length_take, List.length_drop]; omega
      · rcases List.mem_append.mp he with he | he
        · obtain ⟨z, -, rfl⟩ := List.mem_map.mp he
          have : (BitVec.ofNat 9 (Config.maxLen - k)).toNat = Config.maxLen - k := by
            rw [BitVec.toNat_ofNat]
            exact Nat.mod_eq_of_lt (by unfold Config.maxLen; omega)
          dsimp only
          omega
        · exact hu.2.2 e he

theorem readHeaderList_sat (r : Bsr) :
    Sat readHeaderList r
      (fun l t => BsrStep r t ∧ l.length ≤ Config.llMax ∧ ∀ e ∈ l, 1 ≤ e.len.toNat ∧ e.len.toNat ≤ Config.maxLen)
      (fun e t => headerKind e ∧ BsrStep r t) := by
  have hv : Sat (bsrRead 9) r (fun v t => BsrStep r t ∧ v.toNat ≤ 511) (fun k t => k = .endOfStream ∧ BsrStep r t) := by
    have h1 := bsrRead_sat 9 r
    unfold Sat at *
    rw [bsrRead_eq] at *
    cases he : r.eos with
    | true => simpa [he] using h1
    | false =>
      simp only [he, Bool.false_eq_true, if_false] at *
      refine ⟨h1, ?_⟩
      have := natOfBits_lt (fetchBits 9 r).1
      rw [fetchBits_length] at this
      rw [BitVec.toNat_ofNat]
      omega
  refine Sat.bind (hv.weaken (fun _ _ h => h) fun _ _ h => ⟨.inl h.1, h.2⟩) fun v t h => ?_
  refine Sat.bind ((readSyms_sat _ t).weaken (fun _ _ h => h) fun _ _ hu => ⟨.inl hu.1, h.1.trans hu.2⟩) fun ys u hu => ?_
  refine (readCounts_sat _ ys u le_rfl).weaken (fun l w hw => ⟨(h.1.trans hu.1).trans hw.1, ?_, hw.2.2⟩)
    fun k w hw => ⟨hw.1, (h.1.trans hu.1).trans hw.2⟩
  rw [hw.2.1, hu.2]
  exact h.2

/-- `SER.ReadHeader()` writes LL and moves the reader (42_serializer.md R192). -/
theorem readHeader_sat (s : State) :
    Sat readHeader s
      (fun _ t => (t = { s with ll := t.ll, bsr := t.bsr } ∧ BsrStep s.bsr t.bsr) ∧ t.ll.length ≤ Config.llMax ∧
        ∀ e ∈ t.ll, 1 ≤ e.len.toNat ∧ e.len.toNat ≤ Config.maxLen)
      (fun k t => headerKind k ∧ t = { s with bsr := t.bsr } ∧ BsrStep s.bsr t.bsr) := by
  refine Sat.bind ((Sat.lift (readHeaderList_sat s.bsr)).weaken (fun _ _ h => h) fun k t h => ⟨h.1.1, h.2, h.1.2⟩) fun l t h => ?_
  obtain ⟨⟨h1, h2, h3⟩, h4⟩ := h
  refine ⟨⟨?_, h1⟩, h2, h3⟩
  rw [h4]

/-! ### The writer -/

/-- How an open writer moves: SINK grows at its end, WCLOSED stays, and the unfilled bits of WACC stay 0. -/
structure BswStep (w w' : Bsw) : Prop where
  sink    : w.sink <+: w'.sink
  wclosed : w'.wclosed = w.wclosed
  clean   : w.clean → w'.clean

theorem BswStep.refl (w : Bsw) : BswStep w w := ⟨List.prefix_refl _, rfl, id⟩

theorem BswStep.trans {a b c : Bsw} (h : BswStep a b) (h' : BswStep b c) : BswStep a c :=
  ⟨h.sink.trans h'.sink, h'.wclosed.trans h.wclosed, fun hc => h'.clean (h.clean hc)⟩

theorem appendBits_step (bs : List Bool) (w : Bsw) : BswStep w (appendBits bs w) :=
  ⟨appendBits_sink bs w, appendBits_wclosed bs w, appendBits_clean bs w⟩

theorem bswDispose_sink (w : Bsw) : w.sink <+: (bswDispose w).sink := by
  unfold bswDispose sinkPut
  split
  · exact List.prefix_refl _
  · exact List.prefix_append _ _

theorem bswDispose_clean (w : Bsw) : (bswDispose w).clean := fun i _ => by simp [bswDispose]

theorem checkOpen_sat (s : State) :
    Sat checkOpen s (fun _ t => t = s ∧ s.bsw.wclosed = false) (fun k t => k = .illegalCommand ∧ t = s) := by
  unfold Sat
  cases h : s.bsw.wclosed with
  | true => rw [checkOpen_closed h]; exact ⟨rfl, rfl⟩
  | false => rw [checkOpen_open h]; exact ⟨rfl, rfl⟩

/-- A procedure that moves the writer alone, or raises IllegalCommandError. -/
def WritesOnly (s : State) : (Unit → State → Prop) × (ErrKind → State → Prop) :=
  (fun _ t => t = { s with bsw := t.bsw } ∧ BswStep s.bsw t.bsw,
   fun k t => k = .illegalCommand ∧ t = { s with bsw := t.bsw } ∧ BswStep s.bsw t.bsw)

theorem emitCode_sat (c : Code) (s : State) : Sat (emitCode c) s (WritesOnly s).1 (WritesOnly s).2 :=
  ⟨rfl, appendBits_step _ _⟩

theorem writeHeader_sat (s : State) : Sat writeHeader s (WritesOnly s).1 (WritesOnly s).2 := by
  unfold Sat
  cases h : s.ct.any (fun e => e.code.len == 0) with
  | true => simp only [writeHeader, h, if_true]; exact ⟨rfl, rfl, .refl _⟩
  | false =>
    have hok : writeHeader s = .ok () { s with bsw := appendBits ((headerFields s.ct).flatMap fun v => fieldBits v 9) s.bsw } := by
      simp only [writeHeader, h, Bool.false_eq_true, if_false, foldl_bswWrite]
    have hstep := appendBits_step ((headerFields s.ct).flatMap fun v => fieldBits v 9) s.bsw
    rw [hok]
    generalize appendBits _ s.bsw = w at hstep
    exact ⟨rfl, hstep⟩

theorem encSym_sat (y : Sym) (s : State) : Sat (encSym y) s (WritesOnly s).1 (WritesOnly s).2 := by
  unfold Sat
  cases h : codeOf s.ct y with
  | none => simp only [encSym, h]; exact ⟨rfl, rfl, .refl _⟩
  | some c => rw [encSym_ok h]; exact ⟨rfl, appendBits_step _ _⟩

theorem WritesOnly.bind {α : Type} {s : State} {p : Proc Unit} {f : Unit → Proc α} {Q : α → State → Prop} {E : ErrKind → State → Prop}
    (hp : Sat p s (WritesOnly s).1 (WritesOnly s).2) (he : ∀ k t, (WritesOnly s).2 k t → E k t)
    (hf : ∀ t, (WritesOnly s).1 () t → Sat (f ()) t Q E) : Sat (p >>= f) s Q E :=
  Sat.bind (hp.weaken (fun _ _ h => h) he) fun _ t h => hf t h

theorem encSyms_sat (ys : List Sym) (s : State) : Sat (encSyms ys) s (WritesOnly s).1 (WritesOnly s).2 := by
  induction ys generalizing s with
  | nil => exact ⟨rfl, .refl _⟩
  | cons y ys ih =>
    refine WritesOnly.bind (encSym_sat y s) (fun _ _ h => h) fun t h => ?_
    obtain ⟨h1, h2⟩ := h
    refine (ih t).weaken (fun _ u hu => ⟨?_, h2.trans hu.2⟩) fun k u hu => ⟨hu.1, ?_, h2.trans hu.2.2⟩
    · rw [hu.1, h1]
    · rw [hu.2.1, h1]

/-! ### The tree engine -/

/-- `HTE.Rebuild()` on a list whose lengths lie in 1 to MAXLEN (41_tree_engine.md R168). -/
theorem rebuild_sat {s : State} (hl : ∀ e ∈ s.ll, 1 ≤ e.len.toNat ∧ e.len.toNat ≤ Config.maxLen) :
    Sat rebuild s
      (fun _ t => t = { s with ct := t.ct, dt := t.dt, cur := [] } ∧ TreeHolds t.dt t.ct ∧ t.ct.length = s.ll.length ∧
        (∀ e ∈ t.ct, e.code.len.toNat ≤ Config.maxLen ∧ e.code.val.toNat < 2 ^ e.code.len.toNat))
      (fun k t => k = .codeOverflow ∧ t = s) := by
  unfold Sat rebuild
  cases h : assign (canonicalSort (lenPairs s.ll)) with
  | none => exact ⟨rfl, rfl⟩
  | some t =>
    have hmem : ∀ p ∈ canonicalSort (lenPairs s.ll), p.1 ≤ Config.maxLen := by
      intro p hp
      obtain ⟨e, he, rfl⟩ := List.mem_map.mp ((canonicalSort_perm _).mem_iff.mp hp)
      exact (hl e he).2
    obtain ⟨h1, h2, h3, -⟩ := assign_table (canonicalSort_sorted _) hmem h
    refine ⟨rfl, treeHolds_of_assign hl h, ?_, fun e he => ⟨h3 e he, h2 e he⟩⟩
    have := congrArg List.length h1
    rw [List.length_map, (canonicalSort_perm _).length_eq, lenPairs, List.length_map] at this
    exact this

/-- `HTE.Rebuild()` on any list: what it writes and raises. -/
theorem rebuild_frame (s : State) :
    Sat rebuild s
      (fun _ t => t = { s with ct := t.ct, dt := t.dt, cur := [] } ∧ assign (canonicalSort (lenPairs s.ll)) = some t.ct)
      (fun k t => k = .codeOverflow ∧ t = s) := by
  unfold Sat rebuild
  cases h : assign (canonicalSort (lenPairs s.ll)) with
  | none => exact ⟨rfl, rfl⟩
  | some t => exact ⟨rfl, rfl⟩

/-- `HTE.Walk(b)` moves the cursor to a node of the tree (41_tree_engine.md R171). -/
theorem htWalk_sat (b : Bool) (s : State) :
    Sat (htWalk b) s
      (fun r t => t = { s with cur := t.cur } ∧ t.dt.sub t.cur ≠ .absent ∧ (∀ y, r = some y → t.dt.sub t.cur = .leaf y))
      (fun k t => k = .corruptTree ∧ t = s) := by
  unfold Sat htWalk
  dsimp only
  cases h : s.dt.sub (walkStart s ++ [b]) with
  | absent => exact ⟨rfl, rfl⟩
  | leaf y => exact ⟨rfl, by simp [h], by simp [h]⟩
  | inner l r => exact ⟨rfl, by simp [h], by simp⟩

/-- `HTE.FreqInc(y)` for a symbol of the alphabet (41_tree_engine.md R151). -/
theorem freqInc_sat {y : Sym} (hy : y.toNat < Config.nsym) (s : State) :
    Sat (freqInc y) s
      (fun _ t => t = { s with freq := t.freq } ∧ ∀ z (h : z < Config.nsym), t.freq[z].toNat = s.freq[z].toNat + if y.toNat = z then 1 else 0)
      (fun k t => k = .capacity ∧ t = s) := by
  unfold Sat
  have hat : s.freqAt y = s.freq[y.toNat] := by simp [State.freqAt, hy]
  by_cases hc : s.freqAt y = BitVec.allOnes Config.freqW
  · rw [freqInc, if_pos hc]; exact ⟨rfl, rfl⟩
  · rw [freqInc, if_neg hc]
    refine ⟨rfl, fun z hz => ?_⟩
    simp only [setFreq_freq]
    by_cases he : y.toNat = z
    · subst he
      rw [Vector.getElem_setIfInBounds_self, if_pos rfl, hat, BitVec.toNat_add]
      refine Nat.mod_eq_of_lt ?_
      have h1 := s.freq[y.toNat].isLt
      have h2 : s.freq[y.toNat].toNat ≠ 2 ^ 64 - 1 := fun h => hc (by rw [hat]; exact BitVec.eq_of_toNat_eq (by rw [h]; rfl))
      show _ + 1 < 2 ^ 64
      have h1 : s.freq[y.toNat].toNat < 2 ^ 64 := h1
      omega
    · rw [Vector.getElem_setIfInBounds_ne _ he, if_neg he, Nat.add_zero]

/-- Counting symbols of the alphabet: no counter goes down, and every counted one is not 0. -/
theorem freqIncAll_sat : ∀ (ys : List Sym) (s : State), (∀ y ∈ ys, y.toNat < Config.nsym) →
    Sat (freqIncAll ys) s
      (fun _ t => t = { s with freq := t.freq } ∧ (∀ z (h : z < Config.nsym), s.freq[z].toNat ≤ t.freq[z].toNat) ∧
        ∀ y ∈ ys, ∀ h : y.toNat < Config.nsym, t.freq[y.toNat] ≠ 0)
      (fun k t => k = .capacity ∧ t = { s with freq := t.freq })
  | [], s, _ => ⟨rfl, fun _ _ => le_rfl, by simp⟩
  | y :: ys, s, hy => by
    refine Sat.bind ((freqInc_sat (hy y (by simp)) s).weaken (fun _ _ h => h) fun k t h => ⟨h.1, by rw [h.2]⟩) fun _ t h => ?_
    refine (freqIncAll_sat ys t fun z hz => hy z (by simp [hz])).weaken (fun _ u hu => ⟨?_, fun z hz => ?_, fun z hz hlt => ?_⟩)
      fun k u hu => ⟨hu.1, ?_⟩
    · rw [hu.1, h.1]
    · have h1 := h.2 z hz
      have h2 := hu.2.1 z hz
      omega
    · rcases List.mem_cons.mp hz with rfl | hz
      · have h1 := h.2 _ hlt
        have h2 := hu.2.1 _ hlt
        rw [if_pos rfl] at h1
        intro h0
        rw [h0] at h2
        simp at h2
        omega
      · exact hu.2.2 z hz hlt
    · rw [hu.2, h.1]

/-! ### Decoding -/

/-- The error kinds of decoding a symbol. -/
def symbolKind (k : ErrKind) : Prop := k = .endOfStream ∨ k = .corruptTree

/-- Decoding symbols moves the cursor, the reader and OUT alone, with events added at the end of OUT. -/
def Decodes (s t : State) : Prop :=
  t = { s with cur := t.cur, bsr := t.bsr, out := t.out } ∧ BsrStep s.bsr t.bsr ∧ s.out <+: t.out ∧
    (s.dt.sub s.cur ≠ .absent → t.dt.sub t.cur ≠ .absent)

theorem Decodes.refl (s : State) : Decodes s s := ⟨rfl, .refl _, List.prefix_refl _, id⟩

theorem Decodes.trans {a b c : State} (h : Decodes a b) (h' : Decodes b c) : Decodes a c :=
  ⟨by rw [h'.1, h.1], h.2.1.trans h'.2.1, h.2.2.1.trans h'.2.2.1, fun ha => h'.2.2.2 (h.2.2.2 ha)⟩

theorem liftRead_sat (n : Nat) (s : State) :
    Sat (liftBsr (bsrRead n)) s (fun _ t => Decodes s t ∧ t.out = s.out)
      (fun k t => k = .endOfStream ∧ Decodes s t ∧ t.out = s.out) := by
  refine (Sat.lift (bsrRead_sat n s.bsr)).weaken (fun _ t h => ?_) fun k t h => ⟨h.1.1, ?_⟩
  · obtain ⟨h1, h2⟩ := h
    rw [h2]
    exact ⟨⟨rfl, h1, List.prefix_refl _, id⟩, rfl⟩
  · obtain ⟨⟨-, h1⟩, h2⟩ := h
    rw [h2]
    exact ⟨⟨rfl, h1, List.prefix_refl _, id⟩, rfl⟩

theorem decSymLoop_sat : ∀ (k : Nat) (s : State),
    Sat (decSymLoop k) s (fun y t => (Decodes s t ∧ t.out = s.out) ∧ t.dt.sub t.cur = .leaf y)
      (fun e t => symbolKind e ∧ Decodes s t ∧ t.out = s.out)
  | 0, s => ⟨.inl rfl, .refl s, rfl⟩
  | k + 1, s => by
    refine Sat.bind ((liftRead_sat 1 s).weaken (fun _ _ h => h) fun _ _ h => ⟨.inl h.1, h.2⟩) fun v t ht => ?_
    have hwalk : ∀ u, u = { t with cur := u.cur } → u.dt.sub u.cur ≠ .absent → Decodes t u ∧ u.out = t.out := fun u h1 h2 =>
      ⟨⟨by rw [h1], by rw [h1]; exact .refl _, by rw [h1], fun _ => h2⟩, by rw [h1]⟩
    refine Sat.bind ((htWalk_sat (v.getLsbD 0) t).weaken (fun _ _ h => h) fun e u h => ⟨.inr h.1, by rw [h.2]; exact ht⟩) fun r u hu => ?_
    obtain ⟨h1, h2, h3⟩ := hu
    obtain ⟨h4, h5⟩ := hwalk u h1 h2
    cases r with
    | some y => exact ⟨⟨ht.1.trans h4, h5.trans ht.2⟩, h3 y rfl⟩
    | none =>
      exact (decSymLoop_sat k u).weaken
        (fun _ _ h => ⟨⟨(ht.1.trans h4).trans h.1.1, h.1.2.trans (h5.trans ht.2)⟩, h.2⟩)
        (fun _ _ h => ⟨h.1, (ht.1.trans h4).trans h.2.1, h.2.2.trans (h5.trans ht.2)⟩)

/-- `SER.DecSym()` (42_serializer.md R198). -/
theorem decSym_sat (s : State) :
    Sat decSym s (fun y t => (Decodes s t ∧ t.out = s.out) ∧ t.dt.sub t.cur = .leaf y)
      (fun e t => symbolKind e ∧ Decodes s t ∧ t.out = s.out) := decSymLoop_sat _ s

theorem outPut_decodes (e : Event) (s : State) : Decodes s { s with out := s.out ++ [e] } :=
  ⟨rfl, .refl _, List.prefix_append _ _, id⟩

/-- The error kinds of a block's symbols. -/
def phaseKind (k : ErrKind) : Prop := symbolKind k ∨ k = .format

theorem nameLoop_sat : ∀ (k : Nat) (s : State),
    Sat (nameLoop k) s (fun _ t => Decodes s t ∧ t.dt.sub t.cur ≠ .absent) (fun e t => phaseKind e ∧ Decodes s t)
  | 0, s => ⟨.inl (.inl rfl), .refl s⟩
  | k + 1, s => by
    refine Sat.bind ((decSym_sat s).weaken (fun _ _ h => h) fun _ _ h => ⟨.inl h.1, h.2.1⟩) fun y t ht => ?_
    split
    · exact ⟨ht.1.1, by rw [ht.2]; simp⟩
    · split
      · exact ⟨.inr rfl, ht.1.1⟩
      · refine Sat.bind (Q := fun _ u => Decodes s u) (ht.1.1.trans (outPut_decodes _ t)) fun _ u hu => ?_
        exact (nameLoop_sat k u).weaken (fun _ _ h => ⟨hu.trans h.1, h.2⟩) fun _ _ h => ⟨h.1, hu.trans h.2⟩

theorem dataLoop_sat : ∀ (k : Nat) (s : State),
    Sat (dataLoop k) s (fun _ t => Decodes s t ∧ t.dt.sub t.cur ≠ .absent) (fun e t => phaseKind e ∧ Decodes s t)
  | 0, s => ⟨.inl (.inl rfl), .refl s⟩
  | k + 1, s => by
    refine Sat.bind ((decSym_sat s).weaken (fun _ _ h => h) fun _ _ h => ⟨.inl h.1, h.2.1⟩) fun y t ht => ?_
    have hleaf : t.dt.sub t.cur ≠ .absent := by rw [ht.2]; simp
    split
    · refine Sat.bind (Q := fun _ u => Decodes s u) (ht.1.1.trans (outPut_decodes _ t)) fun _ u hu => ?_
      exact (dataLoop_sat k u).weaken (fun _ _ h => ⟨hu.trans h.1, h.2⟩) fun _ _ h => ⟨h.1, hu.trans h.2⟩
    · split
      · exact ⟨ht.1.1.trans (outPut_decodes _ t), hleaf⟩
      · split
        · exact ⟨ht.1.1.trans (outPut_decodes _ t), hleaf⟩
        · exact ⟨.inr rfl, ht.1.1⟩

/-- The error kinds of a block (60_exceptions.md R256). -/
def blockKind (k : ErrKind) : Prop := phaseKind k ∨ headerKind k ∨ k = .codeOverflow

/-- What decoding a block leaves, ended or raised: the fields it writes, and the streams moved forward. -/
def BlockFrame (s t : State) : Prop :=
  t = { s with ll := t.ll, ct := t.ct, dt := t.dt, cur := t.cur, bsr := t.bsr, out := t.out, rsym := t.rsym, hit := t.hit, more := t.more } ∧
    BsrStep s.bsr t.bsr ∧ s.out <+: t.out

theorem BlockFrame.refl (s : State) : BlockFrame s s := ⟨rfl, .refl _, List.prefix_refl _⟩

theorem BlockFrame.trans {a b c : State} (h : BlockFrame a b) (h' : BlockFrame b c) : BlockFrame a c :=
  ⟨by rw [h'.1, h.1], h.2.1.trans h'.2.1, h.2.2.trans h'.2.2⟩

theorem Decodes.frame {s t : State} (h : Decodes s t) : BlockFrame s t := ⟨by rw [h.1], h.2.1, h.2.2.1⟩

/-- The tables a decoded block leaves (10_state.md R45). -/
structure BlockTables (t : State) : Prop where
  llMax : t.ll.length ≤ Config.llMax
  llLen : ∀ e ∈ t.ll, 1 ≤ e.len.toNat ∧ e.len.toNat ≤ Config.maxLen
  ctMax : t.ct.length ≤ Config.ctMax
  ctLen : ∀ e ∈ t.ct, e.code.len.toNat ≤ Config.maxLen ∧ e.code.val.toNat < 2 ^ e.code.len.toNat
  canon : assign (canonicalSort (lenPairs t.ll)) = some t.ct
  root  : ∃ l r, t.dt = .inner l r
  cur   : t.dt.sub t.cur ≠ .absent

/-- `SEQ.DecodeBlock()` (43_sequencer.md R214). -/
theorem decodeBlock_sat (s : State) :
    Sat decodeBlock s (fun _ t => BlockFrame s t ∧ (t.rsym = s.rsym ∧ t.hit = s.hit ∧ t.more = s.more) ∧ BlockTables t)
      (fun k t => blockKind k ∧ BlockFrame s t) := by
  refine Sat.bind ((readHeader_sat s).weaken (fun _ _ h => h) fun k t h => ⟨.inr (.inl h.1), by rw [h.2.1], h.2.2, by rw [h.2.1]⟩) fun _ t ht => ?_
  obtain ⟨⟨t1, t2⟩, t3, t4⟩ := ht
  have ft : BlockFrame s t := ⟨by rw [t1], t2, by rw [t1]⟩
  have hr : Sat rebuild t
      (fun _ u => (u = { t with ct := u.ct, dt := u.dt, cur := [] } ∧ TreeHolds u.dt u.ct ∧ u.ct.length = t.ll.length ∧
        (∀ e ∈ u.ct, e.code.len.toNat ≤ Config.maxLen ∧ e.code.val.toNat < 2 ^ e.code.len.toNat)) ∧
        assign (canonicalSort (lenPairs t.ll)) = some u.ct)
      (fun k u => blockKind k ∧ BlockFrame s u) := by
    have h1 := rebuild_sat t4
    have h2 := rebuild_frame t
    unfold Sat at *
    cases hh : rebuild t with
    | ok a u => rw [hh] at h1 h2; exact ⟨h1, h2.2⟩
    | error k u => rw [hh] at h1; exact ⟨.inr (.inr h1.1), by rw [h1.2]; exact ft⟩
  refine Sat.bind hr fun _ u hu => ?_
  obtain ⟨⟨u1, u2, u3, u4⟩, u5⟩ := hu
  have fu : BlockFrame s u := ft.trans ⟨by rw [u1], by rw [u1]; exact .refl _, by rw [u1]⟩
  obtain ⟨l, r, hroot⟩ := (u2.2 []).mpr (.inl rfl)
  rw [sub_nil] at hroot
  refine Sat.bind (Q := fun v w => v = u ∧ w = u) ⟨rfl, rfl⟩ fun v w hvw => ?_
  rw [hvw.1, hvw.2]
  refine Sat.bind ((nameLoop_sat _ u).weaken (fun _ _ h => h) fun k w h => ⟨.inl h.1, fu.trans h.2.frame⟩) fun _ w hw => ?_
  refine Sat.bind (Q := fun _ x => Decodes u x ∧ x.dt.sub x.cur ≠ .absent) ⟨hw.1.trans (outPut_decodes _ w), hw.2⟩ fun _ x hx => ?_
  refine Sat.bind (Q := fun y z => y = x ∧ z = x) ⟨rfl, rfl⟩ fun y z hyz => ?_
  rw [hyz.1, hyz.2]
  refine (dataLoop_sat _ x).weaken (fun _ z hz => ?_) fun k z h => ⟨.inl h.1, fu.trans (hx.1.trans h.2).frame⟩
  have hd : Decodes u z := hx.1.trans hz.1
  have e1 : z.ll = t.ll := by rw [hd.1, u1]
  have e2 : z.ct = u.ct := by rw [hd.1]
  have e3 : z.dt = u.dt := by rw [hd.1]
  refine ⟨fu.trans hd.frame, ⟨by rw [hd.1, u1, t1], by rw [hd.1, u1, t1], by rw [hd.1, u1, t1]⟩, ?_⟩
  exact ⟨e1 ▸ t3, e1 ▸ t4, by rw [e2, u3]; exact t3, e2 ▸ u4, by rw [e1, e2]; exact u5, ⟨l, r, e3 ▸ hroot⟩, hz.2⟩

/-- The loop of DECALL (43_sequencer.md R215). -/
theorem blockLoop_sat : ∀ (k : Nat) (s : State),
    Sat (blockLoop k) s (fun _ t => (BlockFrame s t ∧ t.more = s.more) ∧ BlockTables t) (fun e t => blockKind e ∧ BlockFrame s t)
  | 0, s => ⟨.inl (.inl (.inl rfl)), .refl s⟩
  | k + 1, s => by
    refine Sat.bind ((decodeBlock_sat s).weaken (fun _ _ h => h) fun _ _ h => h) fun y t ht => ?_
    obtain ⟨t1, ⟨-, -, t2⟩, t3⟩ := ht
    refine Sat.bind (Q := fun _ u => (BlockFrame s u ∧ u.more = s.more) ∧ BlockTables u)
      ⟨⟨t1.trans ⟨rfl, .refl _, List.prefix_refl _⟩, t2⟩, ⟨t3.llMax, t3.llLen, t3.ctMax, t3.ctLen, t3.canon, t3.root, t3.cur⟩⟩ fun _ u hu => ?_
    split
    · exact (blockLoop_sat k u).weaken (fun _ _ h => ⟨⟨hu.1.1.trans h.1.1, h.1.2.trans hu.1.2⟩, h.2⟩) fun _ _ h => ⟨h.1, hu.1.1.trans h.2⟩
    · exact hu

/-! ### Encoding -/

/-- What encoding a file leaves, ended or raised. -/
def FileFrame (s t : State) : Prop :=
  t = { s with freq := t.freq, ct := t.ct, bsw := t.bsw, pomf := t.pomf, paend := t.paend, written := t.written } ∧ BswStep s.bsw t.bsw

theorem FileFrame.refl (s : State) : FileFrame s s := ⟨rfl, .refl _⟩

theorem FileFrame.trans {a b c : State} (h : FileFrame a b) (h' : FileFrame b c) : FileFrame a c :=
  ⟨by rw [h'.1, h.1], h.2.trans h'.2⟩

theorem FileFrame.writes {s t : State} (h : t = { s with bsw := t.bsw } ∧ BswStep s.bsw t.bsw) : FileFrame s t :=
  ⟨by rw [h.1], h.2⟩

/-- Every symbol ENCFILE counts is in the alphabet. -/
theorem countedSymbols_lt {f : File} : ∀ y ∈ countedSymbols f, y.toNat < Config.nsym := by
  intro y hy
  simp only [countedSymbols, List.mem_append, List.mem_map, List.mem_cons, List.not_mem_nil, or_false] at hy
  rcases hy with ⟨b, -, rfl⟩ | ⟨b, -, rfl⟩ | rfl | rfl | rfl
  · exact (literal_lt b).trans (by decide)
  · exact (literal_lt b).trans (by decide)
  all_goals decide

theorem codeOfPresent_sat (y : Sym) (s : State) :
    Sat (codeOfPresent y) s (fun _ t => t = s) (fun k t => k = .illegalCommand ∧ t = s) := by
  unfold Sat codeOfPresent
  cases codeOf s.ct y with
  | none => exact ⟨rfl, rfl⟩
  | some c => rfl

/-- `SEQ.EncodeFile()` (43_sequencer.md R210): its table is one BUILD made. -/
theorem encodeFile_sat (tb : Config.TieBreak) (s : State) :
    Sat (encodeFile tb) s (fun _ t => FileFrame s t ∧ ∃ f, buildTable tb f = .ok t.ct)
      (fun k t => (k = .illegalCommand ∨ k = .capacity) ∧ FileFrame s t) := by
  have hb : ∀ b : Byte, (literal b).toNat < Config.nsym := fun b => (literal_lt b).trans (by decide)
  have hlit : ∀ l : List Byte, ∀ y ∈ l.map literal, y.toNat < Config.nsym := by
    intro l y hy
    obtain ⟨b, -, rfl⟩ := List.mem_map.mp hy
    exact hb b
  have hctl : ∀ y ∈ [Config.filenameEnd, Config.oneMoreFile, Config.archiveEnd], y.toNat < Config.nsym := by decide
  have ff : ∀ {a b : State}, b = { a with freq := b.freq } → FileFrame a b := fun {a b} h => ⟨by rw [h], by rw [h]; exact .refl _⟩
  refine Sat.bind (Q := fun v t => v = s ∧ t = s) ⟨rfl, rfl⟩ fun v t hvt => ?_
  rw [hvt.1, hvt.2]
  refine Sat.bind (Q := fun _ t => FileFrame s t) ⟨rfl, .refl _⟩ fun _ t0 h0 => ?_
  refine Sat.bind ((freqIncAll_sat _ t0 (hlit _)).weaken (fun _ _ h => h) fun k u h => ⟨.inr h.1, h0.trans (ff h.2)⟩) fun _ t1 h1 => ?_
  have f1 := h0.trans (ff h1.1)
  refine Sat.bind ((freqIncAll_sat _ t1 (hlit _)).weaken (fun _ _ h => h) fun k u h => ⟨.inr h.1, f1.trans (ff h.2)⟩) fun _ t2 h2 => ?_
  have f2 := f1.trans (ff h2.1)
  refine Sat.bind ((freqIncAll_sat _ t2 hctl).weaken (fun _ _ h => h) fun k u h => ⟨.inr h.1, f2.trans (ff h.2)⟩) fun _ t3 h3 => ?_
  have f3 := f2.trans (ff h3.1)
  obtain ⟨t, ht⟩ := buildTable_isOk (tb := tb) (f := t3.freq) (presentSymbols_ne_nil.mpr
    ⟨256, by decide, h3.2.2 Config.filenameEnd (by simp) (by decide)⟩)
  refine Sat.bind (Q := fun _ u => FileFrame s u ∧ u.ct = t) ?_ fun _ t4 h4 => ?_
  · unfold Sat
    simp only [build, ht]
    exact ⟨f3.trans ⟨rfl, .refl _⟩, trivial⟩
  have step : ∀ {a b : State}, (FileFrame s a ∧ a.ct = t) → (b = { a with bsw := b.bsw } ∧ BswStep a.bsw b.bsw) → FileFrame s b ∧ b.ct = t :=
    fun {a b} ha hb => ⟨ha.1.trans (.writes hb), by rw [hb.1]; exact ha.2⟩
  have fail : ∀ {a : State}, (FileFrame s a ∧ a.ct = t) → ∀ k u, (WritesOnly a).2 k u → (k = .illegalCommand ∨ k = .capacity) ∧ FileFrame s u :=
    fun {a} ha k u hu => ⟨.inl hu.1, ha.1.trans (.writes hu.2)⟩
  refine Sat.bind (Q := fun _ u => FileFrame s u ∧ u.ct = t) ?_ fun _ t5 h5 => ?_
  · unfold Sat
    rw [emitTerminator_apply]
    exact step h4 ⟨rfl, appendBits_step _ _⟩
  refine WritesOnly.bind (writeHeader_sat t5) (fail h5) fun t6 h6 => ?_
  replace h6 := step h5 h6
  refine WritesOnly.bind (encSyms_sat _ t6) (fail h6) fun t7 h7 => ?_
  replace h7 := step h6 h7
  refine WritesOnly.bind (encSym_sat _ t7) (fail h7) fun t8 h8 => ?_
  replace h8 := step h7 h8
  refine WritesOnly.bind (encSyms_sat _ t8) (fail h8) fun t9 h9 => ?_
  replace h9 := step h8 h9
  refine Sat.bind ((codeOfPresent_sat _ t9).weaken (fun _ _ h => h) fun k u h => ⟨.inl h.1, by rw [h.2]; exact h9.1⟩) fun m u hu => ?_
  subst hu
  refine Sat.bind ((codeOfPresent_sat _ u).weaken (fun _ _ h => h) fun k w h => ⟨.inl h.1, by rw [h.2]; exact h9.1⟩) fun e w hw => ?_
  subst hw
  exact ⟨h9.1.trans ⟨rfl, .refl _⟩, t3.freq, by rw [ht]; exact congrArg _ h9.2.symm⟩

/-! ### The commands' procedures -/

theorem rdbitsProc_sat (n : BitVec 9) (s : State) :
    Sat (rdbitsProc n) s (fun _ t => t = { s with rdata := t.rdata, bsr := t.bsr } ∧ BsrStep s.bsr t.bsr)
      (fun k t => k = .endOfStream ∧ t = { s with bsr := t.bsr } ∧ BsrStep s.bsr t.bsr) := by
  refine Sat.bind ((Sat.lift (bsrRead_sat n.toNat s.bsr)).weaken (fun _ _ h => h) fun k t h => ⟨h.1.1, h.2, h.1.2⟩) fun v t h => ?_
  exact ⟨by rw [h.2], h.1⟩

theorem writerProc_sat {p : Proc Unit} {s : State} (h : Sat p s (WritesOnly s).1 (WritesOnly s).2) :
    Sat (do checkOpen; p) s (WritesOnly s).1 (WritesOnly s).2 := by
  refine Sat.bind ((checkOpen_sat s).weaken (fun _ _ h => h) fun k t h => ⟨h.1, by rw [h.2], by rw [h.2]; exact .refl _⟩) fun _ t ht => ?_
  rw [ht.1]
  exact h

theorem wrbitsProc_sat (n : BitVec 9) (s : State) : Sat (wrbitsProc n) s (WritesOnly s).1 (WritesOnly s).2 := by
  refine writerProc_sat (p := do let s ← get; onBsw (bswWrite s.wdata n.toNat)) ?_
  refine Sat.bind (Q := fun v t => v = s ∧ t = s) ⟨rfl, rfl⟩ fun v t h => ?_
  rw [h.1, h.2]
  exact ⟨rfl, appendBits_step _ _⟩

theorem hdrwrProc_sat (s : State) : Sat hdrwrProc s (WritesOnly s).1 (WritesOnly s).2 := writerProc_sat (writeHeader_sat s)

theorem encsymProc_sat (y : Sym) (s : State) : Sat (encsymProc y) s (WritesOnly s).1 (WritesOnly s).2 := writerProc_sat (encSym_sat y s)

/-- A procedure that may close the writer. -/
theorem wrflushProc_sat (s : State) :
    Sat wrflushProc s (fun _ t => t = { s with bsw := t.bsw } ∧ s.bsw.sink <+: t.bsw.sink ∧ t.bsw.clean)
      (fun k t => k = .illegalCommand ∧ t = s) := by
  refine Sat.bind ((checkOpen_sat s).weaken (fun _ _ h => h) fun k t h => h) fun _ t ht => ?_
  rw [ht.1]
  exact ⟨rfl, bswDispose_sink _, bswDispose_clean _⟩

theorem enccloseProc_sat (s : State) :
    Sat enccloseProc s (fun _ t => t = { s with bsw := t.bsw } ∧ s.bsw.sink <+: t.bsw.sink ∧ t.bsw.clean)
      (fun k t => k = .illegalCommand ∧ t = s) := by
  refine Sat.bind ((checkOpen_sat s).weaken (fun _ _ h => h) fun k t h => h) fun _ t ht => ?_
  rw [ht.1]
  refine Sat.bind (Q := fun _ u => u = { s with bsw := u.bsw } ∧ s.bsw.sink <+: u.bsw.sink) ?_ fun _ u hu => ?_
  · unfold Sat
    rw [emitTerminator_apply]
    exact ⟨rfl, appendBits_sink _ _⟩
  · exact ⟨by rw [hu.1], hu.2.trans (bswDispose_sink _), bswDispose_clean _⟩

theorem ctrdProc_sat (i : BitVec 9) (s : State) :
    Sat (ctrdProc i) s (fun _ t => t = { s with rsym := t.rsym, rlen := t.rlen, rcode := t.rcode })
      (fun k t => k = .illegalCommand ∧ t = s) := by
  unfold Sat ctrdProc
  cases s.ct[i.toNat]? with
  | none => exact ⟨rfl, rfl⟩
  | some e => rfl

theorem listPush_sat (y : Sym) (l : Len) (s : State) :
    Sat (listPush y l) s
      (fun _ t => t = { s with ll := s.ll ++ [⟨y, l⟩] } ∧ l.toNat ≤ Config.maxLen ∧ s.ll.length < Config.llMax)
      (fun k t => k = .capacity ∧ t = s) := by
  unfold Sat listPush
  by_cases h1 : Config.maxLen < l.toNat
  · simp only [if_pos h1]; exact ⟨trivial, trivial⟩
  · by_cases h2 : Config.llMax ≤ s.ll.length
    · simp only [if_neg h1, if_pos h2]; exact ⟨trivial, trivial⟩
    · simp only [if_neg h1, if_neg h2]; exact ⟨trivial, Nat.not_lt.mp h1, Nat.not_le.mp h2⟩

theorem walkProc_sat (b : BitVec 9) (s : State) :
    Sat (walkProc b) s (fun _ t => t = { s with cur := t.cur, hit := t.hit, rsym := t.rsym } ∧ t.dt.sub t.cur ≠ .absent)
      (fun k t => k = .corruptTree ∧ t = s) := by
  refine Sat.bind (htWalk_sat (direction b) s) fun r t h => ?_
  cases r with
  | some y => exact ⟨by rw [h.1], h.2.1⟩
  | none => exact ⟨by rw [h.1], h.2.1⟩

theorem decsymProc_sat (s : State) :
    Sat decsymProc s
      (fun _ t => t = { s with cur := t.cur, bsr := t.bsr, hit := true, rsym := t.rsym } ∧ BsrStep s.bsr t.bsr ∧ t.dt.sub t.cur ≠ .absent)
      (fun k t => symbolKind k ∧ Decodes s t) := by
  refine Sat.bind ((decSym_sat s).weaken (fun _ _ h => h) fun _ _ h => ⟨h.1, h.2.1⟩) fun y t h => ?_
  obtain ⟨⟨⟨h1, h2, -, -⟩, h4⟩, h5⟩ := h
  refine ⟨?_, h2, by show t.dt.sub t.cur ≠ _; rw [h5]; simp⟩
  rw [h1, h4]

theorem build_sat (tb : Config.TieBreak) (s : State) :
    Sat (build tb) s (fun _ t => t = { s with ct := t.ct } ∧ buildTable tb s.freq = .ok t.ct)
      (fun k t => k = .degenerate ∧ t = s) := by
  unfold Sat
  rcases buildTable_cases tb s.freq with ⟨-, h⟩ | ⟨_, t, h, -⟩
  · simp only [build, h]; exact ⟨trivial, trivial⟩
  · simp only [build, h]; exact ⟨trivial, trivial⟩

theorem encfileProc_sat (tb : Config.TieBreak) (s : State) :
    Sat (encfileProc tb) s (fun _ t => FileFrame s t ∧ ∃ f, buildTable tb f = .ok t.ct)
      (fun k t => (k = .illegalCommand ∨ k = .capacity) ∧ FileFrame s t) := by
  refine Sat.bind ((checkOpen_sat s).weaken (fun _ _ h => h) fun k t h => ⟨.inl h.1, by rw [h.2]; exact .refl _⟩) fun _ t ht => ?_
  rw [ht.1]
  exact encodeFile_sat tb s

theorem decblockProc_sat (s : State) :
    Sat decblockProc s (fun _ t => BlockFrame s t ∧ BlockTables t) (fun k t => blockKind k ∧ BlockFrame s t) := by
  refine Sat.bind (decodeBlock_sat s) fun y t h => ?_
  obtain ⟨h1, -, h3⟩ := h
  exact ⟨h1.trans ⟨rfl, .refl _, List.prefix_refl _⟩, ⟨h3.llMax, h3.llLen, h3.ctMax, h3.ctLen, h3.canon, h3.root, h3.cur⟩⟩

theorem decallProc_sat (s : State) :
    Sat decallProc s (fun _ t => BlockFrame s t ∧ (BlockTables t ∨ t = { s with more := false }))
      (fun k t => blockKind k ∧ BlockFrame s t) := by
  by_cases h : srcEmpty s.bsr = true ∧ s.bsr.rcnt = 0
  · have : decallProc s = .ok () { s with more := false } := by
      simp only [decallProc, proc_bind, proc_get]
      rw [if_pos h]; rfl
    unfold Sat
    rw [this]
    exact ⟨⟨rfl, .refl _, List.prefix_refl _⟩, .inr rfl⟩
  · have : decallProc s = (do blockLoop (bitBudget s.bsr + 1); setMore false) s := by
      simp only [decallProc, proc_bind, proc_get]
      rw [if_neg h, proc_bind]
    unfold Sat
    rw [this]
    refine Sat.bind (blockLoop_sat _ s) fun _ t ht => ?_
    obtain ⟨⟨h1, -⟩, h3⟩ := ht
    exact ⟨h1.trans ⟨rfl, .refl _, List.prefix_refl _⟩, .inl ⟨h3.llMax, h3.llLen, h3.ctMax, h3.ctLen, h3.canon, h3.root, h3.cur⟩⟩

end Sys2Proof.Machine
end

