-- ==== Sys2Proof/Laws/Optimal.lean ====
section
/-! SUPPORT. Why the lengths BUILD makes cost least, for every tie-break (spec 41_tree_engine.md R155 to R159, R174): lengths that any
prefix-free code has satisfy Kraft's inequality, and merging the two least nodes loses nothing among such lengths. -/

namespace Sys2Proof.Machine

open Sys2Proof.Config (BTree QNode TieBreak)

/-! ### Kraft's inequality -/

/-- The part of the unit interval that a code of length l takes (R164 e). -/
def share (l : Nat) : ℚ := (1 / 2) ^ l

theorem share_pos (l : Nat) : 0 < share l := by unfold share; positivity

theorem share_zero : share 0 = 1 := by simp [share]

theorem share_succ (l : Nat) : 2 * share (l + 1) = share l := by unfold share; ring

theorem shares_nonneg (ls : List Nat) : 0 ≤ (ls.map share).sum :=
  List.sum_nonneg fun x hx => by obtain ⟨l, -, rfl⟩ := List.mem_map.mp hx; exact (share_pos l).le

/-- Neither of two bit strings starts the other. -/
def apart (a b : List Bool) : Prop := ¬ a <+: b ∧ ¬ b <+: a

/-- The tails of the strings that start with the bit b. -/
def tailsOf (b : Bool) (cs : List (List Bool)) : List (List Bool) :=
  cs.filterMap fun c => match c with
    | [] => none
    | x :: c' => if x = b then some c' else none

theorem mem_tailsOf {b : Bool} {cs : List (List Bool)} {c : List Bool} : c ∈ tailsOf b cs ↔ b :: c ∈ cs := by
  simp only [tailsOf, List.mem_filterMap]
  constructor
  · rintro ⟨d, hd, h⟩
    cases d with
    | nil => simp at h
    | cons x d =>
      simp only [Option.ite_none_right_eq_some, Option.some.injEq] at h
      obtain ⟨rfl, rfl⟩ := h
      exact hd
  · intro h; exact ⟨_, h, by simp⟩

theorem tailsOf_apart {b : Bool} {cs : List (List Bool)} (h : cs.Pairwise apart) : (tailsOf b cs).Pairwise apart := by
  refine List.Pairwise.filterMap _ ?_ h
  intro a a' ha c hc c' hc'
  cases a with
  | nil => simp at hc
  | cons x a =>
    cases a' with
    | nil => simp at hc'
    | cons x' a' =>
      simp only [Option.ite_none_right_eq_some, Option.some.injEq] at hc hc'
      obtain ⟨rfl, rfl⟩ := hc
      obtain ⟨rfl, rfl⟩ := hc'
      simpa [apart, List.cons_prefix_cons] using ha

theorem shares_split {cs : List (List Bool)} (h : [] ∉ cs) :
    2 * ((cs.map List.length).map share).sum =
      (((tailsOf false cs).map List.length).map share).sum + (((tailsOf true cs).map List.length).map share).sum := by
  induction cs with
  | nil => simp [tailsOf]
  | cons c cs ih =>
    have ih := ih fun hm => h (by simp [hm])
    cases c with
    | nil => simp at h
    | cons x c =>
      have hs := share_succ c.length
      cases x <;>
        simp only [tailsOf, List.filterMap_cons, List.map_cons, List.sum_cons, List.length_cons, if_true, Bool.false_eq_true,
          Bool.true_eq_false, if_false] at ih ⊢ <;> linarith

/-- Kraft's inequality: the shares of a prefix-free set of bit strings fit into one. -/
theorem kraft_of_apart : ∀ (n : Nat) (cs : List (List Bool)), (∀ c ∈ cs, c.length ≤ n) → cs.Pairwise apart →
    ((cs.map List.length).map share).sum ≤ 1
  | n, cs, hn, h => by
    by_cases h0 : [] ∈ cs
    · obtain ⟨a, b, rfl⟩ := List.append_of_mem h0
      have ha : a = [] := by
        refine List.eq_nil_iff_forall_not_mem.mpr fun c hc => ?_
        exact ((List.pairwise_append.mp h).2.2 c hc [] (by simp)).2 (List.nil_prefix)
      have hb : b = [] := by
        refine List.eq_nil_iff_forall_not_mem.mpr fun c hc => ?_
        exact ((List.pairwise_cons.mp (List.pairwise_append.mp h).2.1).1 c hc).1 (List.nil_prefix)
      subst ha hb
      simp [share_zero]
    · cases n with
      | zero =>
        have : cs = [] := List.eq_nil_iff_forall_not_mem.mpr fun c hc => by
          have := hn c hc
          exact h0 (List.eq_nil_of_length_eq_zero (Nat.le_zero.mp this) ▸ hc)
        simp [this]
      | succ n =>
        have ht : ∀ b, (((tailsOf b cs).map List.length).map share).sum ≤ 1 := fun b =>
          kraft_of_apart n _ (fun c hc => by simpa using hn _ (mem_tailsOf.mp hc)) (tailsOf_apart h)
        have := shares_split h0
        linarith [ht false, ht true]

/-! ### Merging the two least weights -/

/-- Lengths whose shares fit into one. -/
def fits (ls : List Nat) : Prop := (ls.map share).sum ≤ 1

theorem fits_perm {a b : List Nat} (h : a.Perm b) : fits a ↔ fits b := by
  unfold fits; rw [(h.map share).sum_eq]

/-- The cost of weights with lengths. -/
def cost (p : List (Nat × Nat)) : Nat := (p.map fun x => x.1 * x.2).sum

@[simp] theorem cost_cons (x : Nat × Nat) (p : List (Nat × Nat)) : cost (x :: p) = x.1 * x.2 + cost p := by simp [cost]

theorem cost_perm {p p' : List (Nat × Nat)} (h : p.Perm p') : cost p = cost p' := (h.map _).sum_eq

/-- A least weight can be given the greatest length at no cost: lengths are exchanged, weights stay. -/
theorem give_greatest (a : Nat) : ∀ (p : List (Nat × Nat)) (l : Nat), (∀ x ∈ p, a ≤ x.1) →
    ∃ (m : Nat) (p' : List (Nat × Nat)), p'.map Prod.fst = p.map Prod.fst ∧
      (m :: p'.map Prod.snd).Perm (l :: p.map Prod.snd) ∧ cost ((a, m) :: p') ≤ cost ((a, l) :: p) ∧ l ≤ m ∧ ∀ x ∈ p', x.2 ≤ m
  | [], l, _ => ⟨l, [], rfl, .refl _, le_rfl, le_rfl, by simp⟩
  | (w, k) :: p, l, h => by
    have hw : a ≤ w := h (w, k) (by simp)
    have hp : ∀ x ∈ p, a ≤ x.1 := fun x hx => h x (by simp [hx])
    by_cases hk : k ≤ l
    · obtain ⟨m, p', h1, h2, h3, h4, h5⟩ := give_greatest a p l hp
      refine ⟨m, (w, k) :: p', by simp [h1], ?_, ?_, h4, ?_⟩
      · simp only [List.map_cons]
        exact (List.Perm.swap _ _ _).trans ((h2.cons k).trans (List.Perm.swap _ _ _))
      · simp only [cost_cons] at h3 ⊢; omega
      · rintro x hx
        rcases List.mem_cons.mp hx with rfl | hx
        · exact hk.trans h4
        · exact h5 x hx
    · obtain ⟨m, p', h1, h2, h3, h4, h5⟩ := give_greatest a p k hp
      have hl : l ≤ k := (Nat.lt_of_not_le hk).le
      refine ⟨m, (w, l) :: p', by simp [h1], ?_, ?_, hl.trans h4, ?_⟩
      · simp only [List.map_cons]
        exact (List.Perm.swap _ _ _).trans (h2.cons l)
      · simp only [cost_cons] at h3 ⊢
        obtain ⟨d, rfl⟩ := Nat.exists_eq_add_of_le hl
        obtain ⟨e, rfl⟩ := Nat.exists_eq_add_of_le hw
        nlinarith
      · rintro x hx
        rcases List.mem_cons.mp hx with rfl | hx
        · exact hl.trans h4
        · exact h5 x hx

/-- Shares of lengths up to m are multiples of the share of m. -/
theorem shares_multiple (m : Nat) : ∀ ls : List Nat, (∀ l ∈ ls, l ≤ m) → ∃ n : Nat, (ls.map share).sum = n * share m
  | [], _ => ⟨0, by simp⟩
  | l :: ls, h => by
    obtain ⟨n, hn⟩ := shares_multiple m ls fun x hx => h x (by simp [hx])
    obtain ⟨d, rfl⟩ := Nat.exists_eq_add_of_le (h l (by simp))
    refine ⟨2 ^ d + n, ?_⟩
    have : share l = 2 ^ d * share (l + d) := by
      unfold share
      rw [pow_add, mul_comm, mul_assoc, ← mul_pow]; norm_num
    simp only [List.map_cons, List.sum_cons, hn, this]
    push_cast; ring

/-- Lengths up to m fit with one more length m when they fit with any one more length. -/
theorem fits_lower {m k : Nat} {ls : List Nat} (h : ∀ l ∈ ls, l ≤ m) (hf : fits (k :: ls)) : fits (m :: ls) := by
  obtain ⟨n, hn⟩ := shares_multiple m ls h
  unfold fits at *
  simp only [List.map_cons, List.sum_cons] at hf ⊢
  have hm : (2 : ℚ) ^ m * share m = 1 := by unfold share; rw [← mul_pow]; norm_num
  have hp := share_pos m
  have hlt : (n : ℚ) < 2 ^ m := by
    have h1 : (n : ℚ) * share m < 2 ^ m * share m := by rw [hm, ← hn]; linarith [share_pos k]
    exact lt_of_mul_lt_mul_right h1 hp.le
  have hle : (n : ℚ) + 1 ≤ 2 ^ m := by exact_mod_cast hlt
  calc share m + (ls.map share).sum = (n + 1) * share m := by rw [hn]; ring
    _ ≤ 2 ^ m * share m := mul_le_mul_of_nonneg_right hle hp.le
    _ = 1 := hm

/-- The two least weights may be merged: lengths that fit give lengths for the merged weights that fit and cost less by the merged
weight at least. -/
theorem merge_lengths {a b : Nat} {ws : List Nat} {p : List (Nat × Nat)} (hp : (p.map Prod.fst).Perm (a :: b :: ws))
    (ha : ∀ w ∈ b :: ws, a ≤ w) (hb : ∀ w ∈ ws, b ≤ w) (hf : fits (p.map Prod.snd)) :
    ∃ p' : List (Nat × Nat), (p'.map Prod.fst).Perm ((a + b) :: ws) ∧ fits (p'.map Prod.snd) ∧ cost p' + (a + b) ≤ cost p := by
  obtain ⟨⟨a', l⟩, hla, rfl⟩ := List.mem_map.mp (hp.symm.subset (List.mem_cons_self ..))
  have p1 := List.perm_cons_erase hla
  have hp1 : ((p.erase (a', l)).map Prod.fst).Perm (b :: ws) := ((p1.map Prod.fst).symm.trans hp).cons_inv
  obtain ⟨m, q, q1, q2, q3, -, q5⟩ := give_greatest a' (p.erase (a', l)) l fun x hx =>
    ha _ (hp1.subset (List.mem_map.mpr ⟨x, hx, rfl⟩))
  rw [← q1] at hp1
  obtain ⟨⟨b', k⟩, hkb, rfl⟩ := List.mem_map.mp (hp1.symm.subset (List.mem_cons_self ..))
  have p2 := List.perm_cons_erase hkb
  have hp2 : ((q.erase (b', k)).map Prod.fst).Perm ws := ((p2.map Prod.fst).symm.trans hp1).cons_inv
  obtain ⟨n, r, r1, r2, r3, -, r5⟩ := give_greatest b' (q.erase (b', k)) k fun x hx =>
    hb _ (hp2.subset (List.mem_map.mpr ⟨x, hx, rfl⟩))
  have hsnd : (n :: r.map Prod.snd).Perm (q.map Prod.snd) := r2.trans (p2.map Prod.snd).symm
  have hall : (m :: n :: r.map Prod.snd).Perm (p.map Prod.snd) :=
    (hsnd.cons m).trans (q2.trans (p1.map Prod.snd).symm)
  have hnm : n ≤ m := by
    obtain ⟨x, hx, hxn⟩ := List.mem_map.mp (hsnd.subset (List.mem_cons_self ..))
    exact hxn ▸ q5 x hx
  have hfit : fits (n :: n :: r.map Prod.snd) := by
    refine fits_lower ?_ ((fits_perm hall).mpr hf)
    rintro x hx
    rcases List.mem_cons.mp hx with rfl | hx
    · exact le_rfl
    · obtain ⟨y, hy, rfl⟩ := List.mem_map.mp hx; exact r5 y hy
  have hcost : a' * n + (b' * n + cost r) ≤ cost p := by
    have h1 := cost_perm p1
    have h2 := cost_perm p2
    simp only [cost_cons] at h1 h2 q3 r3
    have := Nat.mul_le_mul_left a' hnm
    omega
  cases n with
  | zero =>
    exfalso
    unfold fits at hfit
    simp only [List.map_cons, List.sum_cons, share_zero] at hfit
    linarith [shares_nonneg (r.map Prod.snd)]
  | succ n =>
    refine ⟨(a' + b', n) :: r, ?_, ?_, ?_⟩
    · simp only [List.map_cons]
      exact (r1 ▸ hp2).cons _
    · unfold fits at hfit ⊢
      simp only [List.map_cons, List.sum_cons] at hfit ⊢
      linarith [share_succ n]
    · simp only [cost_cons]
      nlinarith

/-! ### The merged tree -/

/-- The summed counts of a tree's leaves. -/
def treeWeight (c : Sym → Nat) (t : BTree) : Nat := ((leaves t).map c).sum

/-- The summed counts of a tree's leaves, each times its depth. -/
def treeCost (c : Sym → Nat) (t : BTree) : Nat := ((leafDepths 0 t).map fun p => c p.2 * p.1).sum

theorem treeCost_leaf (c : Sym → Nat) (y : Sym) : treeCost c (.leaf y) = 0 := by simp [treeCost, leafDepths]

theorem treeWeight_node (c : Sym → Nat) (l r : BTree) : treeWeight c (.node l r) = treeWeight c l + treeWeight c r := by
  simp [treeWeight, leaves_node]

theorem treeCost_node (c : Sym → Nat) (l r : BTree) :
    treeCost c (.node l r) = treeCost c l + treeCost c r + (treeWeight c l + treeWeight c r) := by
  have key : ∀ t : BTree, ((leafDepths 1 t).map fun p => c p.2 * p.1).sum = treeCost c t + treeWeight c t := by
    intro t
    rw [leafDepths_map t 1]
    simp only [treeCost, treeWeight, leaves, List.map_map, Function.comp_def]
    rw [← List.sum_map_add]
    refine congrArg List.sum (List.map_congr_left fun p _ => by ring)
  have : treeCost c (.node l r) =
      ((leafDepths 1 l).map fun p => c p.2 * p.1).sum + ((leafDepths 1 r).map fun p => c p.2 * p.1).sum := by
    simp [treeCost, leafDepths]
  rw [this, key, key]; ring

/-- Among all lengths that fit, the depths below the nodes of Q in the merged tree cost least, whatever the tie-break. -/
theorem merge_cost (tb : TieBreak) (c : Sym → Nat) : ∀ (k seq : Nat) (q : List QNode) (root : BTree), merge tb k seq q = some root →
    (∀ x ∈ q, x.prio = treeWeight c x.tree) → ∀ p : List (Nat × Nat), (p.map Prod.fst).Perm (q.map QNode.prio) →
    fits (p.map Prod.snd) → treeCost c root ≤ (q.map fun x => treeCost c x.tree).sum + cost p
  | 0, _, _, _, h, _, _, _, _ => by simp [merge] at h
  | k + 1, seq, q, root, h, hw, p, hp, hf => by
    simp only [merge] at h
    rcases extractMin_spec tb q with ⟨-, ha⟩ | ⟨a, ha, hma, -⟩
    · simp [ha] at h
    have pa := List.perm_cons_erase (leastNodes_mem.mp hma).1
    have hca := (pa.map fun x => treeCost c x.tree).sum_eq
    simp only [List.map_cons, List.sum_cons] at hca
    simp only [ha] at h
    rcases extractMin_spec tb (q.erase a) with ⟨-, hb⟩ | ⟨b, hb, hmb, -⟩
    · simp only [hb, Option.some.injEq] at h
      subst h
      omega
    have pb := List.perm_cons_erase (leastNodes_mem.mp hmb).1
    have hcb := (pb.map fun x => treeCost c x.tree).sum_eq
    simp only [List.map_cons, List.sum_cons] at hcb
    simp only [hb] at h
    have pab := pa.trans (pb.cons a)
    obtain ⟨p', e1, e2, e3⟩ := merge_lengths (a := a.prio) (b := b.prio) (hp.trans (pab.map QNode.prio))
      (by
        intro w hw'
        obtain ⟨x, hx, rfl⟩ := List.mem_map.mp (show w ∈ (b :: (q.erase a).erase b).map QNode.prio from hw')
        exact (leastNodes_mem.mp hma).2 x (pa.symm.subset (List.mem_cons_of_mem a (pb.symm.subset hx))))
      (by
        intro w hw'
        obtain ⟨x, hx, rfl⟩ := List.mem_map.mp hw'
        exact (leastNodes_mem.mp hmb).2 x (pb.symm.subset (List.mem_cons_of_mem b hx))) hf
    have hwa := hw a (pab.symm.subset (by simp))
    have hwb := hw b (pab.symm.subset (by simp))
    have ih := merge_cost tb c k (seq + 1) _ root h (by
      intro x hx
      rcases List.mem_append.mp hx with hx | hx
      · exact hw x (pab.symm.subset (by simp [hx]))
      · obtain rfl := List.mem_singleton.mp hx
        simp only [treeWeight_node, hwa, hwb]) p' (by
      rw [List.map_append]
      exact e1.trans (by simpa using (List.perm_append_singleton _ _).symm)) e2
    simp only [List.map_append, List.sum_append, List.map_cons, List.map_nil, List.sum_cons, List.sum_nil, treeCost_node] at ih
    omega

/-! ### The table -/

/-- The table BUILD makes costs least among all codes in which no present symbol's code starts another's (R174). -/
theorem buildTable_optimal {tb : TieBreak} {f : Vector Count Config.nsym} {t : List CodeEntry} (h : buildTable tb f = .ok t)
    (c : Sym → List Bool) (hc : t.Pairwise fun a b => apart (c a.sym) (c b.sym)) :
    (t.map fun e => countOf f e.sym * e.code.len.toNat).sum ≤ (t.map fun e => countOf f e.sym * (c e.sym).length).sum := by
  obtain ⟨root, hm, ht⟩ := buildTable_merge h
  have hprio : ∀ x ∈ makeLeaves f, ∃ y, x.prio = countOf f y ∧ x.tree = .leaf y := by
    intro x hx
    obtain ⟨k, hk⟩ := List.getElem?_of_mem hx
    obtain ⟨y, hy, -, -, rfl⟩ := makeLeaves_getElem?.mp hk
    refine ⟨BitVec.ofNat Config.symW y, ?_, rfl⟩
    rw [countOf_ofNat hy]
  have h0 : ((makeLeaves f).map fun x => treeCost (countOf f) x.tree).sum = 0 := by
    refine List.sum_eq_zero fun n hn => ?_
    obtain ⟨x, hx, rfl⟩ := List.mem_map.mp hn
    obtain ⟨y, -, hy⟩ := hprio x hx
    rw [hy, treeCost_leaf]
  have hkey := merge_cost tb (countOf f) _ _ _ root hm
    (by
      intro x hx
      obtain ⟨y, h1, h2⟩ := hprio x hx
      simp [h1, h2, treeWeight, leaves_leaf])
    (t.map fun e => (countOf f e.sym, (c e.sym).length))
    (by
      have e1 : (makeLeaves f).map QNode.prio = ((makeLeaves f).flatMap fun n => leaves n.tree).map (countOf f) := by
        generalize makeLeaves f = q at hprio
        induction q with
        | nil => rfl
        | cons x q ih =>
          obtain ⟨y, h1, h2⟩ := hprio x (by simp)
          have := ih fun z hz => hprio z (by simp [hz])
          simp [h1, h2, leaves_leaf, this]
      rw [e1, makeLeaves_leaves]
      simpa [Function.comp_def] using (buildTable_syms h).map (countOf f))
    (by
      have := kraft_of_apart (((t.map fun e => (c e.sym).length)).sum) (t.map fun e => c e.sym)
        (by
          intro d hd
          obtain ⟨e, he, rfl⟩ := List.mem_map.mp hd
          exact List.le_sum_of_mem (List.mem_map.mpr ⟨e, he, rfl⟩))
        (List.pairwise_map.mpr hc)
      simpa [fits, Function.comp_def] using this)
  have hcost : treeCost (countOf f) root = (t.map fun e => countOf f e.sym * e.code.len.toNat).sum := by
    have := ((canonicalSort_perm (leafDepths 0 root)).map fun p => countOf f p.2 * p.1).sum_eq
    rw [← ht] at this
    simpa [treeCost, CodeEntry.pair, Function.comp_def] using this.symm
  rw [h0, hcost] at hkey
  simpa [cost, Function.comp_def] using hkey

end Sys2Proof.Machine
end

