-- ==== Sys2Proof/Laws/PerInstr.lean ====
section
/-! SUPPORT. The family EncodedFields: what the word of a command holds, field by field (spec 30_encoding.md R90 to R92). -/

namespace Sys2Proof.Laws.EncodedFields

/-- The word of a command has its opcode in bits 31:24, zeros in bits 23:21 and 11:9, operand B in bits 20:12 and operand A in bits 8:0. -/
def Statement (i : Instr) : Prop :=
  (encode i).extractLsb' 24 8 = i.opcode ∧ (encode i).extractLsb' 21 3 = 0 ∧ (encode i).extractLsb' 12 9 = i.bOperand ∧
    (encode i).extractLsb' 9 3 = 0 ∧ (encode i).extractLsb' 0 9 = i.aOperand

theorem of_packWord (i : Instr) : Statement i := by
  refine ⟨opField_packWord _ _ _, ?_, bField_packWord _ _ _, ?_, aField_packWord _ _ _⟩ <;>
  · refine BitVec.eq_of_getLsbD_eq fun j hj => ?_
    rw [encode_eq_packWord, BitVec.getLsbD_extractLsb', packWord_getLsbD]
    interval_cases j <;> simp

theorem reset : Statement .reset := of_packWord _
theorem rdbits (n : BitVec 9) : Statement (.rdbits n) := of_packWord _
theorem wrbits (n : BitVec 9) : Statement (.wrbits n) := of_packWord _
theorem wrflush : Statement .wrflush := of_packWord _
theorem fclr : Statement .fclr := of_packWord _
theorem finc (y : BitVec 9) : Statement (.finc y) := of_packWord _
theorem fset (y : BitVec 9) : Statement (.fset y) := of_packWord _
theorem fget (y : BitVec 9) : Statement (.fget y) := of_packWord _
theorem build : Statement .build := of_packWord _
theorem ctrd (k : BitVec 9) : Statement (.ctrd k) := of_packWord _
theorem lclr : Statement .lclr := of_packWord _
theorem lpush (y l : BitVec 9) : Statement (.lpush y l) := of_packWord _
theorem rebuild : Statement .rebuild := of_packWord _
theorem walk (b : BitVec 9) : Statement (.walk b) := of_packWord _
theorem hdrwr : Statement .hdrwr := of_packWord _
theorem hdrrd : Statement .hdrrd := of_packWord _
theorem encsym (y : BitVec 9) : Statement (.encsym y) := of_packWord _
theorem decsym : Statement .decsym := of_packWord _
theorem encfile : Statement .encfile := of_packWord _
theorem encclose : Statement .encclose := of_packWord _
theorem decblock : Statement .decblock := of_packWord _
theorem decall : Statement .decall := of_packWord _

end Sys2Proof.Laws.EncodedFields
end

