-- ==== Sys2Proof/Tests/Slice0.lean ====
section
/-! SUPPORT. Tests: the operand checks, words written out from the spec's encodings, one step of every command against the
values of spec/95_test_vectors.md (V<n>) and the rules' examples, and for every statement with hypotheses a witness that
meets them. -/

namespace Sys2Proof.Tests

-- In order: a thread for each of these evaluations would pass the memory limit when the package is one text.
set_option Elab.async false

open Sys2Proof Sys2Proof.Machine

/-! ### Helpers -/

/-- A view of the next state; none where the step stops. -/
def after {α : Type} (o : Host.Outcome State Fault Refusal) (f : State → α) : Option α :=
  match o with
  | .next t => some (f t)
  | .fault _ => none
  | .refused _ => none

theorem next_of_after {α : Type} {o : Host.Outcome State Fault Refusal} {f : State → α} (h : (after o f).isSome = true) :
    ∃ t, o = .next t := by
  cases o with
  | next t => exact ⟨t, rfl⟩
  | fault r => cases h
  | refused r => cases h

/-- The states after each command of a list. -/
def runAll : List Instr → State → Host.Outcome State Fault Refusal
  | [], s => .next s
  | i :: is, s =>
    match exec i s with
    | .next t => runAll is t
    | .fault r => .fault r
    | .refused r => .refused r

/-- FAULT and ERR, all that a trap leaves specified of STATUS. -/
def errorOf (s : State) : Bool × BitVec 3 := (s.fault, s.err)

/-- A reset state with the given counts. -/
def counts (l : List (BitVec 9 × Nat)) : State :=
  l.foldl (fun s p => s.setFreq p.1 (BitVec.ofNat 64 p.2)) State.reset

/-- A reset state with the given archive bytes. -/
def archive (bs : List Byte) : State := { State.reset with bsr := ⟨bs, 0, 0, false⟩ }

/-- A reset state with the given (symbol, length) pairs in LL. -/
def lens (l : List (BitVec 9 × BitVec 9)) : State := { State.reset with ll := l.map fun p => ⟨p.1, p.2⟩ }

/-- A reset state with the table and tree that REBUILD makes of the given pairs. -/
def rebuilt (l : List (BitVec 9 × BitVec 9)) : State :=
  match assign (canonicalSort (lenPairs (lens l).ll)) with
  | none => lens l
  | some t => { lens l with ct := t, dt := treeOf t }

/-- A table entry written (symbol, length, code value). -/
def row (e : CodeEntry) : Nat × Nat × Nat := (e.sym.toNat, e.code.len.toNat, e.code.val.toNat)

/-- A length list written as pairs. -/
def pairs (l : List LenEntry) : List (Nat × Nat) := l.map fun e => (e.sym.toNat, e.len.toNat)

/-- The counts of the source's scenario (V1). -/
def v1 : State := counts [(97, 45), (98, 13), (99, 12), (100, 16), (101, 9), (102, 5)]

/-- The pairs of V1's table, in V8's reversed order. -/
def v8 : List (BitVec 9 × BitVec 9) := [(102, 4), (101, 4), (100, 3), (99, 3), (98, 3), (97, 1)]

/-- V25's 14 bytes: the header of V1's table, the codes of 97, 98, 102 and padding. -/
def v25 : List Byte := [0x06, 0xC2, 0x88, 0x19, 0x43, 0xA6, 0x8C, 0x99, 0x00, 0x00, 0x06, 0x08, 0x90, 0x07]

/-- V27's archive of the files x = [41] and y = []. -/
def v27 : List Byte :=
  [0x05, 0x00, 0x06, 0x14, 0x18, 0x04, 0x0F, 0x80, 0x01, 0x02, 0xCE, 0x24, 0x90, 0x07, 0x60, 0x40, 0x81, 0x00, 0x08, 0xE0]

/-- A reset state with the given host actions pending. -/
def scripted (l : List HostAction) : State := { State.reset with script := l }

/-! ### Operand ranges: ill-formed commands are refused (R94) -/

theorem test_wf_refuses_widths : (Instr.rdbits 0).wf = false ∧ (Instr.rdbits 65).wf = false ∧ (Instr.wrbits 0).wf = false ∧
    (Instr.wrbits 65).wf = false := by decide
theorem test_wf_refuses_symbols : (Instr.finc 259).wf = false ∧ (Instr.fset 259).wf = false ∧ (Instr.fget 259).wf = false := by
  decide
theorem test_wf_refuses_length_zero : (Instr.lpush 97 0).wf = false := by decide
theorem test_wf_refuses_walk_two : (Instr.walk 2).wf = false := by decide
theorem test_wf_takes_the_edges : (Instr.rdbits 64).wf = true ∧ (Instr.wrbits 1).wf = true ∧ (Instr.fget 258).wf = true ∧
    (Instr.lpush 511 511).wf = true ∧ (Instr.walk 1).wf = true ∧ (Instr.encsym 511).wf = true := by decide

/-! ### Decoding: OP (8 bits), 000, B (9 bits), 000, A (9 bits), from bit 31 down (R90, R92) -/

theorem test_decode_reset : decode 0b00000001000000000000000000000000 = .ok .reset := by decide
theorem test_decode_bit_stream :
    decode 0b00010000000000000000000000001001 = .ok (.rdbits 9) ∧
    decode 0b00010001000000000000000001000000 = .ok (.wrbits 64) ∧
    decode 0b00010010000000000000000000000000 = .ok .wrflush := by decide
theorem test_decode_frequencies :
    decode 0b00100000000000000000000000000000 = .ok .fclr ∧
    decode 0b00100001000000000000000100000010 = .ok (.finc 258) ∧
    decode 0b00100010000000000000000001100001 = .ok (.fset 97) ∧
    decode 0b00100011000000000000000001100100 = .ok (.fget 100) := by decide
theorem test_decode_tree_engine :
    decode 0b00100100000000000000000000000000 = .ok .build ∧
    decode 0b00100101000000000000000111111111 = .ok (.ctrd 511) ∧
    decode 0b00100110000000000000000000000000 = .ok .lclr ∧
    decode 0b00100111000100000010000111111111 = .ok (.lpush 511 258) ∧
    decode 0b00101000000000000000000000000000 = .ok .rebuild ∧
    decode 0b00101001000000000000000000000001 = .ok (.walk 1) := by decide
theorem test_decode_serializer :
    decode 0b00110000000000000000000000000000 = .ok .hdrwr ∧
    decode 0b00110001000000000000000000000000 = .ok .hdrrd ∧
    decode 0b00110010000000000000000001100110 = .ok (.encsym 102) ∧
    decode 0b00110011000000000000000000000000 = .ok .decsym := by decide
theorem test_decode_sequencer :
    decode 0b01000000000000000000000000000000 = .ok .encfile ∧
    decode 0b01000001000000000000000000000000 = .ok .encclose ∧
    decode 0b01000010000000000000000000000000 = .ok .decblock ∧
    decode 0b01000011000000000000000000000000 = .ok .decall := by decide
/-- V37. -/
theorem test_decode_refuses_bits :
    decode 0x00000000 = .error .unknownOpcode ∧ decode 0xFFFFFFFF = .error .unknownOpcode ∧
    decode 0x13000000 = .error .unknownOpcode ∧ decode 0x10001009 = .error .formatBits ∧
    decode 0x10000209 = .error .formatBits ∧ decode 0x10200009 = .error .formatBits ∧
    decode 0x24000001 = .error .formatBits ∧ decode 0x01000001 = .error .formatBits := by decide
/-- The host's two hooks: the table's numbering is the word's, and the placed word runs (V37: 0x10000041 is illegal). -/
theorem test_fetch_word : decodeTableWord 32 0x33000000 = some .decsym ∧
    after (step (State.reset.withFetchWord 32 0x10000041)) errorOf = some (true, 6) := by decide

/-! ### One step of every command -/

/-- V39, V40: RESET leaves the fault state and keeps SINK. -/
theorem test_reset : after (exec .reset { State.reset with fault := true, err := 4, bsw := ⟨[0x05], 1, 1, true⟩ })
    (fun t => (t.statusWord, t.bsw)) = some (0, ⟨[0x05], 0, 0, false⟩) := by decide

/-- V21. -/
theorem test_rdbits_crosses_a_byte : after (exec (.rdbits 9) (archive [0x05, 0x00, 0x06]))
    (fun t => (t.rdata, t.bsr)) = some (5, ⟨[0x06], 0x00, 7, false⟩) := by decide +kernel
/-- V15: the silent read past the end. -/
theorem test_rdbits_past_the_end : after (exec (.rdbits 12) (archive [0x03]))
    (fun t => (t.rdata, t.bsr.eos, t.fault)) = some (3, true, false) := by decide +kernel

/-- V19: bits of WDATA above n are ignored. -/
theorem test_wrbits : after (exec (.wrbits 9) { State.reset with wdata := 0x7FF }) (fun t => t.bsw) =
    some ⟨[0xFF], 0x01, 1, false⟩ := by decide +kernel
/-- V22. -/
theorem test_wrbits_closed : after (exec (.wrbits 1) { State.reset with bsw := ⟨[], 0, 0, true⟩ })
    (fun t => (errorOf t, t.bsw.sink)) = some ((true, 6), []) := by decide +kernel

/-- R135's example. -/
theorem test_wrflush : after (exec .wrflush { State.reset with bsw := ⟨[0x05], 0x00, 1, false⟩ }) (fun t => t.bsw) =
    some ⟨[0x05, 0x00], 0, 0, true⟩ := by decide +kernel
/-- V22: nothing to flush. -/
theorem test_wrflush_empty : after (exec .wrflush State.reset) (fun t => (t.bsw.sink, t.statusWord)) = some ([], 0x20) := by
  decide +kernel

/-- R150's example. -/
theorem test_fclr : after (runAll [.fclr, .fget 97] (counts [(97, 45)])) (fun t => t.rdata) = some 0 := by decide +kernel

/-- R151's example: the second occurrence. -/
theorem test_finc : after (exec (.finc 65) (counts [(65, 1)])) (fun t => t.freqAt 65) = some 2 := by decide +kernel
/-- V7c. -/
theorem test_finc_at_the_limit : after (exec (.finc 65) (counts [(65, 0xFFFFFFFFFFFFFFFF)])) errorOf = some (true, 7) := by
  decide +kernel

/-- R152's example. -/
theorem test_fset : after (exec (.fset 97) { State.reset with wdata := 45 }) (fun t => (t.freqAt 97, t.freqAt 98)) =
    some (45, 0) := by decide +kernel
/-- P2 line 7. -/
theorem test_fget : after (exec (.fget 100) v1) (fun t => t.rdata) = some 16 := by decide +kernel
/-- V37: FGET 259. -/
theorem test_fget_259 : after (exec (.fget 259) v1) errorOf = some (true, 6) := by decide +kernel

/-- V1. -/
theorem test_build : after (exec .build v1) (fun t => t.ct.map row) =
    some [(97, 1, 0), (98, 3, 4), (99, 3, 5), (100, 3, 6), (101, 4, 14), (102, 4, 15)] := by decide +kernel
/-- V7b: the FIFO tie-break. -/
theorem test_build_ties : after (exec .build (counts [(0, 3), (7, 3), (255, 3), (256, 3), (258, 3)])) (fun t => t.ct.map row) =
    some [(255, 2, 0), (256, 2, 1), (258, 2, 2), (0, 3, 6), (7, 3, 7)] := by decide +kernel

/-- V1, on the table V8 rebuilds. -/
theorem test_ctrd : after (exec (.ctrd 3) (rebuilt v8)) (fun t => (t.rsym, t.rlen, t.rcode)) = some (100, 3, 6) := by
  decide +kernel
/-- V13. -/
theorem test_ctrd_of_an_empty_table : after (exec (.ctrd 0) State.reset) errorOf = some (true, 6) := by decide +kernel

/-- R167's example. -/
theorem test_lclr : after (exec .lclr (lens v8)) (fun t => t.ln) = some 0 := by decide +kernel
/-- P6 line 3: the second pair. -/
theorem test_lpush : after (exec (.lpush 5 2) (lens [(7, 2)])) (fun t => pairs t.ll) = some [(7, 2), (5, 2)] := by
  decide +kernel
/-- V38: LPUSH 97, 511. -/
theorem test_lpush_too_long : after (exec (.lpush 97 511) State.reset) errorOf = some (true, 7) := by decide +kernel

/-- V9: the pairs are sorted; the tree's leaves. -/
theorem test_rebuild : after (exec .rebuild (lens [(7, 2), (5, 2), (9, 1)])) (fun t => (t.ct.map row, t.dt)) =
    some ([(9, 1, 0), (5, 2, 2), (7, 2, 3)], .inner (.leaf 9) (.inner (.leaf 5) (.leaf 7))) := by decide +kernel
/-- V10. -/
theorem test_rebuild_overfull : after (exec .rebuild (lens [(5, 1), (6, 1), (7, 1)])) errorOf = some (true, 3) := by
  decide +kernel

/-- V14w: a walk from a leaf starts at the root again. -/
theorem test_walk_from_a_leaf : after (runAll [.walk 1, .walk 0, .walk 0] (rebuilt [(7, 2), (5, 2), (9, 1)]))
    (fun t => (t.hit, t.rsym, t.cur)) = some (true, 9, [false]) := by decide +kernel
/-- V11: a gap in the tree. -/
theorem test_walk_into_a_gap : after (runAll [.walk 1, .walk 1] (rebuilt [(1, 1), (2, 3)])) errorOf = some (true, 2) := by
  decide +kernel

/-- V23. -/
theorem test_hdrwr : after (exec .hdrwr (rebuilt v8)) (fun t => t.bsw) =
    some ⟨[0x06, 0xC2, 0x88, 0x19, 0x43, 0xA6, 0x8C, 0x99, 0x00, 0x00, 0x06, 0x08], 0x00, 3, false⟩ := by decide +kernel
/-- V2: a table with a length 0. -/
theorem test_hdrwr_of_one_symbol : after (runAll [.build, .hdrwr] (counts [(0, 1)])) errorOf = some (true, 6) := by
  decide +kernel

/-- V25. -/
theorem test_hdrrd : after (exec .hdrrd (archive v25)) (fun t => (pairs t.ll, t.bsr)) =
    some ([(97, 1), (98, 3), (99, 3), (100, 3), (101, 4), (102, 4)], ⟨[0x07], 0x90, 5, false⟩) := by decide +kernel
/-- V26 b: a count overshoots. -/
theorem test_hdrrd_overshoot : after (exec .hdrrd (archive [0x02, 0x02, 0x08, 0x18, 0x00])) errorOf = some (true, 5) := by
  decide +kernel

/-- V24: the code 1,1,1,1 after four bits of the byte 0x90. -/
theorem test_encsym : after (exec (.encsym 102) { rebuilt v8 with bsw := ⟨[], 0x10, 7, false⟩ }) (fun t => t.bsw) =
    some ⟨[0x90], 0x07, 3, false⟩ := by decide +kernel
/-- V38: ENCSYM 511 with no such entry. -/
theorem test_encsym_absent : after (exec (.encsym 511) (rebuilt v8)) errorOf = some (true, 6) := by decide +kernel

/-- V25: the third DECSYM fetches 0x07. -/
theorem test_decsym : after (exec .decsym { rebuilt v8 with bsr := ⟨[0x07], 0x90, 1, false⟩ }) (fun t => (t.rsym, t.hit, t.bsr)) =
    some (102, true, ⟨[], 0x07, 5, false⟩) := by decide +kernel
/-- R198 corner case c: the silent 0 past the end completes the code `0`. -/
theorem test_decsym_silent_zero : after (exec .decsym (rebuilt v8)) (fun t => (t.rsym, t.hit, t.bsr.eos, t.fault)) =
    some (97, true, true, false) := by decide +kernel
/-- R198: the read comes first, so EndOfStreamError wins. -/
theorem test_decsym_at_the_end : after (exec .decsym { State.reset with bsr := ⟨[], 0, 0, true⟩ }) errorOf = some (true, 1) := by
  decide +kernel

/-- V27, first block. -/
theorem test_encfile : after (exec .encfile { State.reset with namein := [0x78], datain := [0x41] })
    (fun t => (t.bsw, (t.pomf.len, t.pomf.val), (t.paend.len, t.paend.val), t.statusWord)) =
    some (⟨v27.take 11, 0x00, 1, false⟩, (2, 1), (2, 2), 0x100) := by decide +kernel
/-- P4 line 4: the second block starts with the first one's ONE_MORE_FILE code. -/
theorem test_encfile_again : after (exec .encfile { State.reset with
      namein := [0x79], written := true, pomf := ⟨2, 1⟩, bsw := ⟨v27.take 11, 0, 1, false⟩ })
    (fun t => t.bsw) = some ⟨v27.take 19, 0x20, 6, false⟩ := by decide +kernel

/-- V27, the end. -/
theorem test_encclose : after (exec .encclose { State.reset with
      written := true, paend := ⟨2, 3⟩, bsw := ⟨v27.take 19, 0x20, 6, false⟩ })
    (fun t => (t.bsw.sink, t.statusWord)) = some (v27, 0x120) := by decide +kernel
/-- V29: the empty archive. -/
theorem test_encclose_empty : after (exec .encclose State.reset) (fun t => (t.bsw.sink, t.statusWord)) = some ([], 0x20) := by
  decide +kernel

/-- V28, first block. -/
theorem test_decblock : after (exec .decblock (archive v27)) (fun t => (t.out, t.statusWord, t.rsym, t.bsr.rcnt)) =
    some ([.name 0x78, .openTarget, .data 0x41, .fin true], 0xC0, 257, 5) := by decide +kernel
/-- V36c: a symbol above 258 in the name phase. -/
theorem test_decblock_bad_symbol : after (exec .decblock (archive [0x01, 0x58, 0x02, 0x00, 0x10, 0x00]))
    (fun t => (errorOf t, t.out)) = some ((true, 5), []) := by decide +kernel

/-- V28. -/
theorem test_decall : after (exec .decall (archive v27)) (fun t => (t.out, t.statusWord, t.rsym)) =
    some ([.name 0x78, .openTarget, .data 0x41, .fin true, .name 0x79, .openTarget, .fin false], 0x40, 258) := by
  decide +kernel
/-- V31, k = 11: a truncated archive. -/
theorem test_decall_truncated : after (exec .decall (archive (v27.take 11))) (fun t => (errorOf t, t.out, t.bsr.src)) =
    some ((true, 1), [.name 0x78, .openTarget, .data 0x41], []) := by decide +kernel

/-! ### Host accesses -/

/-- V42: a read of CMD gives 0, and of WDATA what was written. -/
theorem test_host_registers :
    after (step (scripted [.readReg 0x00 .b4])) (fun t => t.reads) = some [⟨0x00, 0⟩] ∧
    after (step (scripted [.writeReg 0x08 .b8 0x1234])) (fun t => t.wdata) = some 0x1234 ∧
    after (step (scripted [.writeReg 0x04 .b4 0xFFFFFFFF])) (fun t => t.statusWord) = some 0 := by decide +kernel
/-- V42: RCODE word 0 of the code `1111`. -/
theorem test_host_reads_rcode : after (step { scripted [.readReg 0x40 .b8, .readReg 0x60 .b8] with rcode := 0xF })
    (fun t => t.reads) = some [⟨0x40, 0xF⟩] := by decide +kernel
/-- V39: a word written in the fault state is ignored. -/
theorem test_fault_ignores : after (step { scripted [.issue 0x00000000] with fault := true, err := 4 }) errorOf =
    some (true, 4) := by decide +kernel

/-! ### Witnesses: each meets all the hypotheses of the statement it is named after, clause by clause -/

/-- A script with the word w next. -/
def issuing (w : Word) : State := scripted [.issue w]

theorem witness_EncodeOfDecodeIsTheWord : decode 0x271FF1FF = .ok (.lpush 511 511) := by decide

/-- In turn: a legal word, a word that decodes but has an operand out of its range, a word that does not decode. -/
theorem witness_DecodingFollowsTheOpcodeTable :
    (∃ i, decode 0x10000040 = .ok i ∧ i.wf = true) ∧ (∃ i, decode 0x10000041 = .ok i ∧ i.wf = false) ∧
    decode 0x10001009 = .error .formatBits :=
  ⟨⟨.rdbits 64, by decide⟩, ⟨.rdbits 65, by decide⟩, by decide⟩

/-- The word 0x10000041 (RDBITS 65) is not legal. -/
theorem witness_word_not_legal : ¬ legalWord 0x10000041 := by
  rintro ⟨row, hr, hm, -, hA, -⟩
  simp only [opcodeTable, List.cons_append, List.nil_append, List.mem_cons, List.not_mem_nil, or_false] at hr
  rcases hr with rfl | rfl | rfl | rfl | rfl | rfl | rfl | rfl | rfl | rfl | rfl | rfl | rfl | rfl | rfl | rfl | rfl | rfl | rfl |
    rfl | rfl | rfl <;> first | exact absurd hm (by decide) | exact absurd hA (by decide)

theorem witness_CommandIssueFollowsTheChecks :
    (issuing 0x01000000).script = HostAction.issue 0x01000000 :: [] ∧
    ((0x10000001#32 : Word) ≠ 0x01000000#32 ∧ { issuing 0x10000001 with fault := true }.fault = true) ∧
    ((0x10000041#32 : Word) ≠ 0x01000000#32 ∧ (issuing 0x10000041).fault = false ∧ ¬ legalWord 0x10000041) ∧
    ((0x10000040#32 : Word) ≠ 0x01000000#32 ∧ (issuing 0x10000040).fault = false ∧ legalWord 0x10000040) :=
  ⟨rfl, by decide, ⟨by decide, rfl, witness_word_not_legal⟩, by decide, rfl,
    ⟨⟨0x10, 0xFFFFFE00, 1, 64, 0, 0⟩, by decide, by decide⟩⟩

theorem witness_UnassignedOpcodesAreIllegal :
    (issuing 0x44000000).script = HostAction.issue 0x44000000 :: [] ∧ (issuing 0x44000000).fault = false ∧
    BitVec.extractLsb' 24 8 (0x44000000#32) ∉ opcodeTable.map OpcodeRow.op ∧
    BitVec.extractLsb' 24 8 (0xFFFFFFFF#32) ∉ opcodeTable.map OpcodeRow.op := by
  refine ⟨rfl, rfl, by decide, by decide⟩

theorem witness_StepRunsTheDecodedCommand :
    decode 0x43000000 = .ok .decall ∧ (issuing 0x43000000).fault = false ∧
    (issuing 0x43000000).script = HostAction.issue 0x43000000 :: [] ∧
    decode 0x01000000 = .ok .reset ∧ { issuing 0x01000000 with fault := true }.fault = true := by
  refine ⟨by decide, rfl, rfl, by decide, rfl⟩

theorem witness_FaultStateIgnoresCommands :
    { issuing 0x01000001 with fault := true }.fault = true ∧ Instr.decall ≠ .reset ∧
    (0x01000001#32 : Word) ≠ 0x01000000#32 ∧
    { issuing 0x01000001 with fault := true }.script = HostAction.issue 0x01000001 :: [] := by
  refine ⟨rfl, by decide, by decide, rfl⟩

theorem witness_ResetSetsEveryElement : (scripted [.resetInput]).script = .resetInput :: [] := rfl

/-- The ends of the RCODE words and of both reserved ranges. -/
theorem witness_HostReadsFollowTheRegisterMap :
    (scripted [.readReg 0x24 .b4]).script = .readReg 0x24 .b4 :: [] ∧
    (4 < 5 ∧ (scripted [.readReg (0x40 + 8 * 4) .b8]).script = .readReg (0x40 + 8 * 4) .b8 :: []) ∧
    (0x28 ≤ 0x28 ∧ 0x28 + AccessSize.b1.bytes ≤ 0x40) ∧ (0x28 ≤ 0x38 ∧ 0x38 + AccessSize.b8.bytes ≤ 0x40) ∧
    (0x68 ≤ 0x68 ∧ 0x68 + AccessSize.b8.bytes ≤ 0x80) ∧ (0x68 ≤ 0x7F ∧ 0x7F + AccessSize.b1.bytes ≤ 0x80) := by
  refine ⟨rfl, ⟨by decide, rfl⟩, ?_⟩
  decide

theorem witness_HostWritesReachOnlyWdata :
    (scripted [.writeReg 0x08 .b8 7]).script = .writeReg 0x08 .b8 7 :: [] ∧
    (0x60, AccessSize.b8) ∈ [(0x04, AccessSize.b4), (0x10, .b8), (0x18, .b4), (0x1C, .b4), (0x20, .b4), (0x24, .b4), (0x40, .b8),
        (0x48, .b8), (0x50, .b8), (0x58, .b8), (0x60, .b8)] ∧
    (0x28 ≤ 0x3C ∧ 0x3C + AccessSize.b4.bytes ≤ 0x40) ∧ (0x68 ≤ 0x7C ∧ 0x7C + AccessSize.b4.bytes ≤ 0x80) := by
  refine ⟨rfl, ?_⟩
  decide

/-- Parts of registers, too wide, misaligned, over an edge of the reserved offsets; and beyond the space. -/
theorem witness_PartialHostAccessesStop :
    (scripted [.readReg 0x27 .b1]).script = .readReg 0x27 .b1 :: [] ∧
    (∀ a ∈ ([(0x00, .b1), (0x27, .b1), (0x08, .b4), (0x14, .b4), (0x04, .b8), (0x02, .b4), (0x0C, .b8), (0x24, .b8), (0x3C, .b8),
        (0x40, .b4), (0x66, .b2), (0x67, .b1), (0x64, .b8)] : List (Nat × AccessSize)),
      a.1 + a.2.bytes ≤ 0x80 ∧ (a.1, a.2) ∉ wholeRegisters ∧ ¬ (0x28 ≤ a.1 ∧ a.1 + a.2.bytes ≤ 0x40 ∨ 0x68 ≤ a.1)) ∧
    (scripted [.writeReg 0x7D .b4 0]).script = .writeReg 0x7D .b4 0 :: [] ∧ 0x80 < 0x7D + AccessSize.b4.bytes := by
  refine ⟨rfl, by decide, rfl, by decide⟩

theorem witness_FetchBitDeliversTheNextBit :
    ((⟨[], 0, 0, false⟩ : Bsr).rcnt = 0 ∧ (⟨[], 0, 0, false⟩ : Bsr).src = []) ∧
    ((⟨[5], 0, 0, false⟩ : Bsr).rcnt = 0 ∧ (⟨[5], 0, 0, false⟩ : Bsr).src = 5 :: []) ∧ (⟨[], 5, 8, false⟩ : Bsr).rcnt ≠ 0 := by
  decide

/-- The widths 1, 64, 0 and 65, with a full buffer. -/
theorem witness_RdbitsReadsTheNextBits :
    { State.reset with bsr := ⟨[], 0xFF, 8, false⟩ }.fault = false ∧
    (⟨[], 0xFF, 8, false⟩ : Bsr).rcnt.toNat ≤ 8 ∧ (⟨[], 0xFF, 8, false⟩ : Bsr).eos = false ∧
    (1 ≤ (1 : BitVec 9).toNat ∧ (1 : BitVec 9).toNat ≤ 64) ∧ (1 ≤ (64 : BitVec 9).toNat ∧ (64 : BitVec 9).toNat ≤ 64) ∧
    (⟨[], 0, 0, true⟩ : Bsr).eos = true ∧ (0 : BitVec 9).toNat = 0 ∧ 64 < (65 : BitVec 9).toNat := by
  refine ⟨rfl, ?_⟩
  decide

theorem witness_ReaderNeverFetchesAhead :
    (⟨[5], 0, 0, false⟩ : Bsr).rcnt = 0 ∧ 0 ≤ 8 * (⟨[5], 0, 0, false⟩ : Bsr).src.length ∧
    8 ≤ 8 * (⟨[5], 0, 0, false⟩ : Bsr).src.length := by decide

theorem witness_WrbitsAppendsTheLowBits :
    State.reset.fault = false ∧ State.reset.bsw.wclosed = false ∧
    (1 ≤ (1 : BitVec 9).toNat ∧ (64 : BitVec 9).toNat ≤ 64) ∧ ((0 : BitVec 9).toNat = 0 ∧ 64 < (65 : BitVec 9).toNat) ∧
    { State.reset with bsw := ⟨[], 0, 0, true⟩ }.bsw.wclosed = true := by
  refine ⟨rfl, rfl, by decide, by decide, rfl⟩

theorem witness_WrflushEmitsThePartialByte :
    State.reset.fault = false ∧ State.reset.bsw.wclosed = false ∧ { State.reset with bsw := ⟨[], 0, 0, true⟩ }.bsw.wclosed = true :=
  ⟨rfl, rfl, rfl⟩

theorem witness_ClosedWriterRefusesWrites :
    { State.reset with bsw := ⟨[], 0, 0, true⟩ }.fault = false ∧ { State.reset with bsw := ⟨[], 0, 0, true⟩ }.bsw.wclosed = true ∧
    ∃ n, Instr.wrbits 64 = .wrbits n ∧ 1 ≤ n.toNat ∧ n.toNat ≤ 64 :=
  ⟨rfl, rfl, 64, rfl, by decide⟩

theorem witness_BitRoundTrip : ∀ p ∈ [((5 : BitVec 64), 1), (7, 64)], 1 ≤ p.2 ∧ p.2 ≤ 64 := by decide

theorem witness_ReadPastTheWrittenData :
    (∀ p ∈ [((5 : BitVec 64), 1), (7, 64)], 1 ≤ p.2 ∧ p.2 ≤ 64) ∧ (1 ≤ 1 ∧ 1 ≤ 64) ∧ (1 ≤ 64 ∧ 64 ≤ 64) := by decide

theorem witness_FclrClearsEveryCounter : State.reset.fault = false := rfl

/-- The symbols 0, 258 and 259, and a counter at its limit. -/
theorem witness_FincCountsOneOccurrence :
    State.reset.fault = false ∧ (0 : BitVec 9).toNat < 259 ∧ (258 : BitVec 9).toNat < 259 ∧
    State.reset.freq[258].toNat ≠ 2 ^ 64 - 1 ∧ (counts [(258, 2 ^ 64 - 1)]).freq[258].toNat = 2 ^ 64 - 1 ∧
    258 < (259 : BitVec 9).toNat := by
  refine ⟨rfl, by decide, by decide, by decide +kernel, by decide +kernel, by decide⟩

theorem witness_FsetStoresAndFgetReads :
    State.reset.fault = false ∧ (258 : BitVec 9).toNat < 259 ∧ 258 < (259 : BitVec 9).toNat := by
  refine ⟨rfl, by decide, by decide⟩

/-- One symbol at the edge; a table of two with a prefix-free code for them; a Q of two nodes. -/
theorem witness_BuildMakesTheCanonicalTable :
    ((counts [(258, 1)]).fault = false ∧ ∃ y, ∃ h : y < 259, (counts [(258, 1)]).freq[y] ≠ 0) ∧
    buildTable fifo (counts [(0, 7), (258, 1)]).freq = .ok [⟨0, ⟨1, 0⟩⟩, ⟨258, ⟨1, 1⟩⟩] ∧
    ([⟨0, ⟨1, 0⟩⟩, ⟨258, ⟨1, 1⟩⟩] : List CodeEntry).Pairwise (fun a b =>
      ¬ (if a.sym = 0 then [false, true] else [true]) <+: (if b.sym = 0 then [false, true] else [true]) ∧
      ¬ (if b.sym = 0 then [false, true] else [true]) <+: (if a.sym = 0 then [false, true] else [true])) ∧
    2 ≤ (makeLeaves (counts [(0, 7), (258, 1)]).freq).length :=
  ⟨⟨rfl, 258, by decide, by decide +kernel⟩, by decide +kernel, by decide, by decide +kernel⟩

theorem witness_BuildOfNothingIsDegenerate :
    State.reset.fault = false ∧ ∀ y (h : y < 259), State.reset.freq[y] = 0 :=
  ⟨rfl, fun y h => by simp [State.reset]⟩

theorem witness_BuildOfOneOrTwoSymbols :
    ((counts [(258, 1)]).freq[258] ≠ 0 ∧ ∀ z (_ : z < 259), z ≠ 258 → (counts [(258, 1)]).freq[z] = 0) ∧
    (0 < 258 ∧ (counts [(0, 7), (258, 1)]).freq[0] ≠ 0 ∧ (counts [(0, 7), (258, 1)]).freq[258] ≠ 0 ∧
      ∀ x (_ : x < 259), x ≠ 0 → x ≠ 258 → (counts [(0, 7), (258, 1)]).freq[x] = 0) := by
  refine ⟨⟨?_, ?_⟩, by decide, ?_, ?_, ?_⟩ <;> decide +kernel

theorem witness_ExtractMinTakesALeastNode :
    ([⟨3, 0, .leaf 1⟩, ⟨3, 1, .leaf 2⟩] : List Config.QNode) ≠ [] ∧ (⟨3, 1, .leaf 2⟩ : Config.QNode).prio = 3 := by
  decide

/-- A table of two entries that BUILD makes, whatever the statement's tie-break; here FIFO. -/
theorem witness_BuildDepthIsBounded :
    buildTable fifo (counts [(0, 7), (258, 1)]).freq = .ok [⟨0, ⟨1, 0⟩⟩, ⟨258, ⟨1, 1⟩⟩] := by decide +kernel

theorem witness_BuildMakesAFullCode :
    buildTable fifo (counts [(0, 7), (258, 1)]).freq = .ok [⟨0, ⟨1, 0⟩⟩, ⟨258, ⟨1, 1⟩⟩] ∧
    2 ≤ ([⟨0, ⟨1, 0⟩⟩, ⟨258, ⟨1, 1⟩⟩] : List CodeEntry).length ∧
    ([⟨0, ⟨1, 0⟩⟩, ⟨258, ⟨1, 1⟩⟩] : List CodeEntry).getLast? = some ⟨258, ⟨1, 1⟩⟩ :=
  ⟨by decide +kernel, by decide, by decide +kernel⟩

/-- Lengths that fit, the last one MAXLEN, and lengths of which one code is all ones too early. -/
theorem witness_AssignIncrementsAndExtends :
    (([(1, 7), (258, 9)] : List (Nat × Sym)).Pairwise canonicalLE ∧ (∀ p ∈ ([(1, 7), (258, 9)] : List (Nat × Sym)), p.1 ≤ 258) ∧
      (fun i : Nat => if i = 0 then 0 else 2 ^ 257) 0 = 0 ∧
      (fun i : Nat => if i = 0 then 0 else 2 ^ 257) 1 = ((fun i : Nat => if i = 0 then 0 else 2 ^ 257) 0 + 1) * 2 ^ (258 - 1) ∧
      (fun i : Nat => if i = 0 then 0 else 2 ^ 257) 0 ≠ 2 ^ 1 - 1) ∧
    (([(0, 7), (0, 9)] : List (Nat × Sym)).Pairwise canonicalLE ∧ (fun i : Nat => i) 0 = 2 ^ 0 - 1 ∧
      (fun i : Nat => i) 1 = ((fun i : Nat => i) 0 + 1) * 2 ^ (0 - 0)) := by
  refine ⟨⟨by decide, by decide, rfl, by norm_num, by norm_num⟩, by decide, rfl, rfl⟩

theorem witness_AssignedCodesArePrefixFree :
    ([(1, 9), (2, 5), (2, 7)] : List (Nat × Sym)).Pairwise canonicalLE ∧
    (∀ p ∈ ([(1, 9), (2, 5), (2, 7)] : List (Nat × Sym)), p.1 ≤ 258) ∧
    assign [(1, 9), (2, 5), (2, 7)] = some [⟨9, ⟨1, 0⟩⟩, ⟨5, ⟨2, 2⟩⟩, ⟨7, ⟨2, 3⟩⟩] := by
  refine ⟨by decide, by decide, by decide +kernel⟩

theorem witness_CtrdReadsAnEntry :
    (rebuilt [(9, 1)]).fault = false ∧ (0 : BitVec 9).toNat < (rebuilt [(9, 1)]).ct.length ∧
    (rebuilt [(9, 1)]).ct.length ≤ (1 : BitVec 9).toNat := by
  refine ⟨?_, ?_, ?_⟩ <;> decide +kernel

/-- The lengths 1, 258, 259 and 0, and a full list. -/
theorem witness_LclrAndLpushKeepTheList :
    State.reset.fault = false ∧ State.reset.ll.length < 511 ∧
    (1 ≤ (1 : BitVec 9).toNat ∧ (258 : BitVec 9).toNat ≤ 258) ∧ 258 < (259 : BitVec 9).toNat ∧
    511 ≤ (List.replicate 511 (⟨0, 9⟩ : LenEntry)).length ∧ (0 : BitVec 9).toNat = 0 := by
  refine ⟨rfl, by decide, by decide, by decide, by rw [List.length_replicate], by decide⟩

theorem witness_RebuildMakesTheDecodeTree :
    (lens [(7, 2), (9, 258)]).fault = false ∧ (∀ e ∈ (lens [(7, 2), (9, 258)]).ll, 1 ≤ e.len.toNat ∧ e.len.toNat ≤ 258) ∧
    (assign (canonicalSort (lenPairs (lens [(7, 2), (9, 258)]).ll))).isSome = true ∧
    (∀ e ∈ (lens [(5, 1), (6, 1), (7, 1)]).ll, 1 ≤ e.len.toNat ∧ e.len.toNat ≤ 258) ∧
    assign (canonicalSort (lenPairs (lens [(5, 1), (6, 1), (7, 1)]).ll)) = none := by
  refine ⟨rfl, by decide +kernel, by decide +kernel, by decide +kernel, by decide +kernel⟩

/-- V11's table and tree, the cursor at the path p. -/
def gapAt (p : List Bool) : State := { rebuilt [(1, 1), (2, 3)] with cur := p }

/-- From the root: to a leaf, to an internal node; from an internal node out of the tree; and from a leaf. -/
theorem witness_WalkMovesTheCursor :
    (gapAt []).fault = false ∧ ((∃ y, (gapAt []).dt.sub (gapAt []).cur = .leaf y) → ([] : List Bool) = []) ∧
    ((¬ ∃ y, (gapAt []).dt.sub (gapAt []).cur = .leaf y) → [] = (gapAt []).cur) ∧
    (gapAt []).dt.sub ([] ++ [(0 : BitVec 9) == 1]) = .leaf 1 ∧
    (gapAt []).dt.sub ([] ++ [(1 : BitVec 9) == 1]) = .inner (.inner (.leaf 2) .absent) .absent ∧
    ((∃ y, (gapAt [true]).dt.sub (gapAt [true]).cur = .leaf y) → [true] = []) ∧
    ((¬ ∃ y, (gapAt [true]).dt.sub (gapAt [true]).cur = .leaf y) → [true] = (gapAt [true]).cur) ∧
    (gapAt [true]).dt.sub ([true] ++ [(1 : BitVec 9) == 1]) = .absent ∧
    (∃ y, (gapAt [false]).dt.sub (gapAt [false]).cur = .leaf y) ∧ ((1 : BitVec 9).toNat ≤ 1 ∧ 1 < (2 : BitVec 9).toNat) := by
  have h : (gapAt [true]).dt.sub (gapAt [true]).cur = .inner (.inner (.leaf 2) .absent) .absent := by decide +kernel
  refine ⟨by decide +kernel, fun _ => rfl, fun _ => rfl, by decide +kernel, by decide +kernel, fun hy => ?_, fun _ => rfl,
    by decide +kernel, ⟨1, by decide +kernel⟩, by decide⟩
  obtain ⟨y, hy⟩ := hy
  rw [h] at hy
  cases hy

theorem witness_HeaderReconstruction :
    (lens [(258, 1), (0, 1)]).fault = false ∧
    buildTable fifo (counts [(0, 7), (258, 1)]).freq = .ok [⟨0, ⟨1, 0⟩⟩, ⟨258, ⟨1, 1⟩⟩] ∧
    (∀ e ∈ ([⟨0, ⟨1, 0⟩⟩, ⟨258, ⟨1, 1⟩⟩] : List CodeEntry), 1 ≤ e.code.len.toNat) ∧
    (lens [(258, 1), (0, 1)]).ll.Perm (lenEntries [⟨0, ⟨1, 0⟩⟩, ⟨258, ⟨1, 1⟩⟩]) :=
  ⟨rfl, by decide +kernel, by decide, List.Perm.swap _ _ _⟩

theorem witness_HdrwrWritesTheHeader :
    (rebuilt v8).fault = false ∧ (rebuilt v8).bsw.wclosed = false ∧ (∀ e ∈ (rebuilt v8).ct, e.code.len ≠ 0) ∧
    (∃ e ∈ { State.reset with ct := [⟨0, 0, 0⟩] }.ct, e.code.len = 0) ∧ { State.reset with bsw := ⟨[], 0, 0, true⟩ }.bsw.wclosed = true := by
  refine ⟨?_, ?_, ?_, ⟨_, List.mem_singleton.2 rfl, rfl⟩, rfl⟩ <;> decide +kernel

/-- V26 c: a list whose lengths leave a gap, with the bits of a rest behind its header. -/
theorem witness_HdrrdReadsTheHeader :
    (archive [0x02, 0x02, 0x08, 0x08, 0x00, 0x20, 0x00]).fault = false ∧
    (archive [0x02, 0x02, 0x08, 0x08, 0x00, 0x20, 0x00]).bsr.eos = false ∧
    (archive [0x02, 0x02, 0x08, 0x08, 0x00, 0x20, 0x00]).bsr.rcnt.toNat ≤ 8 ∧ usableList [⟨1, 1⟩, ⟨2, 3⟩] ∧
    (archive [0x02, 0x02, 0x08, 0x08, 0x00, 0x20, 0x00]).bsr.unread = headerBits [⟨1, 1⟩, ⟨2, 3⟩] ++ [false, false] := by
  refine ⟨rfl, rfl, by decide, ⟨by decide, by decide, by decide⟩, by decide +kernel⟩

/-- V26's header [01 0A], then k bytes of 00: the symbol count 1, the symbol 5 and counts of 0. -/
def zeroCounts (k : Nat) : State := archive ([0x01, 0x0A] ++ List.replicate k 0)

/-- EOS set; V26 b; V26 d with 290 and 289 bytes, the last count past the end; V26 e with k = 1 and k = 0. -/
theorem witness_HdrrdRefusesAnOvershoot :
    ({ State.reset with bsr := ⟨[], 0, 0, true⟩ }.fault = false ∧ (⟨[], 0, 0, true⟩ : Bsr).rcnt.toNat ≤ 8 ∧
      (⟨[], 0, 0, true⟩ : Bsr).eos = true) ∧
    ((∀ bs, (archive bs).fault = false ∧ (archive bs).bsr.eos = false ∧ (archive bs).bsr.rcnt.toNat ≤ 8) ∧
      ([1, 2] : List (BitVec 9)).length = (2 : BitVec 9).toNat ∧ ([] : List (BitVec 9)).length < 258 ∧
      (([] : List (BitVec 9)).map BitVec.toNat).sum < (2 : BitVec 9).toNat ∧
      (2 : BitVec 9).toNat < (([] : List (BitVec 9)).map BitVec.toNat).sum + (3 : BitVec 9).toNat ∧
      (archive [0x02, 0x02, 0x08, 0x18, 0x00]).bsr.offers (2 :: ([1, 2] ++ [] ++ [3])) [false, false, false, false] 0) ∧
    (([5] : List (BitVec 9)).length = (1 : BitVec 9).toNat ∧ (List.replicate 258 (0 : BitVec 9)).length = 258 ∧
      ((List.replicate 258 (0 : BitVec 9)).map BitVec.toNat).sum < (1 : BitVec 9).toNat ∧
      (zeroCounts 290).bsr.offers (1 :: ([5] ++ List.replicate 258 0)) [] 4) ∧
    ((List.replicate 257 (0 : BitVec 9)).length < 258 ∧ ((List.replicate 257 (0 : BitVec 9)).map BitVec.toNat).sum < (1 : BitVec 9).toNat ∧
      (zeroCounts 289).bsr.offers (1 :: ([5] ++ List.replicate 257 0)) [] 3) ∧
    (([] : List (BitVec 9)).length < (6 : BitVec 9).toNat ∧ (archive [0x06]).bsr.offers (6 :: ([] ++ [])) [] 1) ∧
    (usableList [] ∧ (archive []).bsr.offers ((headerLayout []).map (BitVec.ofNat 9)) [] 9) := by
  refine ⟨⟨rfl, by decide, rfl⟩, ⟨fun _ => ⟨rfl, rfl, Nat.zero_le _⟩, by decide, by decide, by decide, by decide, ?_, .inl rfl⟩,
    ⟨by decide, by rw [List.length_replicate], ?_, ?_, .inr ⟨by decide, rfl, List.cons_ne_nil _ _⟩⟩,
    ⟨by rw [List.length_replicate]; decide, ?_, ?_, .inr ⟨by decide, rfl, List.cons_ne_nil _ _⟩⟩,
    ⟨by decide, ?_, .inr ⟨by decide, rfl, List.cons_ne_nil _ _⟩⟩,
    ⟨by decide, by decide, by decide⟩, ?_, .inr ⟨by decide, rfl, by decide⟩⟩ <;> decide +kernel

/-- V12: of two entries with the symbol the first counts; 511 has none. -/
theorem witness_EncsymEmitsTheCode :
    (rebuilt [(1, 2), (1, 2)]).fault = false ∧ (rebuilt [(1, 2), (1, 2)]).bsw.wclosed = false ∧
    (rebuilt [(1, 2), (1, 2)]).ct = [] ++ ⟨1, ⟨2, 0⟩⟩ :: [⟨1, ⟨2, 1⟩⟩] ∧ (∀ x ∈ ([] : List CodeEntry), x.sym ≠ 1) ∧
    (⟨1, ⟨2, 0⟩⟩ : CodeEntry).sym = 1 ∧ (∀ x ∈ (rebuilt [(1, 2), (1, 2)]).ct, x.sym ≠ 511) ∧
    { State.reset with bsw := ⟨[], 0, 0, true⟩ }.bsw.wclosed = true := by
  refine ⟨?_, ?_, ?_, ?_, ?_, ?_, rfl⟩ <;> decide +kernel

/-- V25's third DECSYM: the cursor is on the leaf `100` of V1's tree, the code `1111` is next. -/
def onLeaf : State := { rebuilt v8 with cur := [true, false, false], bsr := ⟨[0x07], 0x90, 1, false⟩ }

theorem witness_DecsymDecodesOneSymbol :
    onLeaf.fault = false ∧ onLeaf.bsr.eos = false ∧ onLeaf.bsr.rcnt.toNat ≤ 8 ∧
    ((∃ z, onLeaf.dt.sub onLeaf.cur = .leaf z) → ([] : List Bool) = []) ∧
    ((¬ ∃ z, onLeaf.dt.sub onLeaf.cur = .leaf z) → [] = onLeaf.cur) ∧ [true, true, true, true] ≠ [] ∧
    onLeaf.dt.sub ([] ++ [true, true, true, true]) = .leaf 102 ∧
    onLeaf.bsr.unread = [true, true, true, true] ++ [false, false, false, false, false] :=
  ⟨by decide +kernel, rfl, by decide, fun _ => rfl, fun h => absurd ⟨98, by decide +kernel⟩ h, by decide, by decide +kernel,
    by decide +kernel⟩

/-- V11's tree, EOS as given, with the bits of a byte's top n bits next. -/
def gapReads (b : Byte) (n : BitVec 4) (eos : Bool) : State := { gapAt [] with bsr := ⟨[], b, n, eos⟩ }

/-- EOS set; V11's tree with the bits 1, 1 next; at the end of the stream, with a silent 0 to a leaf, from the bit 1 to an internal node,
and, in the bare tree after reset, out of the tree. -/
theorem witness_DecsymRaisesOnBadStreams :
    ((∀ b n eos, (gapReads b n eos).fault = false ∧ (gapReads b n eos).bsr.eos = eos ∧ (gapReads b n eos).cur = [] ∧
        ∃ l r, (gapReads b n eos).dt.sub [] = .inner l r) ∧ (2 : BitVec 4).toNat ≤ 8) ∧
    ((∃ l r, (gapReads 0xC0 2 false).dt.sub ([] ++ [true]) = .inner l r) ∧
      (gapReads 0xC0 2 false).dt.sub ([] ++ [true] ++ [true]) = .absent ∧ (gapReads 0xC0 2 false).bsr.unread = [true] ++ true :: []) ∧
    ((gapReads 0 0 false).bsr.unread = [] ∧ (gapReads 0 0 false).dt.sub ([] ++ [] ++ [false]) = .leaf 1) ∧
    ((gapReads 0x80 1 false).bsr.unread = [true] ∧
      ∃ l r, (gapReads 0x80 1 false).dt.sub ([] ++ [true] ++ [false]) = .inner l r) ∧
    ((∃ l r, State.reset.dt.sub ([] ++ []) = .inner l r) ∧ State.reset.bsr.unread = [] ∧
      State.reset.dt.sub ([] ++ [] ++ [false]) = .absent) := by
  have hgap : (gapAt []).dt = .inner (.leaf 1) (.inner (.inner (.leaf 2) .absent) .absent) := by decide +kernel
  have hdt : ∀ b n eos, (gapReads b n eos).dt = .inner (.leaf 1) (.inner (.inner (.leaf 2) .absent) .absent) := by
    intro b n eos
    simpa only [gapReads] using hgap
  refine ⟨⟨fun b n eos => ⟨?_, rfl, rfl, ?_⟩, by decide⟩, ⟨⟨_, _, by rw [hdt]; rfl⟩, by rw [hdt]; rfl, by decide +kernel⟩,
    ⟨by decide +kernel, by rw [hdt]; rfl⟩, ⟨by decide +kernel, _, _, by rw [hdt]; rfl⟩, ⟨_, _, rfl⟩, by decide +kernel, rfl⟩
  · show (gapAt []).fault = false
    decide +kernel
  · rw [hdt]; exact ⟨_, _, rfl⟩

/-- V9's table and tree with the codes of 7 and 9 next. -/
def sevenNine : State := { rebuilt [(7, 2), (5, 2), (9, 1)] with bsr := ⟨[], 0x60, 3, false⟩ }

theorem witness_SymbolRoundTrip :
    sevenNine.bsr.eos = false ∧ sevenNine.bsr.rcnt.toNat ≤ 8 ∧
    (∀ e ∈ sevenNine.ll, 1 ≤ e.len.toNat ∧ e.len.toNat ≤ 258) ∧ tableOf sevenNine.ll = some sevenNine.ct ∧
    sevenNine.dt = treeOf sevenNine.ct ∧ sevenNine.cur = [] ∧ codeBits sevenNine.ct [7, 9] = some [true, true, false] ∧
    sevenNine.bsr.unread = [true, true, false] ++ [] := by
  refine ⟨?_, ?_, ?_, ?_, ?_, ?_, ?_, ?_⟩ <;> decide +kernel

/-- The empty name and content, and those of V27. -/
theorem witness_EncfileWritesTheBlock :
    State.reset.fault = false ∧ State.reset.bsw.wclosed = false ∧ State.reset.namein.length + State.reset.datain.length < 2 ^ 64 ∧
    ([0x78] : List Byte).length + ([0x41] : List Byte).length < 2 ^ 64 := by
  refine ⟨rfl, rfl, by decide, by decide⟩

/-- A partial byte with three bits, which is clean. -/
theorem witness_EnccloseEndsTheArchive :
    State.reset.fault = false ∧ State.reset.bsw.wclosed = false ∧ (⟨[], 0x05, 3, false⟩ : Bsw).clean ∧
    { State.reset with bsw := ⟨[], 0, 0, true⟩ }.bsw.wclosed = true := by
  refine ⟨rfl, rfl, fun i hi => ?_, rfl⟩
  by_cases h : i < 8
  · have h3 : 3 ≤ i := hi
    interval_cases i <;> decide
  · exact BitVec.getLsbD_of_ge _ _ (by omega)

/-- The length list of V30's block: the empty name and the empty content. -/
def v30 : List LenEntry := [⟨258, 1⟩, ⟨256, 2⟩, ⟨257, 2⟩]

/-- V32: one block that ends with ONE_MORE_FILE, then another. -/
def v32 : List Byte := [0x03, 0x04, 0x02, 0x0C, 0x18, 0x40, 0x40, 0x0F, 0x10, 0x08, 0x30, 0x60, 0x00, 0x01, 0x01]

theorem witness_DecblockDecodesABlock :
    (archive v32).fault = false ∧ (archive v32).bsr.eos = false ∧ (archive v32).bsr.rcnt.toNat ≤ 8 ∧ usableList v30 ∧
    ∃ bs rest, blockBits v30 ⟨[], []⟩ 257 = some bs ∧ (archive v32).bsr.unread = bs ++ rest := by
  refine ⟨rfl, rfl, by decide, ⟨by decide, by decide, by decide⟩,
    (archive v32).bsr.unread.take 58, (archive v32).bsr.unread.drop 58, by decide +kernel, (List.take_append_drop _ _).symm⟩

/-- The name phase meets 257 (`11`), the content phase meets 256 (`10`), under V30's table. -/
theorem witness_DecblockRefusesIllegalSymbols :
    (archive (v32.take 6 ++ [0xC0])).fault = false ∧ (archive (v32.take 6 ++ [0xC0])).bsr.eos = false ∧
    (archive (v32.take 6 ++ [0xC0])).bsr.rcnt.toNat ≤ 8 ∧
    usableList v30 ∧ tableOf v30 = some [⟨258, ⟨1, 0⟩⟩, ⟨256, ⟨2, 2⟩⟩, ⟨257, ⟨2, 3⟩⟩] ∧
    (256 < (257 : Sym).toNat ∧ codeBits [⟨258, ⟨1, 0⟩⟩, ⟨256, ⟨2, 2⟩⟩, ⟨257, ⟨2, 3⟩⟩] ([].map literal ++ [257]) = some [true, true]) ∧
    ((256 : Sym).toNat = 256 ∧ codeBits [⟨258, ⟨1, 0⟩⟩, ⟨256, ⟨2, 2⟩⟩, ⟨257, ⟨2, 3⟩⟩]
      ([].map literal ++ [256] ++ [].map literal ++ [256]) = some [true, false, true, false]) ∧
    (archive (v32.take 6 ++ [0xC0])).bsr.unread = headerBits v30 ++ [true, true] ++ [] ∧
    (archive (v32.take 6 ++ [0x40, 0x01])).bsr.unread =
      headerBits v30 ++ [true, false, true, false] ++ [false, false, false, false, false, false] := by
  refine ⟨rfl, rfl, by decide, ⟨by decide, by decide, by decide⟩, ?_, ⟨?_, ?_⟩, ⟨?_, ?_⟩, ?_, ?_⟩ <;> decide +kernel

/-- A symbol above 258: V36c's 300 in the name phase; 259 in the content phase, behind 256 (`0`), with the code `1`. -/
theorem witness_DecblockRefusesSymbolsAbove258 :
    (usableList [⟨300, 3⟩] ∧ tableOf [⟨300, 3⟩] = some [⟨300, ⟨3, 0⟩⟩] ∧ 256 < (300 : Sym).toNat ∧
      codeBits [⟨300, ⟨3, 0⟩⟩] ([].map literal ++ [300]) = some [false, false, false] ∧
      (archive [0x01, 0x58, 0x02, 0x00, 0x10, 0x00]).bsr.unread = headerBits [⟨300, 3⟩] ++ [false, false, false] ++ []) ∧
    (usableList [⟨256, 1⟩, ⟨259, 1⟩] ∧ tableOf [⟨256, 1⟩, ⟨259, 1⟩] = some [⟨256, ⟨1, 0⟩⟩, ⟨259, ⟨1, 1⟩⟩] ∧ 258 < (259 : Sym).toNat ∧
      codeBits [⟨256, ⟨1, 0⟩⟩, ⟨259, ⟨1, 1⟩⟩] ([].map literal ++ [256] ++ [].map literal ++ [259]) = some [false, true] ∧
      (archive [0x02, 0x00, 0x0E, 0x14, 0x20]).bsr.unread = headerBits [⟨256, 1⟩, ⟨259, 1⟩] ++ [false, true] ++ [false, false]) := by
  refine ⟨⟨⟨by decide, by decide, by decide⟩, ?_, ?_, ?_, ?_⟩, ⟨by decide, by decide, by decide⟩, ?_, ?_, ?_, ?_⟩ <;> decide +kernel

theorem witness_DecallOfTheEmptyArchive :
    State.reset.fault = false ∧ State.reset.bsr.src = [] ∧ State.reset.bsr.rcnt = 0 := ⟨rfl, rfl, rfl⟩

/-- V32's two blocks. -/
theorem witness_DecallDecodesTheArchive :
    (archive v32).fault = false ∧ (archive v32).bsr.eos = false ∧ (archive v32).bsr.rcnt.toNat ≤ 8 ∧
    (∀ b ∈ ([⟨v30, ⟨[], []⟩⟩] ++ [⟨v30, ⟨[], []⟩⟩] : List Block), usableList b.lens) ∧
    ∃ bs rest, archiveBits ([⟨v30, ⟨[], []⟩⟩] ++ [⟨v30, ⟨[], []⟩⟩]) = some bs ∧ (archive v32).bsr.unread = bs ++ rest := by
  refine ⟨rfl, rfl, by decide, ?_, (archive v32).bsr.unread.take 115, (archive v32).bsr.unread.drop 115, by decide +kernel,
    (List.take_append_drop _ _).symm⟩
  intro b hb
  have : b = ⟨v30, ⟨[], []⟩⟩ := by simpa using hb
  subst this
  exact ⟨by decide, by decide, by decide⟩

theorem witness_ArchiveRoundTrip :
    ∀ f ∈ ([⟨[0x78], [0x41]⟩, ⟨[0x79], []⟩] : List File), f.name.length + f.data.length < 2 ^ 64 := by decide

/-- A state with a table, a tree, a cursor on a leaf, three bits written and EOS set: it meets the invariant. -/
def busy : State := { rebuilt [(7, 2), (5, 2), (9, 1)] with
  cur := [true, false], bsw := ⟨[1], 5, 3, false⟩, bsr := ⟨[], 1, 0, true⟩, script := [.issue 0x29000001] }

theorem witness_busy_inv : busy.Inv ∧ busy.EosInv := by
  refine ⟨⟨fun _ => ?_, fun _ => ?_, fun _ => ?_, fun _ => ?_, fun _ => ?_, fun _ => ?_, fun _ => ?_, fun _ => ?_, fun _ => ?_⟩,
    fun _ _ => ⟨rfl, rfl⟩⟩
  · decide +kernel
  · decide +kernel
  · intro i hi
    by_cases h : i < 8
    · have h3 : 3 ≤ i := hi
      interval_cases i <;> decide +kernel
    · exact BitVec.getLsbD_of_ge _ _ (by omega)
  · decide +kernel
  · decide +kernel
  · decide +kernel
  · decide +kernel
  · exact ⟨.leaf 9, .inner (.leaf 5) (.leaf 7), by decide +kernel⟩
  · decide +kernel

theorem witness_EveryStepKeepsTheInvariant : busy.Inv ∧ ∃ t, step busy = .next t :=
  ⟨witness_busy_inv.1, next_of_after (f := errorOf) (by decide +kernel)⟩

theorem witness_EosMeansNothingIsLeft :
    busy.Inv ∧ busy.EosInv ∧ (∃ t, step busy = .next t) ∧ busy.bsr.eos = true ∧ ∀ bs rest, busy.script ≠ .setSrc bs :: rest :=
  ⟨witness_busy_inv.1, witness_busy_inv.2, next_of_after (f := errorOf) (by decide +kernel), rfl, fun bs rest h => by cases h⟩

theorem witness_CodeTableStaysCanonical :
    after (exec .rebuild busy) (fun t => t.fault) = some false ∧
    busy.ct.Pairwise (fun a b => canonicalLE (a.code.len.toNat, a.sym) (b.code.len.toNat, b.sym)) ∧
    assign (lenPairs (lenEntries busy.ct)) = some busy.ct := by
  refine ⟨?_, ?_, ?_⟩ <;> decide +kernel

theorem witness_CommandsRaiseOnlyTheirKinds :
    Instr.build.wf = true ∧ State.reset.fault = false ∧ after (exec .build State.reset) (fun t => t.fault) = some true := by
  refine ⟨rfl, rfl, by decide +kernel⟩

theorem witness_CommandsWriteOnlyTheirElements :
    Instr.decall ≠ .reset ∧ after (exec .decall (archive v27)) (fun t => t.fault) = some false ∧ Element.wdata ∉ writesOf .decall := by
  refine ⟨by decide, by decide +kernel, by decide⟩

theorem witness_StreamsOnlyMoveForward :
    after (exec .decall (archive (v27.take 11))) (fun t => t.fault) = some true ∧ Instr.decall ≠ .reset := by
  refine ⟨by decide +kernel, by decide⟩

end Sys2Proof.Tests
end

section
/-! PROOFS. The state as a whole (spec 10_state.md): STATUS (R29), what a command writes, the order of CT (R35) and the invariant (R45).
A command other than RESET is one procedure; each claim about commands is proved of that procedure's end, from the lemmas of
Laws/Effects.lean on the commands that write the element in question and from `Ends.frame` on all the others. -/

namespace Sys2Proof.Machine

/-! ### STATUS -/

theorem statusWord_getLsbD_low (s : State) : ∀ i < 9, s.statusWord.getLsbD i =
    if i = 0 then s.fault else if i < 4 then s.err.getLsbD (i - 1) else if i = 4 then s.bsr.eos
    else if i = 5 then s.bsw.wclosed else if i = 6 then s.hit else if i = 7 then s.more else s.written := by
  intro i hi
  simp only [State.statusWord, BitVec.getLsbD_append]
  interval_cases i <;> simp

theorem statusWord_getLsbD_high (s : State) (i : Nat) (hi : 9 ≤ i) : s.statusWord.getLsbD i = false := by
  simp (disch := omega) only [State.statusWord, BitVec.getLsbD_append, if_neg]
  exact BitVec.getLsbD_zero

/-- Settles O14, from the bits of STATUS below 9 and above. -/
theorem statusWordHasTheFields : Obligations.StatusWordHasTheFields := by
  intro s
  have low := statusWord_getLsbD_low s
  refine ⟨low 0 (by decide), BitVec.eq_of_getLsbD_eq fun i hi => ?_, low 4 (by decide), low 5 (by decide), low 6 (by decide),
    low 7 (by decide), low 8 (by decide), statusWord_getLsbD_high s⟩
  rw [BitVec.getLsbD_extractLsb', low _ (by omega), if_neg (by omega), if_pos (by omega)]
  simp [hi]

/-! ### What a command can do -/

/-- The procedure of a command (30_encoding.md R95 step 5). RESET is run outside `command`, whatever FAULT is. -/
def procOf : Instr → Proc Unit
  | .reset => modify resetState
  | .rdbits n => rdbitsProc n
  | .wrbits n => wrbitsProc n
  | .wrflush => wrflushProc
  | .fclr => freqClear
  | .finc y => freqInc y
  | .fset y => fsetProc y
  | .fget y => fgetProc y
  | .build => build tieBreak
  | .ctrd k => ctrdProc k
  | .lclr => listClear
  | .lpush y l => listPush y l
  | .rebuild => rebuild
  | .walk b => walkProc b
  | .hdrwr => hdrwrProc
  | .hdrrd => readHeader
  | .encsym y => encsymProc y
  | .decsym => decsymProc
  | .encfile => encfileProc tieBreak
  | .encclose => enccloseProc
  | .decblock => decblockProc
  | .decall => decallProc

theorem exec_eq_command {i : Instr} (hi : i ≠ .reset) (s : State) : exec i s = command i (procOf i) s := by
  cases i with
  | reset => exact absurd rfl hi
  | _ => rfl

/-- The command i, well formed and not RESET, takes s to t and raises nothing. -/
structure Ends (i : Instr) (s t : State) : Prop where
  notReset : i ≠ .reset
  wf       : i.wf = true
  ok       : procOf i s = .ok () t

/-- Everything a command can do: RESET; being ignored; a trap; its procedure to the end. -/
theorem exec_cases {i : Instr} {s t : State} (h : exec i s = .next t) :
    (i = .reset ∧ t = resetState s) ∨ (s.fault = true ∧ t = s) ∨ t.fault = true ∨ (s.fault = false ∧ Ends i s t) := by
  by_cases hi : i = .reset
  · subst hi
    cases h
    exact .inl ⟨rfl, rfl⟩
  · rw [exec_eq_command hi] at h
    rcases command_cases h with hign | ⟨-, -, rfl⟩ | ⟨hf, hw, hp⟩ | ⟨-, -, k, u, -, rfl⟩
    · exact .inr (.inl hign)
    · exact .inr (.inr (.inl rfl))
    · exact .inr (.inr (.inr ⟨hf, hi, hw, hp⟩))
    · exact .inr (.inr (.inl rfl))

/-- A command other than RESET that leaves FAULT = 0 started without it and ran its procedure to the end. -/
theorem ends_of_exec {i : Instr} {s t : State} (h : exec i s = .next t) (hi : i ≠ .reset) (ht : t.fault = false) :
    s.fault = false ∧ Ends i s t := by
  rcases exec_cases h with ⟨rfl, -⟩ | ⟨hf, rfl⟩ | hf | hends
  · exact absurd rfl hi
  · exact absurd (hf.symm.trans ht) (by decide)
  · exact absurd (hf.symm.trans ht) (by decide)
  · exact hends

theorem Sat.of_ok {σ α : Type} {p : EStateM ErrKind σ α} {s t : σ} {a : α} {Q : α → σ → Prop} {E : ErrKind → σ → Prop}
    (h : Sat p s Q E) (hp : p s = .ok a t) : Q a t := by
  unfold Sat at h
  rwa [hp] at h

/-! ### What a command leaves unchanged -/

/-- Two states agree outside the listed elements, FAULT, ERR and the model's own fields included. -/
@[simp] def AgreeOutside (l : List Element) (s t : State) : Prop :=
  (∀ e : Element, e ∉ l → e.sameIn s t) ∧
    t.fault = s.fault ∧ t.err = s.err ∧ t.script = s.script ∧ t.reads = s.reads ∧ t.freeIdx = s.freeIdx

@[simp] theorem forall_element {P : Element → Prop} : (∀ e, P e) ↔
    (P .wdata ∧ P .rdata ∧ P .rsym ∧ P .rlen ∧ P .rcode ∧ P .hit ∧ P .more ∧ P .written ∧ P .reader ∧ P .eos ∧ P .writer) ∧
    (P .wclosed ∧ P .freq ∧ P .ct ∧ P .ll ∧ P .dt ∧ P .cur ∧ P .pomf ∧ P .paend ∧ P .namein ∧ P .datain ∧ P .out) := by
  constructor
  · intro h
    simp only [h, and_self]
  · rintro ⟨⟨_, _, _, _, _, _, _, _, _, _, _⟩, _, _, _, _, _, _, _, _, _, _, _⟩ e
    cases e <;> assumption

/-- A procedure that moves the open writer alone. -/
theorem agreeOutside_of_writesOnly {s t : State} (h : (WritesOnly s).1 () t) : AgreeOutside [.writer] s t := by
  obtain ⟨heq, hw⟩ := h
  have hclosed := hw.wclosed
  rw [heq]
  simp [Element.sameIn, hclosed]

theorem agreeOutside_of_file {s t : State} (h : FileFrame s t) : AgreeOutside (writesOf .encfile) s t := by
  obtain ⟨heq, hw⟩ := h
  have hclosed := hw.wclosed
  rw [heq]
  simp [writesOf, Element.sameIn, hclosed]

theorem agreeOutside_of_block {s t : State} (h : BlockFrame s t) : AgreeOutside (writesOf .decblock) s t := by
  rw [h.1]
  simp [writesOf, Element.sameIn]

/-- A command that ends changes only the elements its rule lists as written. -/
theorem Ends.frame {i : Instr} {s t : State} (h : Ends i s t) : AgreeOutside (writesOf i) s t := by
  obtain ⟨hi, hw, hok⟩ := h
  cases i
  case reset => exact absurd rfl hi
  case wrbits n => exact agreeOutside_of_writesOnly ((wrbitsProc_sat n s).of_ok hok)
  case hdrwr => exact agreeOutside_of_writesOnly ((hdrwrProc_sat s).of_ok hok)
  case encsym y => exact agreeOutside_of_writesOnly ((encsymProc_sat y s).of_ok hok)
  case encfile => exact agreeOutside_of_file ((encfileProc_sat tieBreak s).of_ok hok).1
  case decblock => exact agreeOutside_of_block ((decblockProc_sat s).of_ok hok).1
  case decall => exact agreeOutside_of_block ((decallProc_sat s).of_ok hok).1
  -- Each other command: the next state is s with the listed fields replaced.
  case' rdbits n => rw [((rdbitsProc_sat n s).of_ok hok).1]
  case' wrflush => rw [((wrflushProc_sat s).of_ok hok).1]
  case' encclose => rw [((enccloseProc_sat s).of_ok hok).1]
  case' finc y => rw [((freqInc_sat (of_decide_eq_true hw) s).of_ok hok).1]
  case' build => rw [((build_sat tieBreak s).of_ok hok).1]
  case' ctrd k => rw [(ctrdProc_sat k s).of_ok hok]
  case' lpush y l => rw [((listPush_sat y l s).of_ok hok).1]
  case' rebuild => rw [((rebuild_frame s).of_ok hok).1]
  case' walk b => rw [((walkProc_sat b s).of_ok hok).1]
  case' hdrrd => rw [((readHeader_sat s).of_ok hok).1.1]
  case' decsym => rw [((decsymProc_sat s).of_ok hok).1]
  case' fclr | fset y | fget y | lclr => cases hok
  all_goals simp [writesOf, Element.sameIn]

/-- Settles O59. -/
theorem commandsWriteOnlyTheirElements : Obligations.CommandsWriteOnlyTheirElements := by
  intro i s t hi h ht
  obtain ⟨hf, hends⟩ := ends_of_exec h hi ht
  obtain ⟨hsame, -, herr, hscript, hreads, hfree⟩ := hends.frame
  exact ⟨hsame, hf, herr, hscript, hreads, hfree⟩

/-! ### The code table -/

/-- CT is in canonical order with the codes Assign gives its lengths (10_state.md R35). -/
def Canonical (c : List CodeEntry) : Prop :=
  c.Pairwise (fun a b => canonicalLE (a.code.len.toNat, a.sym) (b.code.len.toNat, b.sym)) ∧ assign (lenPairs (lenEntries c)) = some c

theorem tableEntry_pair_of_lt (y : Sym) {len : Nat} (val : Nat) (h : len < 512) : (tableEntry y len val).pair = (len, y) :=
  Prod.ext ((BitVec.toNat_ofNat len 9).trans (Nat.mod_eq_of_lt h)) rfl

/-- `Assign` keeps the pairs it is given, whatever their order, as long as each length fits its 9 bits. -/
theorem assignFrom_pairs {e : List (Nat × Sym)} (hl : ∀ p ∈ e, p.1 < 512) : ∀ {plen pval : Nat} {t : List CodeEntry},
    assignFrom plen pval e = some t → t.map CodeEntry.pair = e := by
  induction e with
  | nil =>
    intro plen pval t h
    cases h
    rfl
  | cons p e ih =>
    intro plen pval t h
    obtain ⟨len, y⟩ := p
    obtain ⟨hlen, hl⟩ := List.forall_mem_cons.mp hl
    simp only [assignFrom] at h
    split at h
    · cases h
    · split at h
      · cases h
      · rename_i u hu
        cases h
        rw [List.map_cons, tableEntry_pair_of_lt y _ hlen, ih hl hu]

theorem assign_pairs {e : List (Nat × Sym)} (hl : ∀ p ∈ e, p.1 < 512) {t : List CodeEntry} (h : assign e = some t) :
    t.map CodeEntry.pair = e := by
  cases e with
  | nil => cases h; rfl
  | cons p e =>
    obtain ⟨len, y⟩ := p
    obtain ⟨hlen, hl⟩ := List.forall_mem_cons.mp hl
    simp only [assign] at h
    split at h
    · cases h
    · rename_i u hu
      cases h
      rw [List.map_cons, tableEntry_pair_of_lt y _ hlen, assignFrom_pairs hl hu]

/-- Canonical order of a table is canonical order of its pairs. -/
theorem canonical_iff {c : List CodeEntry} : Canonical c ↔
    (lenPairs (lenEntries c)).Pairwise canonicalLE ∧ assign (lenPairs (lenEntries c)) = some c := by
  rw [Canonical, lenPairs_lenEntries, List.pairwise_map]
  rfl

/-- The table that Assign makes of a length list (41_tree_engine.md R168) is canonical. -/
theorem canonical_of_lengths {l : List LenEntry} {c : List CodeEntry} (h : assign (canonicalSort (lenPairs l)) = some c) :
    Canonical c := by
  have hlen : ∀ p ∈ canonicalSort (lenPairs l), p.1 < 512 := by
    intro p hp
    obtain ⟨e, -, rfl⟩ := List.mem_map.mp ((canonicalSort_perm _).mem_iff.mp hp)
    exact e.len.isLt
  rw [canonical_iff, lenPairs_lenEntries, assign_pairs hlen h]
  exact ⟨canonicalSort_sorted _, h⟩

theorem canonical_of_build {tb : Config.TieBreak} {f : Vector Count Config.nsym} {c : List CodeEntry} (h : buildTable tb f = .ok c) :
    Canonical c := canonical_iff.mpr ⟨buildTable_sorted h, buildTable_assign h⟩

/-- The commands that write CT make a canonical one. -/
theorem Ends.canonical {i : Instr} {s t : State} (h : Ends i s t) (hc : Canonical s.ct) : Canonical t.ct := by
  by_cases hw : Element.ct ∈ writesOf i
  · cases i with
    | build => exact canonical_of_build ((build_sat tieBreak s).of_ok h.ok).2
    | rebuild => exact canonical_of_lengths ((rebuild_frame s).of_ok h.ok).2
    | encfile =>
      obtain ⟨-, f, hf⟩ := (encfileProc_sat tieBreak s).of_ok h.ok
      exact canonical_of_build hf
    | decblock => exact canonical_of_lengths ((decblockProc_sat s).of_ok h.ok).2.canon
    | decall =>
      rcases ((decallProc_sat s).of_ok h.ok).2 with hb | heq
      · exact canonical_of_lengths hb.canon
      · rw [heq]; exact hc
    | _ => simp [writesOf] at hw
  · rw [show t.ct = s.ct from h.frame.1 .ct hw]
    exact hc

/-- Settles O57. -/
theorem codeTableStaysCanonical : Obligations.CodeTableStaysCanonical := by
  intro i s t h ht hc
  by_cases hi : i = .reset
  · subst hi
    cases h
    exact ⟨List.Pairwise.nil, rfl⟩
  · exact (ends_of_exec h hi ht).2.canonical hc

/-! ### The parts of the invariant -/

/-- The clauses of R45 on LL. -/
def ListOk (l : List LenEntry) : Prop :=
  l.length ≤ Config.llMax ∧ ∀ e ∈ l, 1 ≤ e.len.toNat ∧ e.len.toNat ≤ Config.maxLen

/-- The clauses of R45 on CT. -/
def TableOk (c : List CodeEntry) : Prop :=
  c.length ≤ Config.ctMax ∧ ∀ e ∈ c, e.code.len.toNat ≤ Config.maxLen ∧ e.code.val.toNat < 2 ^ e.code.len.toNat

/-- The clauses of R45 on DT and the cursor. -/
def TreeOk (d : DTree) (cur : List Bool) : Prop := (∃ l r, d = .inner l r) ∧ d.sub cur ≠ .absent

theorem listOk_nil : ListOk [] := ⟨Nat.zero_le _, by simp⟩

theorem tableOk_nil : TableOk [] := ⟨Nat.zero_le _, by simp⟩

/-- The invariant says nothing of a state with FAULT = 1. -/
theorem inv_of_fault {s : State} (h : s.fault = true) : s.Inv := by
  constructor <;> exact fun hf => absurd (h.symm.trans hf) (by decide)

theorem inv_iff {s : State} : s.Inv ↔ (s.fault = false →
    s.err = 0 ∧ s.bsr.rcnt.toNat ≤ 8 ∧ s.bsw.clean ∧ ListOk s.ll ∧ TableOk s.ct ∧ TreeOk s.dt s.cur) := by
  constructor
  · intro h hf
    exact ⟨h.err hf, h.rcnt hf, h.wacc hf, ⟨h.llMax hf, h.llLen hf⟩, ⟨h.ctMax hf, h.ctLen hf⟩, h.root hf, h.cur hf⟩
  · intro h
    cases hf : s.fault with
    | true => exact inv_of_fault hf
    | false =>
      obtain ⟨herr, hrcnt, hclean, ⟨hllMax, hllLen⟩, ⟨hctMax, hctLen⟩, hroot, hcur⟩ := h hf
      exact ⟨fun _ => herr, fun _ => hrcnt, fun _ => hclean, fun _ => hctMax, fun _ => hllMax, fun _ => hllLen, fun _ => hctLen,
        fun _ => hroot, fun _ => hcur⟩

theorem eosInv_of_fault {s : State} (h : s.fault = true) : s.EosInv := fun hf => absurd (h.symm.trans hf) (by decide)

theorem inv_resetState (s : State) : (resetState s).Inv := by
  refine inv_iff.mpr fun _ => ⟨rfl, by simp, fun i _ => by simp, listOk_nil, tableOk_nil, ⟨_, _, rfl⟩, ?_⟩
  simp [State.reset]

theorem eosInv_resetState (s : State) : (resetState s).EosInv := fun _ h => absurd h (by simp)

/-- Settles O55: the state after reset is one that RESET leaves. -/
theorem resetMeetsTheInvariant : Obligations.ResetMeetsTheInvariant :=
  ⟨inv_resetState State.reset, eosInv_resetState State.reset⟩

/-! ### What a command keeps of the invariant -/

theorem tableOk_of_build {tb : Config.TieBreak} {f : Vector Count Config.nsym} {c : List CodeEntry} (h : buildTable tb f = .ok c) :
    TableOk c := by
  obtain ⟨root, -, hdepth, ha, -⟩ := buildTable_ok h
  have hlen : ∀ p ∈ canonicalSort (leafDepths 0 root), p.1 ≤ Config.maxLen := fun p hp =>
    hdepth p ((canonicalSort_perm _).mem_iff.mp hp)
  obtain ⟨-, hval, hlen, -⟩ := assign_table (canonicalSort_sorted _) hlen ha
  exact ⟨(buildTable_length h).trans (by decide), fun e he => ⟨hlen e he, hval e he⟩⟩

theorem Ends.bsrStep {i : Instr} {s t : State} (h : Ends i s t) : BsrStep s.bsr t.bsr := by
  by_cases hw : Element.reader ∈ writesOf i ∨ Element.eos ∈ writesOf i
  · cases i with
    | rdbits n => exact ((rdbitsProc_sat n s).of_ok h.ok).2
    | hdrrd => exact ((readHeader_sat s).of_ok h.ok).1.2
    | decsym => exact ((decsymProc_sat s).of_ok h.ok).2.1
    | decblock => exact ((decblockProc_sat s).of_ok h.ok).1.2.1
    | decall => exact ((decallProc_sat s).of_ok h.ok).1.2.1
    | _ => simp [writesOf] at hw
  · obtain ⟨hreader, heos⟩ := not_or.mp hw
    obtain ⟨hsrc, hrbuf, hrcnt⟩ : t.bsr.src = s.bsr.src ∧ t.bsr.rbuf = s.bsr.rbuf ∧ t.bsr.rcnt = s.bsr.rcnt :=
      h.frame.1 .reader hreader
    have heos : t.bsr.eos = s.bsr.eos := h.frame.1 .eos heos
    exact ⟨by rw [hsrc], by rw [hrcnt]; exact id, by rw [hsrc, hrcnt, heos]; exact id⟩

theorem Ends.clean {i : Instr} {s t : State} (h : Ends i s t) (hc : s.bsw.clean) : t.bsw.clean := by
  by_cases hw : Element.writer ∈ writesOf i
  · cases i with
    | wrbits n => exact ((wrbitsProc_sat n s).of_ok h.ok).2.clean hc
    | hdrwr => exact ((hdrwrProc_sat s).of_ok h.ok).2.clean hc
    | encsym y => exact ((encsymProc_sat y s).of_ok h.ok).2.clean hc
    | encfile => exact ((encfileProc_sat tieBreak s).of_ok h.ok).1.2.clean hc
    | wrflush => exact ((wrflushProc_sat s).of_ok h.ok).2.2
    | encclose => exact ((enccloseProc_sat s).of_ok h.ok).2.2
    | _ => simp [writesOf] at hw
  · obtain ⟨-, hwacc, hwfill⟩ : t.bsw.sink = s.bsw.sink ∧ t.bsw.wacc = s.bsw.wacc ∧ t.bsw.wfill = s.bsw.wfill :=
      h.frame.1 .writer hw
    rw [Bsw.clean, hwacc, hwfill]
    exact hc

theorem Ends.listOk {i : Instr} {s t : State} (h : Ends i s t) (hl : ListOk s.ll) : ListOk t.ll := by
  by_cases hw : Element.ll ∈ writesOf i
  · cases i with
    | lclr =>
      cases h.ok
      exact listOk_nil
    | lpush y l =>
      obtain ⟨heq, hmax, hroom⟩ := (listPush_sat y l s).of_ok h.ok
      have hpos : 1 ≤ l.toNat := of_decide_eq_true h.wf
      rw [heq]
      refine ⟨by simpa using hroom, fun e he => ?_⟩
      rcases List.mem_append.mp he with he | he
      · exact hl.2 e he
      · rw [List.mem_singleton.mp he]
        exact ⟨hpos, hmax⟩
    | hdrrd => exact ((readHeader_sat s).of_ok h.ok).2
    | decblock =>
      have hb := ((decblockProc_sat s).of_ok h.ok).2
      exact ⟨hb.llMax, hb.llLen⟩
    | decall =>
      rcases ((decallProc_sat s).of_ok h.ok).2 with hb | heq
      · exact ⟨hb.llMax, hb.llLen⟩
      · rw [heq]; exact hl
    | _ => simp [writesOf] at hw
  · rw [show t.ll = s.ll from h.frame.1 .ll hw]
    exact hl

theorem Ends.tableOk {i : Instr} {s t : State} (h : Ends i s t) (hl : ListOk s.ll) (hc : TableOk s.ct) : TableOk t.ct := by
  by_cases hw : Element.ct ∈ writesOf i
  · cases i with
    | build => exact tableOk_of_build ((build_sat tieBreak s).of_ok h.ok).2
    | encfile =>
      obtain ⟨-, f, hf⟩ := (encfileProc_sat tieBreak s).of_ok h.ok
      exact tableOk_of_build hf
    | rebuild =>
      obtain ⟨-, -, hlen, hent⟩ := (rebuild_sat hl.2).of_ok h.ok
      exact ⟨hlen.trans_le hl.1, hent⟩
    | decblock =>
      have hb := ((decblockProc_sat s).of_ok h.ok).2
      exact ⟨hb.ctMax, hb.ctLen⟩
    | decall =>
      rcases ((decallProc_sat s).of_ok h.ok).2 with hb | heq
      · exact ⟨hb.ctMax, hb.ctLen⟩
      · rw [heq]; exact hc
    | _ => simp [writesOf] at hw
  · rw [show t.ct = s.ct from h.frame.1 .ct hw]
    exact hc

theorem Ends.treeOk {i : Instr} {s t : State} (h : Ends i s t) (hl : ListOk s.ll) (hd : TreeOk s.dt s.cur) : TreeOk t.dt t.cur := by
  by_cases hw : Element.dt ∈ writesOf i ∨ Element.cur ∈ writesOf i
  · cases i with
    | rebuild =>
      obtain ⟨heq, htree, -⟩ := (rebuild_sat hl.2).of_ok h.ok
      obtain ⟨l, r, hroot⟩ := (htree.2 []).mpr (.inl rfl)
      rw [show t.cur = [] by rw [heq]]
      exact ⟨⟨l, r, by rwa [sub_nil] at hroot⟩, by rw [hroot]; simp⟩
    | walk b => exact ⟨h.frame.1 .dt (by simp [writesOf]) ▸ hd.1, ((walkProc_sat b s).of_ok h.ok).2⟩
    | decsym => exact ⟨h.frame.1 .dt (by simp [writesOf]) ▸ hd.1, ((decsymProc_sat s).of_ok h.ok).2.2⟩
    | decblock =>
      have hb := ((decblockProc_sat s).of_ok h.ok).2
      exact ⟨hb.root, hb.cur⟩
    | decall =>
      rcases ((decallProc_sat s).of_ok h.ok).2 with hb | heq
      · exact ⟨hb.root, hb.cur⟩
      · rw [heq]; exact hd
    | _ => simp [writesOf] at hw
  · obtain ⟨hdt, hcur⟩ := not_or.mp hw
    rw [show t.dt = s.dt from h.frame.1 .dt hdt, show t.cur = s.cur from h.frame.1 .cur hcur]
    exact hd

/-- The invariant is kept by every command. -/
theorem inv_exec {i : Instr} {s t : State} (h : exec i s = .next t) (hs : s.Inv) : t.Inv := by
  rcases exec_cases h with ⟨-, rfl⟩ | ⟨-, rfl⟩ | ht | ⟨hf, hends⟩
  · exact inv_resetState s
  · exact hs
  · exact inv_of_fault ht
  · obtain ⟨herr, hrcnt, hclean, hlist, htable, htree⟩ := inv_iff.mp hs hf
    obtain ⟨-, -, herr', -⟩ := hends.frame
    exact inv_iff.mpr fun _ => ⟨herr'.trans herr, hends.bsrStep.rcnt hrcnt, hends.clean hclean, hends.listOk hlist,
      hends.tableOk hlist htable, hends.treeOk hlist htree⟩

/-- The clause on EOS is kept by every command. -/
theorem eosInv_exec {i : Instr} {s t : State} (h : exec i s = .next t) (hs : s.EosInv) : t.EosInv := by
  rcases exec_cases h with ⟨-, rfl⟩ | ⟨-, rfl⟩ | ht | ⟨hf, hends⟩
  · exact eosInv_resetState s
  · exact hs
  · exact eosInv_of_fault ht
  · exact fun _ => hends.bsrStep.eos (hs hf)

/-! ### What a step can do -/

/-- The host does what no clause of the invariant speaks of: it moves on in its script, reads a register, sets WDATA or renews one of
its sequences other than SRC. -/
def Quiet (s t : State) : Prop :=
  t = { s with wdata := t.wdata, namein := t.namein, datain := t.datain, out := t.out, script := t.script, reads := t.reads,
               bsw := { s.bsw with sink := t.bsw.sink } }

theorem Quiet.inv {s t : State} (h : Quiet s t) (hs : s.Inv) : t.Inv := by
  rw [Quiet] at h
  rw [h]
  exact ⟨hs.err, hs.rcnt, hs.wacc, hs.ctMax, hs.llMax, hs.llLen, hs.ctLen, hs.root, hs.cur⟩

theorem Quiet.eosInv {s t : State} (h : Quiet s t) (hs : s.EosInv) : t.EosInv := by
  rw [Quiet] at h
  rw [h]
  exact hs

/-- A word written to CMD runs a command, is ignored, or traps (30_encoding.md R95). -/
theorem issueWord_cases {w : Word} {s t : State} (h : issueWord w s = .next t) :
    (∃ i, exec i s = .next t) ∨ t.fault = true ∨ t = s := by
  unfold issueWord at h
  split at h
  · exact .inl ⟨_, h⟩
  · split at h
    · cases h
      exact .inr (.inr rfl)
    · split at h
      · cases h
        exact .inr (.inl rfl)
      · exact .inl ⟨_, h⟩

/-- A host write issues a word, or is quiet (44_system.md R232). -/
theorem hostWrite_cases {off : Nat} {size : AccessSize} {v : BitVec 64} {s t : State} (h : hostWrite off size v s = .next t) :
    (∃ w, issueWord w s = .next t) ∨ Quiet s t := by
  unfold hostWrite at h
  split at h
  · rename_i r _
    cases r with
    | cmd => exact .inl ⟨_, h⟩
    | _ => cases h; exact .inr rfl
  · split at h
    · cases h
      exact .inr rfl
    · unfold badAccess at h
      split at h <;> cases h

theorem hostRead_quiet {off : Nat} {size : AccessSize} {s t : State} (h : hostRead off size s = .next t) : Quiet s t := by
  unfold hostRead at h
  split at h
  · cases h
    rfl
  · split at h
    · cases h
      rfl
    · unfold badAccess at h
      split at h <;> cases h

/-- Everything an action of the host can do: a command, a trap, the renewal of SRC, or something quiet. -/
theorem hostAction_cases {a : HostAction} {s t : State} (h : hostAction a s = .next t) :
    (∃ i, exec i s = .next t) ∨ t.fault = true ∨ (∃ bs, a = .setSrc bs ∧ t = { s with bsr := { s.bsr with src := bs } }) ∨ Quiet s t := by
  cases a with
  | writeReg off size v =>
    rcases hostWrite_cases h with ⟨w, hw⟩ | hq
    · rcases issueWord_cases hw with hexec | ht | rfl
      · exact .inl hexec
      · exact .inr (.inl ht)
      · exact .inr (.inr (.inr rfl))
    · exact .inr (.inr (.inr hq))
  | readReg off size => exact .inr (.inr (.inr (hostRead_quiet h)))
  | resetInput => exact .inl ⟨.reset, h⟩
  | setSrc bs =>
    cases h
    exact .inr (.inr (.inl ⟨bs, rfl, rfl⟩))
  | setNamein _ | setDatain _ | newSink | newOut =>
    cases h
    exact .inr (.inr (.inr rfl))

/-- Everything a step can do: it leaves an empty script as it is, or takes the next action from it. -/
theorem step_cases {s t : State} (h : step s = .next t) :
    t = s ∨ ∃ a rest, s.script = a :: rest ∧ hostAction a { s with script := rest } = .next t := by
  unfold step at h
  split at h
  · cases h
    exact .inl rfl
  · exact .inr ⟨_, _, ‹_›, h⟩

theorem inv_setSrc {s : State} (hs : s.Inv) (bs : List Byte) : State.Inv { s with bsr := { s.bsr with src := bs } } :=
  ⟨hs.err, hs.rcnt, hs.wacc, hs.ctMax, hs.llMax, hs.llLen, hs.ctLen, hs.root, hs.cur⟩

/-- Settles O54: commands keep the invariant part by part, and of the bytes in SRC and of what a quiet action changes it says nothing. -/
theorem everyStepKeepsTheInvariant : Obligations.EveryStepKeepsTheInvariant := by
  intro s t hs h
  rcases step_cases h with rfl | ⟨a, rest, -, ha⟩
  · exact hs
  · have hs' : State.Inv { s with script := rest } := Quiet.inv rfl hs
    rcases hostAction_cases ha with ⟨i, hi⟩ | ht | ⟨bs, -, rfl⟩ | hq
    · exact inv_exec hi hs'
    · exact inv_of_fault ht
    · exact inv_setSrc hs' bs
    · exact hq.inv hs'

/-- Settles O56: a reader sets EOS only when nothing is left, and only the host's renewal of SRC brings bytes back. -/
theorem eosMeansNothingIsLeft : Obligations.EosMeansNothingIsLeft := by
  intro s t _ hs h hsrc
  rcases step_cases h with rfl | ⟨a, rest, hscript, ha⟩
  · exact hs
  · have hs' : State.EosInv { s with script := rest } := Quiet.eosInv rfl hs
    rcases hostAction_cases ha with ⟨i, hi⟩ | ht | ⟨bs, rfl, -⟩ | hq
    · exact eosInv_exec hi hs'
    · exact eosInv_of_fault ht
    · exact absurd hscript (hsrc bs rest)
    · exact hq.eosInv hs'

end Sys2Proof.Machine
end

section
/-! PROOFS. The streams and the register map (spec 20_memory.md): how far the reader has fetched (R69), the flat stream of a writer (R77),
which way every stream moves (R62, R63, R67), and the host's accesses to the registers (R70). -/

namespace Sys2Proof.Machine

/-! ### The reader fetches no byte ahead -/

/-- After a fetch at most 7 bits are buffered: a byte is taken only to deliver one of its bits (40_bitstream.md R130). -/
theorem fetchBit_rcnt_le_seven {r : Bsr} (h8 : r.rcnt.toNat ≤ 8) : (fetchBit r).2.rcnt.toNat ≤ 7 := by
  unfold fetchBit
  split
  · rename_i h0
    cases hsrc : r.src with
    | nil => simp [srcNext, hsrc, h0]
    | cons b rest =>
      simp only [srcNext, hsrc]
      exact (bufferedBit_spec _ (show (8 : BitVec 4) ≠ 0 by decide) (show (8 : BitVec 4).toNat ≤ 8 by decide)).2.1
  · exact (bufferedBit_spec r ‹_› h8).2.1

theorem fetchBits_rcnt_le_seven (n : Nat) {r : Bsr} (h7 : r.rcnt.toNat ≤ 7) : (fetchBits n r).2.rcnt.toNat ≤ 7 := by
  induction n generalizing r with
  | zero => exact h7
  | succ n ih => exact ih (fetchBit_rcnt_le_seven (by omega))

/-- Settles O17: the fetches leave n real bits fewer and at most 7 of them in RBUF, so the others are whole bytes of SRC. -/
theorem readerNeverFetchesAhead : Obligations.ReaderNeverFetchesAhead := by
  intro n r h0 hn
  have hr : r.rcnt.toNat = 0 := by rw [h0]; rfl
  obtain ⟨-, hunread, -, h8, hsuffix⟩ := fetchBits_spec n r (by omega)
  have h7 := fetchBits_rcnt_le_seven n (r := r) (by omega)
  have hbits := congrArg List.length hunread
  rw [List.length_drop, unread_length h8, unread_length (by omega), hr] at hbits
  refine ⟨?_, by omega⟩
  rw [List.suffix_iff_eq_drop.mp hsuffix]
  congr 1
  omega

/-! ### The writer's flat stream -/

/-- A list of writes appends the bits of its fields, in order (20_memory.md R77). -/
theorem writeAll_eq_appendBits (l : List (BitVec 64 × Nat)) (w : Bsw) :
    writeAll l w = appendBits (l.flatMap fun p => fieldBits p.1 p.2) w := by
  induction l generalizing w with
  | nil => rfl
  | cons p l ih => rw [List.flatMap_cons, appendBits_append, ← bswWrite, ← ih]; rfl

/-- Settles O21: a disposal fills the flat stream up with fewer than 8 zeros, and SINK is whole bytes. -/
theorem writesMakeTheFlatStream : Obligations.WritesMakeTheFlatStream := by
  intro l w bs
  obtain ⟨-, -, -, hstream⟩ := bswDispose_spec (appendBits bs ⟨[], 0, 0, false⟩) (appendBits_clean bs _ fun i _ => by simp)
  rw [appendBits_bits, ← writeAll_eq_appendBits] at hstream
  change streamBits w.sink = [] ++ bs ++ _ at hstream
  rw [List.nil_append] at hstream
  have hlen := congrArg List.length hstream
  rw [streamBits_length, List.length_append, List.length_replicate] at hlen
  refine ⟨by omega, ?_⟩
  rw [hstream]
  congr 2
  omega

/-! ### Which way the streams move -/

/-- SINK and OUT grow at their ends, SRC loses bytes at its front, NAMEIN, DATAIN and WDATA stay (20_memory.md R62, R63, R67). -/
@[simp] def Forward (s t : State) : Prop :=
  s.bsw.sink <+: t.bsw.sink ∧ s.out <+: t.out ∧ t.bsr.src <:+ s.bsr.src ∧ t.namein = s.namein ∧ t.datain = s.datain ∧ t.wdata = s.wdata

theorem Forward.refl (s : State) : Forward s s := by simp

theorem Forward.trap {s t : State} (h : Forward s t) (k : ErrKind) : Forward s (trapEntry k t) := by simpa using h

theorem forward_of_block {s t : State} (h : BlockFrame s t) : Forward s t := by
  obtain ⟨heq, hr, hout⟩ := h
  have hsrc := hr.src
  rw [heq]
  simp [hsrc, hout]

theorem forward_of_file {s t : State} (h : FileFrame s t) : Forward s t := by
  obtain ⟨heq, hw⟩ := h
  have hsink := hw.sink
  rw [heq]
  simp [hsink]

theorem forward_of_reader {s t : State} (heq : t = { s with rdata := t.rdata, bsr := t.bsr }) (hr : BsrStep s.bsr t.bsr) : Forward s t := by
  have hsrc := hr.src
  rw [heq]
  simp [hsrc]

theorem forward_of_sink {s t : State} (heq : t = { s with bsw := t.bsw }) (hsink : s.bsw.sink <+: t.bsw.sink) : Forward s t := by
  rw [heq]
  simp [hsink]

theorem Sat.of_error {σ α : Type} {p : EStateM ErrKind σ α} {s t : σ} {k : ErrKind} {Q : α → σ → Prop} {E : ErrKind → σ → Prop}
    (h : Sat p s Q E) (hp : p s = .error k t) : E k t := by
  unfold Sat at h
  rwa [hp] at h

/-- The procedure p, run from s, moves the streams forward whether it ends or raises. -/
abbrev MovesForward (p : Proc Unit) (s : State) : Prop := Sat p s (fun _ t => Forward s t) (fun _ t => Forward s t)

theorem movesForward_of_writesOnly {p : Proc Unit} {s : State} (h : Sat p s (WritesOnly s).1 (WritesOnly s).2) : MovesForward p s :=
  h.weaken (fun _ _ ⟨heq, hw⟩ => forward_of_sink heq hw.sink) fun _ _ ⟨_, heq, hw⟩ => forward_of_sink heq hw.sink

/-- A procedure that raises, if at all, before its first write. -/
theorem movesForward_of_sat {p : Proc Unit} {s : State} {Q : Unit → State → Prop} {kind : ErrKind → Prop}
    (h : Sat p s Q fun k t => kind k ∧ t = s) (hq : ∀ t, Q () t → Forward s t) : MovesForward p s :=
  h.weaken (fun _ t => hq t) fun _ _ ht => ht.2 ▸ .refl s

/-- The procedure of every command but RESET moves the streams forward. -/
theorem procOf_movesForward {i : Instr} (hi : i ≠ .reset) (hw : i.wf = true) (s : State) : MovesForward (procOf i) s := by
  cases i with
  | reset => exact absurd rfl hi
  -- FREQ, RDATA or LL alone, and no raise.
  | fclr | fset y | fget y | lclr => simp [MovesForward, Sat, procOf, freqClear, fsetProc, fgetProc, listClear]
  -- The tables and the results alone, with every raise before the first write.
  | finc y => exact movesForward_of_sat (freqInc_sat (of_decide_eq_true hw) s) fun t ht => by rw [ht.1]; simp
  | build => exact movesForward_of_sat (build_sat tieBreak s) fun t ht => by rw [ht.1]; simp
  | ctrd k => exact movesForward_of_sat (ctrdProc_sat k s) fun t ht => by rw [ht]; simp
  | lpush y l => exact movesForward_of_sat (listPush_sat y l s) fun t ht => by rw [ht.1]; simp
  | rebuild => exact movesForward_of_sat (rebuild_frame s) fun t ht => by rw [ht.1]; simp
  | walk b => exact movesForward_of_sat (walkProc_sat b s) fun t ht => by rw [ht.1]; simp
  -- The writer.
  | wrbits n => exact movesForward_of_writesOnly (wrbitsProc_sat n s)
  | hdrwr => exact movesForward_of_writesOnly (hdrwrProc_sat s)
  | encsym y => exact movesForward_of_writesOnly (encsymProc_sat y s)
  | wrflush => exact movesForward_of_sat (wrflushProc_sat s) fun _ ⟨heq, hsink, _⟩ => forward_of_sink heq hsink
  | encclose => exact movesForward_of_sat (enccloseProc_sat s) fun _ ⟨heq, hsink, _⟩ => forward_of_sink heq hsink
  | encfile => exact (encfileProc_sat tieBreak s).weaken (fun _ _ ht => forward_of_file ht.1) fun _ _ ht => forward_of_file ht.2
  -- The reader and OUT.
  | rdbits n =>
    exact (rdbitsProc_sat n s).weaken (fun _ _ ⟨heq, hr⟩ => forward_of_reader heq hr)
      fun _ _ ⟨_, heq, hr⟩ => forward_of_reader (by rw [heq]) hr
  | hdrrd =>
    exact (readHeader_sat s).weaken (fun _ _ ⟨⟨heq, hr⟩, _⟩ => forward_of_block ⟨by rw [heq], hr, by rw [heq]⟩)
      fun _ _ ⟨_, heq, hr⟩ => forward_of_reader (by rw [heq]) hr
  | decsym =>
    exact (decsymProc_sat s).weaken (fun _ _ ⟨heq, hr, _⟩ => forward_of_block ⟨by rw [heq], hr, by rw [heq]⟩)
      fun _ _ ht => forward_of_block ht.2.frame
  | decblock => exact (decblockProc_sat s).weaken (fun _ _ ht => forward_of_block ht.1) fun _ _ ht => forward_of_block ht.2
  | decall => exact (decallProc_sat s).weaken (fun _ _ ht => forward_of_block ht.1) fun _ _ ht => forward_of_block ht.2

/-- Every command but RESET moves the streams forward, a trap included (60_exceptions.md R246, R247). -/
theorem exec_forward {i : Instr} {s t : State} (hi : i ≠ .reset) (h : exec i s = .next t) : Forward s t := by
  rw [exec_eq_command hi] at h
  rcases command_cases h with ⟨-, rfl⟩ | ⟨-, -, rfl⟩ | ⟨-, hw, hp⟩ | ⟨-, hw, k, u, hp, rfl⟩
  · exact .refl _
  · exact (Forward.refl s).trap _
  · exact (procOf_movesForward hi hw s).of_ok hp
  · exact ((procOf_movesForward hi hw s).of_error hp).trap k

/-- Settles O60: RESET keeps the streams and the host's inputs; every other command moves them forward. -/
theorem streamsOnlyMoveForward : Obligations.StreamsOnlyMoveForward := by
  intro i s t h
  by_cases hi : i = .reset
  · subst hi
    cases h
    simp
  · obtain ⟨hsink, hout, hsrc, hnamein, hdatain, hwdata⟩ := exec_forward hi h
    exact ⟨hsink, hout, hsrc, hnamein, hdatain, fun _ => hwdata⟩

/-! ### The register map -/

theorem step_of_script {s : State} {a : HostAction} {rest : List HostAction} (h : s.script = a :: rest) :
    step s = hostAction a { s with script := rest } := by
  simp only [step, h]

/-- No register is a view of the script (log entry 1). -/
theorem regValue_script (s : State) (rest : List HostAction) (r : HostReg) :
    State.regValue { s with script := rest } r = s.regValue r := by
  cases r <;> rfl

/-- A read of a whole register gives the host its value (20_memory.md R70, 44_system.md R231). -/
theorem step_readReg {s : State} {off : Nat} {size : AccessSize} {r : HostReg} {rest : List HostAction}
    (hr : regAt off size = some r) (h : s.script = .readReg off size :: rest) :
    step s = .next { s with script := rest, reads := s.reads ++ [⟨off, s.regValue r⟩] } := by
  rw [step_of_script h]
  simp only [hostAction, hostRead, hr, recordRead, regValue_script]

/-- A write to a whole register (20_memory.md R70, 44_system.md R232). -/
theorem step_writeReg {s : State} {off : Nat} {size : AccessSize} {v : BitVec 64} {r : HostReg} {rest : List HostAction}
    (hr : regAt off size = some r) (h : s.script = .writeReg off size v :: rest) :
    step s = writeHostReg r v { s with script := rest } := by
  rw [step_of_script h]
  simp only [hostAction, hostWrite, hr]

theorem rcodeWords_eq : rcodeWords = 5 := rfl

/-- The access lies in the reserved offsets, for MAXLEN = 258 (20_memory.md R70, log entry 5). -/
def ReservedAccess (off : Nat) (size : AccessSize) : Prop :=
  0x28 ≤ off ∧ off + size.bytes ≤ 0x40 ∨ 0x68 ≤ off ∧ off + size.bytes ≤ 0x80

/-- An access to a reserved offset reaches no register (20_memory.md R70). -/
theorem regAt_reserved {off : Nat} {size : AccessSize} (h : ReservedAccess off size) :
    regAt off size = none ∧ reservedAt off size = true := by
  constructor
  · cases size with
    | b1 | b2 => rfl
    | b4 =>
      rw [ReservedAccess, AccessSize.bytes] at h
      simp (disch := omega) only [regAt, if_neg]
    | b8 =>
      rw [ReservedAccess, AccessSize.bytes] at h
      rw [regAt, if_neg (by omega), if_neg (by omega), rcodeWords_eq, if_neg (by omega)]
  · simp only [reservedAt, Bool.or_eq_true, Bool.and_eq_true, decide_eq_true_eq]
    exact h

theorem step_readReg_reserved {s : State} {off : Nat} {size : AccessSize} {rest : List HostAction}
    (hoff : ReservedAccess off size) (h : s.script = .readReg off size :: rest) :
    step s = .next { s with script := rest, reads := s.reads ++ [⟨off, 0⟩] } := by
  obtain ⟨hreg, hres⟩ := regAt_reserved hoff
  rw [step_of_script h]
  simp only [hostAction, hostRead, hreg, hres, if_true, recordRead]

theorem step_writeReg_reserved {s : State} {off : Nat} {size : AccessSize} {v : BitVec 64} {rest : List HostAction}
    (hoff : ReservedAccess off size) (h : s.script = .writeReg off size v :: rest) :
    step s = .next { s with script := rest } := by
  obtain ⟨hreg, hres⟩ := regAt_reserved hoff
  rw [step_of_script h]
  simp only [hostAction, hostWrite, hreg, hres, if_true]

theorem regAt_rcode {j : Nat} (hj : j < 5) : regAt (0x40 + 8 * j) .b8 = some (.rcode j) := by
  rw [regAt, if_neg (by omega), if_neg (by omega), rcodeWords_eq, if_pos (by omega)]
  congr 2
  omega

/-- A count of at most 9 bits as the host reads it (10_state.md R30, R31). -/
theorem setWidth_ofNat_nine (n : Nat) : (BitVec.ofNat 9 n).setWidth 64 = BitVec.ofNat 64 (n % 512) := by
  refine BitVec.eq_of_toNat_eq ?_
  simp only [BitVec.toNat_setWidth, BitVec.toNat_ofNat]

/-- Settles O11, register by register. -/
theorem hostReadsFollowTheRegisterMap : Obligations.HostReadsFollowTheRegisterMap := by
  intro s
  refine ⟨fun off size v hmem rest h => ?_, fun j rest hj h => ?_, fun off size rest hoff h => step_readReg_reserved hoff h⟩
  · obtain ⟨r, hr, hv⟩ : ∃ r, regAt off size = some r ∧ s.regValue r = v := by
      simp only [List.mem_cons, Prod.mk.injEq, List.not_mem_nil, or_false] at hmem
      rcases hmem with ⟨rfl, rfl, rfl⟩ | ⟨rfl, rfl, rfl⟩ | ⟨rfl, rfl, rfl⟩ | ⟨rfl, rfl, rfl⟩ | ⟨rfl, rfl, rfl⟩ | ⟨rfl, rfl, rfl⟩ |
        ⟨rfl, rfl, rfl⟩ | ⟨rfl, rfl, rfl⟩
      · exact ⟨.cmd, rfl, rfl⟩
      · exact ⟨.status, rfl, rfl⟩
      · exact ⟨.wdata, rfl, rfl⟩
      · exact ⟨.rdata, rfl, rfl⟩
      · exact ⟨.rsym, rfl, rfl⟩
      · exact ⟨.rlen, rfl, rfl⟩
      · exact ⟨.ns, rfl, setWidth_ofNat_nine _⟩
      · exact ⟨.ln, rfl, setWidth_ofNat_nine _⟩
    rw [← hv]
    exact step_readReg hr h
  · exact ⟨s.regValue (.rcode j), step_readReg (regAt_rcode hj) h, fun i hi => by simp [State.regValue, hi]⟩

/-- A register that a host write does not change: neither CMD nor WDATA (44_system.md R232). -/
def HostReg.readOnly (r : HostReg) : Prop := r ≠ .cmd ∧ r ≠ .wdata

theorem writeHostReg_readOnly {r : HostReg} (hr : r.readOnly) (v : BitVec 64) (s : State) : writeHostReg r v s = .next s := by
  obtain ⟨hcmd, hwdata⟩ := hr
  cases r with
  | cmd => exact absurd rfl hcmd
  | wdata => exact absurd rfl hwdata
  | _ => rfl

/-- Settles O12, register by register. -/
theorem hostWritesReachOnlyWdata : Obligations.HostWritesReachOnlyWdata := by
  intro s v rest
  refine ⟨fun h => step_writeReg (r := .wdata) rfl h, fun off size hmem h => ?_, fun off size hoff h => step_writeReg_reserved hoff h⟩
  obtain ⟨r, hr, hro⟩ : ∃ r, regAt off size = some r ∧ r.readOnly := by
    simp only [List.mem_cons, Prod.mk.injEq, List.not_mem_nil, or_false] at hmem
    rcases hmem with ⟨rfl, rfl⟩ | ⟨rfl, rfl⟩ | ⟨rfl, rfl⟩ | ⟨rfl, rfl⟩ | ⟨rfl, rfl⟩ | ⟨rfl, rfl⟩ | ⟨rfl, rfl⟩ | ⟨rfl, rfl⟩ |
      ⟨rfl, rfl⟩ | ⟨rfl, rfl⟩ | ⟨rfl, rfl⟩
    all_goals exact ⟨_, rfl, by simp [HostReg.readOnly]⟩
  rw [step_writeReg hr h, writeHostReg_readOnly hro]

end Sys2Proof.Machine
end

section
/-! PROOFS. Command words (spec 30_encoding.md): decoding and encoding undo each other (R90, R91), the opcode table says which words
decode and which are legal (R92, R94), and a word written to CMD meets the checks of R95 in their order. -/

namespace Sys2Proof

/-! ### Formats -/

/-- The format of a command (R92). -/
def Instr.format : Instr → Format
  | .rdbits _ | .wrbits _ | .finc _ | .fset _ | .fget _ | .ctrd _ | .walk _ | .encsym _ => .a
  | .lpush _ _ => .ab
  | _ => .z

/-- The operand fields a and b are 0 where the format lacks them (R91). -/
def Format.Fits (f : Format) (a b : BitVec 9) : Prop := (f ≠ .ab → b = 0) ∧ (f = .z → a = 0)

/-- What a format's mask asks of a word: the reserved bits are 0, and so are the fields the format lacks (R91). -/
theorem mask_iff (f : Format) (w : Word) :
    w &&& f.mask = matchWord (opField w) ↔ w &&& 0x00E00E00#32 = 0 ∧ f.Fits (aField w) (bField w) := by
  cases f with
  | z => simp [mask_z, Format.Fits]
  | a => simp [mask_a, Format.Fits]
  | ab => simp [mask_ab, Format.Fits]

theorem Instr.format_fits (i : Instr) : i.format.Fits i.aOperand i.bOperand := by
  cases i <;> simp [Instr.format, Format.Fits, Instr.aOperand, Instr.bOperand]

theorem packWord_reserved (o : BitVec 8) (b a : BitVec 9) : packWord o b a &&& 0x00E00E00#32 = 0 := by
  refine BitVec.eq_of_getLsbD_eq fun i hi => ?_
  rw [BitVec.getLsbD_and, packWord_getLsbD]
  interval_cases i <;> simp

/-! ### Decoding and encoding -/

theorem opField_encode (i : Instr) : opField (encode i) = i.opcode := opField_packWord _ _ _
theorem aField_encode (i : Instr) : aField (encode i) = i.aOperand := aField_packWord _ _ _
theorem bField_encode (i : Instr) : bField (encode i) = i.bOperand := bField_packWord _ _ _

/-- The word of a command matches its format and opcode (R91). -/
theorem encode_mask (i : Instr) : encode i &&& i.format.mask = matchWord i.opcode := by
  rw [← opField_encode, mask_iff, aField_encode, bField_encode]
  exact ⟨packWord_reserved _ _ _, i.format_fits⟩

theorem opcodeRow_opcode (i : Instr) : opcodeRow i.opcode i.aOperand i.bOperand = some (i.format, i) := by
  cases i <;> rfl

/-- The command of an opcode has that opcode and the operands it was given, as far as its format has them. -/
theorem opcodeRow_some {op : BitVec 8} {a b : BitVec 9} {f : Format} {i : Instr} (h : opcodeRow op a b = some (f, i)) :
    i.opcode = op ∧ i.format = f ∧ (f.Fits a b → i.aOperand = a ∧ i.bOperand = b) := by
  unfold opcodeRow at h
  -- One goal per opcode of the table; the last, for every other opcode, has no row.
  split at h
  all_goals cases h
  all_goals
    refine ⟨BitVec.eq_of_toNat_eq (Eq.symm ‹_›), rfl, ?_⟩
    simp +contextual [Format.Fits, Instr.aOperand, Instr.bOperand]

/-- A word decodes to a command exactly when it is that command's word. -/
theorem decode_eq_ok_iff {w : Word} {i : Instr} : decode w = .ok i ↔ encode i = w := by
  constructor
  · intro h
    unfold decode at h
    split at h
    · cases h
    · rename_i f j hrow
      split at h
      · rename_i hmask
        cases h
        obtain ⟨hreserved, hfits⟩ := (mask_iff f w).mp hmask
        obtain ⟨hop, -, hoperands⟩ := opcodeRow_some hrow
        obtain ⟨ha, hb⟩ := hoperands hfits
        rw [encode_eq_packWord, hop, ha, hb, packWord_fields hreserved]
      · cases h
  · rintro rfl
    simp only [decode, opField_encode, aField_encode, bField_encode, opcodeRow_opcode, encode_mask, if_true]

/-- Settles O1: a command decodes from its own word. -/
theorem decodeOfEncodeIsTheCommand : Obligations.DecodeOfEncodeIsTheCommand :=
  fun _ => decode_eq_ok_iff.mpr rfl

/-- Settles O2: the word of the decoded command is the only one that decodes to it. -/
theorem encodeOfDecodeIsTheWord : Obligations.EncodeOfDecodeIsTheWord :=
  fun _ _ => decode_eq_ok_iff.mp

/-- Settles O3: the seven words are those of the seven commands. -/
theorem specWordsDecode : Obligations.SpecWordsDecode := by
  simp only [Obligations.SpecWordsDecode, decode_eq_ok_iff]
  decide

end Sys2Proof

namespace Sys2Proof.Machine

/-! ### The opcode table -/

/-- The operands a and b are in the row's ranges (R94). -/
def OpcodeRow.InRange (row : OpcodeRow) (a b : BitVec 9) : Prop :=
  row.aLo ≤ a.toNat ∧ a.toNat ≤ row.aHi ∧ row.bLo ≤ b.toNat ∧ b.toNat ≤ row.bHi

/-- The row is that of the command: its opcode, its format's mask and its operand ranges. -/
structure OpcodeRow.Describes (row : OpcodeRow) (i : Instr) : Prop where
  op    : row.op = i.opcode
  mask  : row.mask = i.format.mask
  range : row.InRange i.aOperand i.bOperand ↔ i.wf = true

/-- The decoder knows every row's opcode, and reads it with any operands as a command the row describes. -/
theorem opcodeRow_of_mem {row : OpcodeRow} (h : row ∈ opcodeTable) (a b : BitVec 9) :
    ∃ f i, opcodeRow row.op a b = some (f, i) ∧ row.Describes i := by
  have ha : a.toNat ≤ 511 := Nat.le_of_lt_succ a.isLt
  have hb : b.toNat ≤ 511 := Nat.le_of_lt_succ b.isLt
  simp only [opcodeTable, List.cons_append, List.nil_append, List.mem_cons, List.not_mem_nil, or_false] at h
  rcases h with rfl | rfl | rfl | rfl | rfl | rfl | rfl | rfl | rfl | rfl | rfl | rfl | rfl | rfl | rfl | rfl | rfl | rfl | rfl |
    rfl | rfl | rfl <;>
  exact ⟨_, _, rfl, rfl, rfl, by
    simp [OpcodeRow.InRange, Instr.wf, Instr.aOperand, Instr.bOperand, Nat.lt_succ_iff, ha, hb]⟩

theorem opcode_mem_opcodeTable (i : Instr) : i.opcode ∈ opcodeTable.map OpcodeRow.op := by
  cases i <;> simp [opcodeTable, Instr.opcode]

/-- Every command has a row. -/
theorem exists_row_describes (i : Instr) : ∃ row ∈ opcodeTable, row.Describes i := by
  obtain ⟨row, hmem, hop⟩ := List.mem_map.mp (opcode_mem_opcodeTable i)
  obtain ⟨f, j, hrow, hdesc⟩ := opcodeRow_of_mem hmem i.aOperand i.bOperand
  rw [hop, opcodeRow_opcode] at hrow
  cases hrow
  exact ⟨row, hmem, hdesc⟩

/-- Every format's mask covers the opcode (R91). -/
theorem opField_of_match {f : Format} {op : BitVec 8} {w : Word} (h : w &&& f.mask = matchWord op) : opField w = op := by
  have hmask : opField f.mask = BitVec.allOnes 8 := by cases f <;> decide
  have hmatch : opField (matchWord op) = op := by
    refine BitVec.eq_of_getLsbD_eq fun i hi => ?_
    simp [opField, matchWord, hi, show 24 + i < 32 by omega]
  calc opField w = opField (w &&& f.mask) := by
        rw [opField, opField, BitVec.extractLsb'_and, ← opField, ← opField, hmask, BitVec.and_allOnes]
    _ = op := by rw [h, hmatch]

/-- A word that decodes matches the row of its command (R91). -/
theorem match_of_decode {w : Word} {i : Instr} {row : OpcodeRow} (hw : decode w = .ok i) (hrow : row.Describes i) :
    w &&& row.mask = matchWord row.op := by
  obtain rfl := decode_eq_ok_iff.mp hw
  rw [hrow.mask, hrow.op, encode_mask]

theorem opField_of_decode {w : Word} {i : Instr} (h : decode w = .ok i) : opField w = i.opcode := by
  rw [← decode_eq_ok_iff.mp h, opField_encode]

theorem operands_of_decode {w : Word} {i : Instr} (h : decode w = .ok i) :
    w.extractLsb' 0 9 = i.aOperand ∧ w.extractLsb' 12 9 = i.bOperand := by
  rw [← decode_eq_ok_iff.mp h]
  exact ⟨aField_encode i, bField_encode i⟩

/-- A word that matches a row decodes to a command the row describes. -/
theorem decode_of_match {w : Word} {row : OpcodeRow} (hmem : row ∈ opcodeTable) (hw : w &&& row.mask = matchWord row.op) :
    ∃ i, decode w = .ok i ∧ row.Describes i := by
  obtain ⟨f, i, hrow, hdesc⟩ := opcodeRow_of_mem hmem (aField w) (bField w)
  rw [hdesc.mask, (opcodeRow_some hrow).2.1] at hw
  have hop := opField_of_match hw
  rw [← hop] at hw hrow
  exact ⟨i, by simp only [decode, hrow, if_pos hw], hdesc⟩

/-- Settles O4: rows and commands match each other, and a word has the operand fields of the command it decodes to. -/
theorem decodingFollowsTheOpcodeTable : Obligations.DecodingFollowsTheOpcodeTable := by
  intro w
  refine ⟨⟨?_, ?_⟩, ?_, ?_⟩
  · rintro ⟨i, hw⟩
    obtain ⟨row, hmem, hdesc⟩ := exists_row_describes i
    exact ⟨row, hmem, match_of_decode hw hdesc⟩
  · rintro ⟨row, hmem, hmatch⟩
    obtain ⟨i, hw, -⟩ := decode_of_match hmem hmatch
    exact ⟨i, hw⟩
  · rintro ⟨i, hw, hwf⟩
    obtain ⟨row, hmem, hdesc⟩ := exists_row_describes i
    obtain ⟨ha, hb⟩ := operands_of_decode hw
    refine ⟨row, hmem, match_of_decode hw hdesc, ?_⟩
    rw [ha, hb]
    exact hdesc.range.mpr hwf
  · rintro ⟨row, hmem, hmatch, hrange⟩
    obtain ⟨i, hw, hdesc⟩ := decode_of_match hmem hmatch
    obtain ⟨ha, hb⟩ := operands_of_decode hw
    rw [ha, hb] at hrange
    exact ⟨i, hw, hdesc.range.mp hrange⟩

theorem legalWord_iff {w : Word} : legalWord w ↔ ∃ i, decode w = .ok i ∧ i.wf = true :=
  (decodingFollowsTheOpcodeTable w).2.symm

/-! ### A word written to CMD -/

theorem step_issue {s : State} {w : Word} {rest : List HostAction} (h : s.script = HostAction.issue w :: rest) :
    step s = issueWord w { s with script := rest } := by
  rw [step_writeReg (r := .cmd) rfl h, writeHostReg, BitVec.setWidth_setWidth_of_le _ (by decide), BitVec.setWidth_eq]

theorem decode_resetWord : decode resetWord = .ok .reset := decode_eq_ok_iff.mpr (by decide)

/-- A word that decodes runs its command, while FAULT = 1 only RESET (R95 steps 1 to 3). -/
theorem issueWord_of_decode {w : Word} {i : Instr} {s : State} (hw : decode w = .ok i) (hi : s.fault = false ∨ i = .reset) :
    issueWord w s = exec i s := by
  by_cases hreset : w = resetWord
  · rw [hreset, decode_resetWord] at hw
    cases hw
    rw [issueWord, if_pos hreset]
  · have hf : s.fault = false := hi.resolve_right fun h => hreset (by rw [← decode_eq_ok_iff.mp hw, h]; decide)
    simp only [issueWord, if_neg hreset, hf, hw, Bool.false_eq_true, if_false]

theorem issueWord_of_fault {w : Word} {s : State} (hw : w ≠ resetWord) (hf : s.fault = true) : issueWord w s = .next s := by
  rw [issueWord, if_neg hw, if_pos hf]

theorem exec_of_not_wf {i : Instr} {s : State} (hf : s.fault = false) (hi : i.wf = false) :
    exec i s = .next (trapEntry .illegalCommand s) := by
  have hreset : i ≠ .reset := by
    rintro rfl
    exact absurd hi (by decide)
  rw [exec_eq_command hreset, command_illegal hf hi]

/-- A word that is not legal raises IllegalCommandError: it does not decode (R95 step 3), or its command is not well formed (step 4). -/
theorem issueWord_of_not_legal {w : Word} {s : State} (hf : s.fault = false) (hw : ¬ legalWord w) :
    issueWord w s = .next (trapEntry .illegalCommand s) := by
  rw [legalWord_iff] at hw
  cases hd : decode w with
  | error r =>
    have hreset : w ≠ resetWord := by
      rintro rfl
      rw [decode_resetWord] at hd
      cases hd
    simp only [issueWord, if_neg hreset, hf, hd, Bool.false_eq_true, if_false]
  | ok i => rw [issueWord_of_decode hd (.inl hf), exec_of_not_wf hf (Bool.eq_false_iff.mpr fun hwf => hw ⟨i, hd, hwf⟩)]

/-- Settles O5, check by check. -/
theorem commandIssueFollowsTheChecks : Obligations.CommandIssueFollowsTheChecks := by
  intro s w rest h
  rw [step_issue h]
  refine ⟨?_, fun hw hf => issueWord_of_fault hw hf, fun _ hf hlegal => issueWord_of_not_legal hf hlegal, fun _ hf hlegal => ?_⟩
  · rintro rfl
    exact issueWord_of_decode decode_resetWord (.inr rfl)
  · obtain ⟨i, hw, hwf⟩ := legalWord_iff.mp hlegal
    exact ⟨i, hw, hwf, issueWord_of_decode hw (.inl hf)⟩

/-- A word whose opcode has no row is not legal (R96). -/
theorem not_legalWord_of_opcode {w : Word} (h : opField w ∉ opcodeTable.map OpcodeRow.op) : ¬ legalWord w := by
  rw [legalWord_iff]
  rintro ⟨i, hw, -⟩
  exact h (opField_of_decode hw ▸ opcode_mem_opcodeTable i)

/-- Settles O6: a row's opcode is that of some command's word, and the opcodes 0x00 and 0xFF have no row. -/
theorem unassignedOpcodesAreIllegal : Obligations.UnassignedOpcodesAreIllegal := by
  refine ⟨by decide, rfl, fun row hmem => ?_, fun s w rest h hf hw => ?_⟩
  · obtain ⟨-, i, -, hdesc⟩ := opcodeRow_of_mem hmem 0 0
    have hw : decode (encode i) = .ok i := decode_eq_ok_iff.mpr rfl
    exact ⟨encode i, i, (opField_of_decode hw).trans hdesc.op.symm, hw⟩
  · rw [step_issue h]
    refine issueWord_of_not_legal hf (not_legalWord_of_opcode ?_)
    rcases hw with hop | rfl | rfl
    · exact hop
    · decide
    · decide

/-- Settles O7; `withFetchWord` puts the word in front of the script, which the step takes off again. -/
theorem stepRunsTheDecodedCommand : Obligations.StepRunsTheDecodedCommand := by
  intro s w i rest hw hi
  refine ⟨fun h => ?_, ?_⟩
  · rw [step_issue h]
    exact issueWord_of_decode hw hi
  · have hscript : (s.withFetchWord 32 w.toNat).script = HostAction.issue w :: s.script := by
      rw [withFetchWord_script, Nat.mod_eq_of_lt w.isLt, BitVec.ofNat_toNat, BitVec.setWidth_eq]
    rw [step_issue hscript]
    exact issueWord_of_decode hw hi

end Sys2Proof.Machine
end

section
/-! PROOFS. The bit reader and writer (spec 40_bitstream.md): what a fetch delivers (R130), the commands RDBITS, WRBITS and WRFLUSH
(R131, R133, R135), and fields read back from the bytes they were written to (R136, R137). -/

namespace Sys2Proof.Machine

/-! ### Fetches and RDBITS -/

/-- Settles O15, branch by branch. -/
theorem fetchBitDeliversTheNextBit : Obligations.FetchBitDeliversTheNextBit := by
  intro r
  refine ⟨fun hcnt hsrc => ?_, fun b rest hcnt hsrc => ?_, fun hcnt => ?_⟩
  · simp only [fetchBit, if_pos hcnt, srcNext, hsrc]
  · rw [fetchBit, if_pos hcnt]
    simp [srcNext, hsrc, bufferedBit]
  · rw [fetchBit, if_neg hcnt, bufferedBit]

/-- Appended zeros change no bit, where a bit past the end reads as 0 (R130). -/
theorem getD_append_zeros (bs : List Bool) (n i : Nat) : (bs ++ List.replicate n false).getD i false = bs.getD i false := by
  rcases Nat.lt_or_ge i bs.length with h | h
  · exact List.getD_append _ _ _ _ h
  · rw [List.getD_append_right _ _ _ _ h, List.getD_eq_getElem?_getD, List.getElem?_getD_replicate_default_eq,
      List.getD_eq_default _ _ h]

/-- Bit i of n fetched bits: the i-th unread bit, 0 past the end (R131). -/
theorem fetchBits_getD (n : Nat) {r : Bsr} (h8 : r.rcnt.toNat ≤ 8) (i : Nat) :
    (fetchBits n r).1.getD i false = (decide (i < n) && r.unread.getD i false) := by
  rw [(fetchBits_spec n r h8).1, ← getD_append_zeros r.unread n]
  simp only [List.getD_eq_getElem?_getD, List.getElem?_take]
  by_cases hi : i < n
  · rw [if_pos hi, decide_eq_true hi, Bool.true_and]
  · rw [if_neg hi, decide_eq_false hi, Bool.false_and, Option.getD_none]

/-- The legal widths (30_encoding.md R94). -/
theorem rdbits_wf (n : BitVec 9) : (Instr.rdbits n).wf = decide (1 ≤ n.toNat ∧ n.toNat ≤ 64) := (Bool.decide_and _ _).symm

theorem rdbitsProc_of_eos {s : State} (n : BitVec 9) (he : s.bsr.eos = true) : rdbitsProc n s = .error .endOfStream s := by
  have hread : bsrRead n.toNat s.bsr = .error .endOfStream s.bsr := by rw [bsrRead_eq, if_pos he]
  rw [rdbitsProc, proc_bind, liftBsr_error hread]

theorem rdbitsProc_of_not_eos {s : State} (n : BitVec 9) (he : s.bsr.eos = false) :
    rdbitsProc n s = .ok () { s with
      rdata := BitVec.ofNat 64 (natOfBits (fetchBits n.toNat s.bsr).1), bsr := (fetchBits n.toNat s.bsr).2 } := by
  have hread := bsrRead_eq n.toNat s.bsr
  rw [if_neg (by simp [he])] at hread
  simp only [rdbitsProc, proc_bind, liftBsr_ok hread, proc_modify]

/-- Settles O16: RDATA is the number of the fetched bits. -/
theorem rdbitsReadsTheNextBits : Obligations.RdbitsReadsTheNextBits := by
  intro n s hf h8
  have hwf := rdbits_wf n
  refine ⟨fun h1 h64 he => ?_, fun h1 h64 he => ?_, fun hn => ?_⟩
  · obtain ⟨-, hunread, heos, hrcnt, -⟩ := fetchBits_spec n.toNat s.bsr h8
    refine ⟨_, _, command_ok hf (by simp [hwf, h1, h64]) (rdbitsProc_of_not_eos n he), fun i => ?_, hunread, ?_, hrcnt⟩
    · rw [BitVec.getLsbD_ofNat, natOfBits_testBit, fetchBits_getD _ h8]
      by_cases hi : i < n.toNat
      · rw [decide_eq_true (show i < 64 by omega), Bool.true_and]
      · rw [decide_eq_false hi, Bool.false_and, Bool.and_false]
    · rw [heos, he, Bool.false_or]
  · exact command_error hf (by simp [hwf, h1, h64]) (rdbitsProc_of_eos n he)
  · exact exec_of_not_wf hf (by rw [hwf, decide_eq_false_iff_not]; omega)

/-! ### WRBITS and WRFLUSH -/

theorem wrbits_wf (n : BitVec 9) : (Instr.wrbits n).wf = decide (1 ≤ n.toNat ∧ n.toNat ≤ 64) := rdbits_wf n

/-- A write command on a closed writer raises at its entry check (10_state.md R27, 60_exceptions.md R254). -/
theorem checkOpen_bind_closed {α : Type} {s : State} (p : Proc α) (h : s.bsw.wclosed = true) :
    (do checkOpen; p) s = .error .illegalCommand s := by
  rw [proc_bind, checkOpen_closed h]

theorem wrbitsProc_open {s : State} (n : BitVec 9) (h : s.bsw.wclosed = false) :
    wrbitsProc n s = .ok () { s with bsw := bswWrite s.wdata n.toNat s.bsw } := by
  simp only [wrbitsProc, proc_bind, checkOpen_open h, proc_get, onBsw_apply]

theorem wrflushProc_open {s : State} (h : s.bsw.wclosed = false) :
    wrflushProc s = .ok () { s with bsw := bswDispose s.bsw } := by
  simp only [wrflushProc, proc_bind, checkOpen_open h, onBsw_apply]

theorem bswDispose_eq (w : Bsw) :
    bswDispose w = ⟨if w.wfill = 0 then w.sink else w.sink ++ [w.wacc], 0, 0, true⟩ := by
  by_cases h : w.wfill = 0
  · rw [bswDispose, if_pos h, if_pos h]
  · rw [bswDispose, if_neg h, if_neg h, sinkPut]

/-- Settles O18: the write appends the bits of WDATA's field. -/
theorem wrbitsAppendsTheLowBits : Obligations.WrbitsAppendsTheLowBits := by
  intro n s hf
  have hwf := wrbits_wf n
  refine ⟨fun h1 h64 ho => ?_, fun h1 h64 hc => ?_, fun hn => ?_⟩
  · exact ⟨_, command_ok hf (by simp [hwf, h1, h64]) (wrbitsProc_open n ho), appendBits_bits _ _, (appendBits_wclosed _ _).trans ho,
      appendBits_sink _ _, appendBits_clean _ _⟩
  · exact command_error hf (by simp [hwf, h1, h64]) (checkOpen_bind_closed _ hc)
  · exact exec_of_not_wf hf (by rw [hwf, decide_eq_false_iff_not]; omega)

/-- Settles O19: the writer is disposed of when it is open. -/
theorem wrflushEmitsThePartialByte : Obligations.WrflushEmitsThePartialByte := by
  intro s hf
  refine ⟨fun ho => ?_, fun hc => command_error hf rfl (checkOpen_bind_closed _ hc)⟩
  rw [← bswDispose_eq]
  exact command_ok hf rfl (wrflushProc_open ho)

/-! ### Reading back what was written -/

/-- Reading a field gives its low n bits (R131). -/
theorem bsrRead_field {r : Bsr} {v : BitVec 64} {n : Nat} {rest : List Bool} (h : r.live) (hu : r.unread = fieldBits v n ++ rest) :
    ∃ r', bsrRead n r = .ok (BitVec.ofNat 64 (v.toNat % 2 ^ n)) r' ∧ r'.unread = rest ∧ r'.live := by
  obtain ⟨r', hread, hrest, hlive, -⟩ := bsrRead_bits h hu
  rw [fieldBits_length, natOfBits_fieldBits] at hread
  exact ⟨r', hread, hrest, hlive⟩

/-- Reading fields one after the other, with the widths they have, gives their values (R136). -/
theorem readAll_fields (l : List (BitVec 64 × Nat)) {r : Bsr} {rest : List Bool} (h : r.live)
    (hu : r.unread = (l.flatMap fun p => fieldBits p.1 p.2) ++ rest) :
    ∃ r', readAll (l.map Prod.snd) r = .ok (l.map fun p => BitVec.ofNat 64 (p.1.toNat % 2 ^ p.2)) r' ∧
      r'.unread = rest ∧ r'.live := by
  induction l generalizing r with
  | nil => exact ⟨r, rfl, hu, h⟩
  | cons p l ih =>
    rw [List.flatMap_cons, List.append_assoc] at hu
    obtain ⟨r₁, hread, hu₁, h₁⟩ := bsrRead_field h hu
    obtain ⟨r₂, hreads, hrest, h₂⟩ := ih h₁ hu₁
    exact ⟨r₂, by simp only [List.map_cons, readAll, proc_bind, hread, hreads, proc_pure], hrest, h₂⟩

theorem unread_fresh (bs : List Byte) : Bsr.unread ⟨bs, 0, 0, false⟩ = streamBits bs := by
  simp [Bsr.unread, List.drop_eq_nil_of_le]

theorem flatMap_fieldBits_length (l : List (BitVec 64 × Nat)) :
    (l.flatMap fun p => fieldBits p.1 p.2).length = (l.map Prod.snd).sum := by
  simp only [List.length_flatMap, fieldBits_length]

/-- A fresh reader of the disposed writer's bytes reads the written values back and has the padding left (R136). -/
theorem readAll_written (l : List (BitVec 64 × Nat)) :
    ∃ r, readAll (l.map Prod.snd) ⟨(bswDispose (writeAll l ⟨[], 0, 0, false⟩)).sink, 0, 0, false⟩ =
        .ok (l.map fun p => BitVec.ofNat 64 (p.1.toNat % 2 ^ p.2)) r ∧
      r.unread = List.replicate (8 * (((l.map Prod.snd).sum + 7) / 8) - (l.map Prod.snd).sum) false ∧ r.live := by
  refine readAll_fields l ⟨rfl, (by decide : (0 : BitVec 4).toNat ≤ 8)⟩ ?_
  rw [unread_fresh, (writesMakeTheFlatStream l).2, flatMap_fieldBits_length]

/-- Settles O22: EOS stays 0, for no read passes the padding. -/
theorem bitRoundTrip : Obligations.BitRoundTrip := by
  intro l _
  obtain ⟨r, hread, -, hlive⟩ := readAll_written l
  exact ⟨r, hread, hlive.1⟩

theorem natOfBits_replicate_false (n : Nat) : natOfBits (List.replicate n false) = 0 := by
  induction n with
  | zero => rfl
  | succ n ih => simp only [List.replicate_succ, natOfBits, ih, Bool.toNat_false]

/-- Where only p zeros are left, a read gives 0, and EOS says whether it wanted more of them (R137). -/
theorem bsrRead_zeros {r : Bsr} {p : Nat} (m : Nat) (h : r.live) (hu : r.unread = List.replicate p false) :
    ∃ r', bsrRead m r = .ok 0 r' ∧ (r'.eos = true ↔ p < m) := by
  obtain ⟨heos, h8⟩ := h
  obtain ⟨hbits, -, heos', -, -⟩ := fetchBits_spec m r h8
  have hzeros : (fetchBits m r).1 = List.replicate m false := by
    rw [hbits, hu, List.replicate_append_replicate, List.take_replicate, Nat.min_eq_left (Nat.le_add_left m p)]
  refine ⟨(fetchBits m r).2, ?_, ?_⟩
  · rw [bsrRead_eq, if_neg (by simp [heos]), hzeros, natOfBits_replicate_false]
    rfl
  · rw [heos', heos, hu, List.length_replicate, Bool.false_or, decide_eq_true_iff]

/-- Settles O23: what the reads leave is the padding. -/
theorem readPastTheWrittenData : Obligations.ReadPastTheWrittenData := by
  intro l m _ _ _
  obtain ⟨r, hreads, hpadding, hlive⟩ := readAll_written l
  obtain ⟨r', hread, heos⟩ := bsrRead_zeros m hlive hpadding
  exact ⟨r, r', hreads, hread, heos⟩

end Sys2Proof.Machine
end

section
/-! PROOFS. The tree engine (spec 41_tree_engine.md): canonical codes (R160 to R164), ExtractMin and BUILD (R154 to R163), REBUILD and its
tree (R168 to R173), and the commands FCLR, CTRD and WALK (R150, R166, R171). -/

namespace Sys2Proof.Machine

open Sys2Proof.Config (BTree QNode TieBreak)

/-! ### Canonical codes -/

/-- Each value is the one before it plus one, extended to its own length (R162). -/
def Increments (e : List (Nat × Sym)) (v : Nat → Nat) : Prop :=
  ∀ i (h : i + 1 < e.length), v (i + 1) = (v i + 1) * 2 ^ (e[i + 1].1 - e[i].1)

/-- Some value before the last is all ones in its length: the increment that overflows (R162). -/
def OverflowsEarly (e : List (Nat × Sym)) (v : Nat → Nat) : Prop :=
  ∃ i, ∃ h : i + 1 < e.length, v i = 2 ^ e[i].1 - 1

theorem Increments.tail {p : Nat × Sym} {e : List (Nat × Sym)} {v : Nat → Nat} (h : Increments (p :: e) v) :
    Increments e fun i => v (i + 1) := fun i hi => h (i + 1) (Nat.succ_lt_succ hi)

theorem Increments.second {p q : Nat × Sym} {e : List (Nat × Sym)} {v : Nat → Nat} (h : Increments (p :: q :: e) v) :
    (v 0 + 1) <<< (q.1 - p.1) = v 1 := by
  rw [Nat.shiftLeft_eq]; exact (h 0 (by simp)).symm

theorem not_overflowsEarly_single (p : Nat × Sym) (v : Nat → Nat) : ¬ OverflowsEarly [p] v := by
  rintro ⟨i, hi, -⟩; simp at hi

theorem overflowsEarly_cons_cons {p q : Nat × Sym} {e : List (Nat × Sym)} {v : Nat → Nat} :
    OverflowsEarly (p :: q :: e) v ↔ v 0 = 2 ^ p.1 - 1 ∨ OverflowsEarly (q :: e) fun i => v (i + 1) := by
  constructor
  · rintro ⟨i, hi, h⟩
    cases i with
    | zero => exact .inl h
    | succ i => exact .inr ⟨i, Nat.lt_of_succ_lt_succ hi, h⟩
  · rintro (h | ⟨i, hi, h⟩)
    · exact ⟨0, by simp, h⟩
    · exact ⟨i + 1, Nat.succ_lt_succ hi, h⟩

/-- After an entry p of value v 0, `Assign` fails on an early overflow and else gives the entries the values v 1, v 2, … (R162). -/
theorem assignFrom_eq (p : Nat × Sym) (e : List (Nat × Sym)) (v : Nat → Nat) (hv : Increments (p :: e) v) :
    (OverflowsEarly (p :: e) v → assignFrom p.1 (v 0) e = none) ∧
    (¬ OverflowsEarly (p :: e) v →
      assignFrom p.1 (v 0) e = some (e.mapIdx fun i q => tableEntry q.2 q.1 (v (i + 1)))) := by
  induction e generalizing p v with
  | nil => exact ⟨fun h => absurd h (not_overflowsEarly_single p v), fun _ => rfl⟩
  | cons q e ih =>
    obtain ⟨ihNone, ihSome⟩ := ih q _ hv.tail
    rw [overflowsEarly_cons_cons]
    by_cases h0 : v 0 = 2 ^ p.1 - 1
    · exact ⟨fun _ => by rw [assignFrom, if_pos h0], fun h => absurd (.inl h0) h⟩
    · simp only [h0, false_or, assignFrom, if_false, hv.second]
      refine ⟨fun h => by rw [ihNone h], fun h => by rw [ihSome h, List.mapIdx_cons]⟩

theorem assign_eq {e : List (Nat × Sym)} {v : Nat → Nat} (h0 : v 0 = 0) (hv : Increments e v) :
    (OverflowsEarly e v → assign e = none) ∧
    (¬ OverflowsEarly e v → assign e = some (e.mapIdx fun i q => tableEntry q.2 q.1 (v i))) := by
  cases e with
  | nil => exact ⟨fun ⟨i, hi, _⟩ => absurd hi (by simp), fun _ => rfl⟩
  | cons p e =>
    obtain ⟨hnone, hsome⟩ := assignFrom_eq p e v hv
    rw [h0] at hnone hsome
    exact ⟨fun h => by rw [assign, hnone h], fun h => by rw [assign, hsome h, List.mapIdx_cons, h0]⟩

/-- Without an early overflow every value fits its length. -/
theorem Increments.lt {e : List (Nat × Sym)} {v : Nat → Nat} (hv : Increments e v) (hs : e.Pairwise canonicalLE) (h0 : v 0 = 0)
    (hn : ¬ OverflowsEarly e v) : ∀ i (h : i < e.length), v i < 2 ^ e[i].1
  | 0, _ => by rw [h0]; exact Nat.two_pow_pos _
  | i + 1, h => by
    have hle : e[i].1 ≤ e[i + 1].1 := List.pairwise_iff_getElem.mp (sorted_lens hs) i (i + 1) _ h (Nat.lt_succ_self i)
    rw [hv i h, ← Nat.shiftLeft_eq]
    exact next_val_lt hle (hv.lt hs h0 hn i _) fun hi => hn ⟨i, h, hi⟩

/-- Settles O33: `Assign` runs through the values v i, and the increment of an all-ones value is where it fails. -/
theorem assignIncrementsAndExtends : Obligations.AssignIncrementsAndExtends := by
  intro e v hs hl h0 hv
  obtain ⟨hnone, hsome⟩ := assign_eq h0 hv
  refine ⟨fun hne => ?_, hnone⟩
  have hn : ¬ OverflowsEarly e v := fun ⟨i, hi, h⟩ => hne i hi h
  refine ⟨_, hsome hn, List.length_mapIdx, fun i hi hi' => ?_⟩
  have hlen : e[i].1 ≤ Config.maxLen := hl _ (List.getElem_mem hi)
  rw [List.getElem_mapIdx]
  exact ⟨rfl, tableEntry_len _ _ hlen, tableEntry_val _ hlen (Increments.lt hv hs h0 hn i hi)⟩

/-- Settles O34: the codes are intervals one behind the other. -/
theorem assignedCodesArePrefixFree : Obligations.AssignedCodesArePrefixFree := by
  intro e t hs hl h
  obtain ⟨-, hval, -, hfree⟩ := assign_table hs hl h
  obtain ⟨-, -, hchain, -⟩ := assign_spec (sorted_lens hs) hl h
  refine ⟨hval, hfree, (starts_of_chain hchain).imp fun {a b} hab => ?_, fun i hi hlen => ?_⟩
  · have := width_pos a.code.len.toNat
    exact show a.start < b.start by omega
  · have hnext := List.isChain_iff_getElem.mp hchain i hi
    rw [CodeEntry.start, CodeEntry.start, ← hlen, ← Nat.succ_mul] at hnext
    exact Nat.eq_of_mul_eq_mul_right (width_pos _) hnext

/-! ### ExtractMin -/

/-- FIFO names a node whose sequence number is least (R158). -/
theorem fifo_spec {q : List QNode} (hq : q ≠ []) : ∃ h : fifo q < q.length, ∀ y ∈ q, q[fifo q].seq ≤ y.seq := by
  obtain ⟨x, hx, hmin⟩ := q.toFinset.exists_min_image QNode.seq ((List.toFinset_nonempty_iff q).mpr hq)
  have h : fifo q < q.length := List.findIdx_lt_length_of_exists ⟨x, List.mem_toFinset.mp hx, by
    simpa using fun y hy => hmin y (List.mem_toFinset.mpr hy)⟩
  have hleast := List.findIdx_getElem (w := h)
  simp only [List.all_eq_true, decide_eq_true_eq] at hleast
  exact ⟨h, hleast⟩

/-- Settles O30: the node is one of the least, under FIFO the one `fifo` names. -/
theorem extractMinTakesALeastNode : Obligations.ExtractMinTakesALeastNode := by
  intro tb q hq
  rcases extractMin_spec tb q with ⟨rfl, -⟩ | ⟨x, hx, hleast, hget⟩
  · exact absurd rfl hq
  obtain ⟨hmem, hprio⟩ := leastNodes_mem.mp hleast
  refine ⟨x, q.erase x, hx, hmem, rfl, hprio, ?_⟩
  rintro rfl y hy hyx
  obtain ⟨hlt, hseq⟩ := fifo_spec (List.ne_nil_of_mem hleast)
  rw [Nat.mod_eq_of_lt hlt, List.getElem?_eq_getElem hlt, Option.some_inj] at hget
  rw [← hget]
  exact hseq y (leastNodes_mem.mpr ⟨hy, fun z hz => hyx.le.trans (hprio z hz)⟩)

/-! ### Tables of one and of two symbols -/

/-- A tree with one leaf is that leaf. -/
theorem eq_leaf_of_leaves {root : BTree} {y : Sym} (h : (leaves root).Perm [y]) : root = .leaf y := by
  cases root with
  | leaf x => rw [leaves_leaf, List.singleton_perm_singleton] at h; rw [h]
  | node l r =>
    have hlen := h.length_eq
    have hl := List.length_pos_iff.mpr (leaves_ne_nil l)
    have hr := List.length_pos_iff.mpr (leaves_ne_nil r)
    simp only [leaves_node, List.length_append, List.length_singleton] at hlen
    omega

/-- A tree with two leaves has them right below its root. -/
theorem leafDepths_of_two_leaves {root : BTree} {y z : Sym} (h : (leaves root).Perm [y, z]) :
    (leafDepths 0 root).Perm [(1, y), (1, z)] := by
  have hlen := h.length_eq
  cases root with
  | leaf x => simp [leaves_leaf] at hlen
  | node l r =>
    have hl := List.length_pos_iff.mpr (leaves_ne_nil l)
    have hr := List.length_pos_iff.mpr (leaves_ne_nil r)
    simp only [leaves_node, List.length_append, List.length_cons, List.length_nil] at hlen
    obtain ⟨a, ha⟩ := List.length_eq_one_iff.mp (show (leaves l).length = 1 by omega)
    obtain ⟨b, hb⟩ := List.length_eq_one_iff.mp (show (leaves r).length = 1 by omega)
    rw [leaves_node, ha, hb] at h
    rw [eq_leaf_of_leaves (.of_eq ha), eq_leaf_of_leaves (.of_eq hb)]
    exact h.map fun y => (1, y)

/-- The numbers of the present symbols, each once. -/
theorem presentSymbols_perm {f : Vector Count Config.nsym} {l : List Nat} (hn : l.Nodup)
    (hl : ∀ y, y ∈ l ↔ ∃ h : y < Config.nsym, f[y] ≠ 0) :
    ((presentSymbols f).map Prod.fst).Perm (l.map (BitVec.ofNat Config.symW)) := by
  have hval : ∀ y ∈ l, (BitVec.ofNat Config.symW y).toNat = y := fun y hy =>
    Nat.mod_eq_of_lt (lt_of_lt_of_le ((hl y).mp hy).1 (by decide))
  have hnd : (l.map (BitVec.ofNat Config.symW)).Nodup := List.Nodup.map_on
    (fun a ha b hb hab => by rw [← hval a ha, ← hval b hb, hab]) hn
  refine (List.perm_ext_iff_of_nodup (presentSymbols_nodup f) hnd).mpr fun y => ?_
  have hmem : y ∈ (presentSymbols f).map Prod.fst ↔ y.toNat ∈ l := by
    rw [hl, ← mem_presentSymbols, List.mem_map]; simp
  rw [hmem, List.mem_map]
  constructor
  · intro hy; exact ⟨y.toNat, hy, by simp⟩
  · rintro ⟨a, ha, rfl⟩; rwa [hval a ha]

/-- BUILD's table is what `Assign` makes of the depths in a tree of the present symbols (R154). -/
theorem buildTable_of_perm (tb : TieBreak) {f : Vector Count Config.nsym} {l : List Nat} (hn : l.Nodup) (h0 : l ≠ [])
    (hl : ∀ y, y ∈ l ↔ ∃ h : y < Config.nsym, f[y] ≠ 0) :
    ∃ root t, buildTable tb f = .ok t ∧ (leaves root).Perm (l.map (BitVec.ofNat Config.symW)) ∧
      assign (canonicalSort (leafDepths 0 root)) = some t := by
  have hp := presentSymbols_perm hn hl
  rcases buildTable_cases tb f with ⟨hnil, -⟩ | ⟨root, t, ht, hroot, -, hassign⟩
  · rw [hnil] at hp
    exact absurd (List.map_eq_nil_iff.mp hp.symm.eq_nil) h0
  · exact ⟨root, t, ht, hroot.trans hp, hassign⟩

/-- Settles O29: the tree of one symbol is a leaf, that of two has depth 1. -/
theorem buildOfOneOrTwoSymbols : Obligations.BuildOfOneOrTwoSymbols := by
  intro tb f
  constructor
  · intro y hy hne hzero
    obtain ⟨root, t, ht, hroot, hassign⟩ := buildTable_of_perm tb (f := f) (l := [y]) (List.nodup_singleton y) (by simp) fun x => by
      rw [List.mem_singleton]
      exact ⟨by rintro rfl; exact ⟨hy, hne⟩, fun ⟨hx, h⟩ => by_contra fun hxy => h (hzero x hx hxy)⟩
    rw [eq_leaf_of_leaves hroot] at hassign
    rw [ht, ← Option.some_inj.mp hassign]
    rfl
  · intro y z hy hz hyz hny hnz hzero
    obtain ⟨root, t, ht, hroot, hassign⟩ := buildTable_of_perm tb (f := f) (l := [y, z]) (by simp [hyz.ne]) (by simp) fun x => by
      simp only [List.mem_cons, List.not_mem_nil, or_false]
      refine ⟨by rintro (rfl | rfl) <;> exact ⟨‹_›, ‹_›⟩, fun ⟨hx, h⟩ => by_contra fun hxy => ?_⟩
      obtain ⟨hxy, hxz⟩ := not_or.mp hxy
      exact h (hzero x hx hxy hxz)
    have hval : ∀ n < 259, (BitVec.ofNat 9 n).toNat = n := fun n h => Nat.mod_eq_of_lt (by omega)
    have hsorted : [(1, BitVec.ofNat 9 y), (1, BitVec.ofNat 9 z)].Pairwise canonicalLE :=
      List.pairwise_pair.mpr (.inr ⟨rfl, by rw [hval y hy, hval z hz]; exact hyz.le⟩)
    rw [canonicalSort_eq_of_perm (leafDepths_of_two_leaves hroot), canonicalSort_of_sorted hsorted] at hassign
    rw [ht, ← Option.some_inj.mp hassign]
    rfl

/-! ### BUILD -/

/-- BUILD raises nothing but DegenerateError (R161, R163, R164 f). -/
theorem buildTable_error {tb : TieBreak} {f : Vector Count Config.nsym} {k : ErrKind} (h : buildTable tb f = .error k) :
    k = .degenerate := by
  rcases buildTable_cases tb f with ⟨-, h'⟩ | ⟨root, t, h', -⟩ <;> cases h'.symm.trans h
  rfl

/-- Settles O31: a leaf has at least as many leaves beside it as it is deep. -/
theorem buildDepthIsBounded : Obligations.BuildDepthIsBounded := fun _ _ =>
  ⟨fun h => absurd (buildTable_error h) (by decide), fun _ h e he => Nat.le_sub_one_of_lt (buildTable_depth h e he)⟩

/-- Where intervals follow one another, the last ends a sum of widths behind the start of the first. -/
theorem last_end_of_chain {a : CodeEntry} {t : List CodeEntry}
    (h : List.IsChain (fun a b : CodeEntry => b.start = a.start + width a.code.len.toNat) (a :: t)) {e : CodeEntry}
    (he : (a :: t).getLast? = some e) :
    e.start + width e.code.len.toNat = a.start + ((a :: t).map fun c => width c.code.len.toNat).sum := by
  induction t generalizing a with
  | nil =>
    obtain rfl : a = e := by simpa using he
    simp
  | cons b t ih =>
    obtain ⟨hab, hchain⟩ := List.isChain_cons_cons.mp h
    rw [ih hchain (by simpa using he), hab]
    simp only [List.map_cons, List.sum_cons, Nat.add_assoc]

/-- The intervals of a table BUILD made fill all the space (R164 f). -/
theorem buildTable_widths {tb : TieBreak} {f : Vector Count Config.nsym} {t : List CodeEntry} (h : buildTable tb f = .ok t) :
    (t.map fun e => width e.code.len.toNat).sum = 2 ^ Config.maxLen := by
  obtain ⟨root, -, hdepth, -, hpairs⟩ := buildTable_ok h
  calc (t.map fun e => width e.code.len.toNat).sum = ((t.map CodeEntry.pair).map fun p => width p.1).sum := by
        simp [CodeEntry.pair, Function.comp_def]
    _ = ((leafDepths 0 root).map fun p => width p.1).sum := by rw [hpairs, ((canonicalSort_perm _).map _).sum_eq]
    _ = 2 ^ Config.maxLen := by rw [widths_sum root 0 hdepth, width, Nat.sub_zero]

/-- The last code of a table BUILD made is all ones: its interval ends where the space does (R164 f). -/
theorem buildTable_last {tb : TieBreak} {f : Vector Count Config.nsym} {t : List CodeEntry} (h : buildTable tb f = .ok t)
    {e : CodeEntry} (he : t.getLast? = some e) : e.code.val.toNat = 2 ^ e.code.len.toNat - 1 := by
  obtain ⟨root, -, hdepth, hassign, hpairs⟩ := buildTable_ok h
  have hmax : ∀ p ∈ canonicalSort (leafDepths 0 root), p.1 ≤ Config.maxLen := fun p hp =>
    hdepth p ((canonicalSort_perm _).mem_iff.mp hp)
  obtain ⟨-, -, hchain, hfirst⟩ := assign_spec (sorted_lens (canonicalSort_sorted _)) hmax hassign
  have hlen : e.code.len.toNat ≤ Config.maxLen :=
    hmax e.pair (hpairs ▸ List.mem_map.mpr ⟨e, List.mem_of_getLast? he, rfl⟩)
  cases t with
  | nil => simp at he
  | cons a t =>
    have hend := last_end_of_chain hchain he
    rw [hfirst a rfl, buildTable_widths h, Nat.zero_add, CodeEntry.start, ← width_mul hlen, ← Nat.succ_mul] at hend
    exact Nat.eq_sub_of_add_eq (Nat.eq_of_mul_eq_mul_right (width_pos _) hend)

/-- Settles O32, from the intervals of the table; it needs no two entries. -/
theorem buildMakesAFullCode : Obligations.BuildMakesAFullCode := by
  intro tb f
  refine ⟨fun h => absurd (buildTable_error h) (by decide), fun t h _ => ⟨?_, fun e he => buildTable_last h he⟩⟩
  have hwidths := buildTable_widths h
  unfold width Config.maxLen at hwidths
  exact hwidths

/-- The entries of a table BUILD made are in strict canonical order, for no symbol has two (R160). -/
theorem buildTable_before {tb : TieBreak} {f : Vector Count Config.nsym} {t : List CodeEntry} (h : buildTable tb f = .ok t) :
    t.Pairwise CodeEntry.before := by
  have hsorted := buildTable_sorted h
  rw [lenPairs_lenEntries, List.pairwise_map] at hsorted
  refine hsorted.imp₂ (fun a b hle hne => ?_) (List.pairwise_map.mp (buildTable_nodup h))
  rcases hle with hlt | ⟨heq, hle⟩
  · exact .inl hlt
  · exact .inr ⟨BitVec.eq_of_toNat_eq heq, lt_of_le_of_ne hle fun hs => hne (BitVec.eq_of_toNat_eq hs)⟩

theorem execBuild_of_buildTable {s : State} {t : List CodeEntry} (hf : s.fault = false) (h : buildTable tieBreak s.freq = .ok t) :
    exec .build s = .next { s with ct := t } :=
  command_ok (p := build tieBreak) hf rfl (by simp only [build, h])

/-- Settles O27: BUILD's table is that of `buildTable`, whose depths, order and cost `Laws/Build.lean` and `Laws/Optimal.lean` give. -/
theorem buildMakesTheCanonicalTable : Obligations.BuildMakesTheCanonicalTable := by
  refine ⟨fun s hf hpresent => ?_, fun tb f t h => ⟨?_, buildTable_optimal h⟩, fun f k x => makeLeaves_getElem?,
    fun tb k seq => ⟨merge_one tb k seq, fun q hq => merge_two tb k seq q hq⟩⟩
  · obtain ⟨t, ht⟩ := buildTable_isOk (tb := tieBreak) (presentSymbols_ne_nil.mpr hpresent)
    exact ⟨t, execBuild_of_buildTable hf ht, ht, buildTable_before ht, buildTable_assign ht, buildTable_mem ht⟩
  · obtain ⟨root, hmerge, hpairs⟩ := buildTable_merge h
    refine ⟨root, hmerge, ?_⟩
    rw [lenPairs_lenEntries, hpairs]
    exact canonicalSort_perm _

/-! ### REBUILD -/

theorem execRebuild_of_assign {s : State} {t : List CodeEntry} (hf : s.fault = false)
    (h : assign (canonicalSort (lenPairs s.ll)) = some t) :
    exec .rebuild s = .next { s with ct := t, dt := treeOf t, cur := [] } :=
  command_ok (p := rebuild) hf rfl (by simp only [rebuild, h])

/-- Settles O37: the tree is the one `TreeHolds` describes. -/
theorem rebuildMakesTheDecodeTree : Obligations.RebuildMakesTheDecodeTree := by
  intro s hf hl
  refine ⟨fun t ht => ⟨treeOf t, execRebuild_of_assign hf ht, treeHolds_of_assign hl ht⟩, fun hnone => ?_⟩
  exact command_error (p := rebuild) hf rfl (by simp only [rebuild, hnone])

/-- The code table depends on the pairs of a length list alone: those of a table BUILD made, in any order, give that table (R173). -/
theorem assign_of_perm_buildTable {tb : Config.TieBreak} {f : Vector Count Config.nsym} {t : List CodeEntry} {l : List LenEntry}
    (h : buildTable tb f = .ok t) (hl : l.Perm (lenEntries t)) : assign (canonicalSort (lenPairs l)) = some t := by
  have hpairs : (lenPairs l).Perm (lenPairs (lenEntries t)) := hl.map _
  rw [canonicalSort_eq_of_perm hpairs, canonicalSort_of_sorted (buildTable_sorted h), buildTable_assign h]

/-- Settles O39: the list determines the table, and the table's tree has every code as a leaf. -/
theorem headerReconstruction : Obligations.HeaderReconstruction := by
  intro tb f t s hf ht hpos hll
  have hassign := assign_of_perm_buildTable ht hll
  have hlens : ∀ e ∈ s.ll, 1 ≤ e.len.toNat ∧ e.len.toNat ≤ Config.maxLen := fun x hx => by
    obtain ⟨e, he, rfl⟩ := List.mem_map.mp (hll.mem_iff.mp hx)
    have hdepth := buildTable_depth ht e he
    have hlength := buildTable_length ht
    exact ⟨hpos e he, Nat.le_of_succ_le_succ (hdepth.trans hlength)⟩
  obtain ⟨hleaf, -⟩ := treeHolds_of_assign hlens hassign
  exact ⟨treeOf t, execRebuild_of_assign hf hassign, fun e he => (hleaf _ _).mpr ⟨e, he, rfl, rfl⟩⟩

/-! ### FCLR, CTRD and WALK -/

/-- Settles O24. -/
theorem fclrClearsEveryCounter : Obligations.FclrClearsEveryCounter := fun s hf =>
  ⟨Vector.replicate Config.nsym 0, command_ok (p := freqClear) hf rfl (proc_modify _ s), fun _ h => Vector.getElem_replicate h⟩

/-- Settles O35: the index is in the table or beyond it. -/
theorem ctrdReadsAnEntry : Obligations.CtrdReadsAnEntry := by
  intro i s hf
  constructor
  · intro h
    exact command_ok (p := ctrdProc i) hf rfl (by simp only [ctrdProc, List.getElem?_eq_getElem h])
  · intro h
    exact command_error (p := ctrdProc i) hf rfl (by simp only [ctrdProc, List.getElem?_eq_none h])

/-- The legal directions (30_encoding.md R94) are the bits 0 and 1. -/
theorem direction_eq {b : BitVec 9} (h : b.toNat ≤ 1) : direction b = (b == 1) := by
  rcases Nat.le_one_iff_eq_zero_or_eq_one.mp h with h | h
  · obtain rfl : b = 0 := BitVec.eq_of_toNat_eq h
    rfl
  · obtain rfl : b = 1 := BitVec.eq_of_toNat_eq h
    rfl

theorem walkStart_eq {s : State} {start : List Bool} (hleaf : (∃ y, s.dt.sub s.cur = .leaf y) → start = [])
    (hother : (¬ ∃ y, s.dt.sub s.cur = .leaf y) → start = s.cur) : walkStart s = start := by
  unfold walkStart
  cases h : s.dt.sub s.cur with
  | leaf y => exact (hleaf ⟨y, h⟩).symm
  | absent => exact (hother (by simp [h])).symm
  | inner l r => exact (hother (by simp [h])).symm

section
variable {b : BitVec 9} {s : State}

theorem walkProc_absent (h : s.dt.sub (walkStart s ++ [direction b]) = .absent) : walkProc b s = .error .corruptTree s := by
  simp only [walkProc, proc_bind, htWalk, h]

theorem walkProc_leaf {y : Sym} (h : s.dt.sub (walkStart s ++ [direction b]) = .leaf y) :
    walkProc b s = .ok () { s with cur := walkStart s ++ [direction b], hit := true, rsym := y } := by
  simp only [walkProc, proc_bind, htWalk, h, setWalkResult, setHit_apply]

theorem walkProc_inner {l r : DTree} (h : s.dt.sub (walkStart s ++ [direction b]) = .inner l r) :
    walkProc b s = .ok () { s with cur := walkStart s ++ [direction b], hit := false } := by
  simp only [walkProc, proc_bind, htWalk, h, setWalkResult, proc_modify]

end

/-- Settles O38, by the node the step leads to. -/
theorem walkMovesTheCursor : Obligations.WalkMovesTheCursor := by
  intro b s start hf hleaf hother
  obtain rfl := walkStart_eq hleaf hother
  refine ⟨fun y hb h => ?_, fun l r hb h => ?_, fun hb h => ?_, fun hb => ?_⟩
  · rw [← direction_eq hb] at h ⊢
    exact command_ok (p := walkProc b) hf (decide_eq_true hb) (walkProc_leaf h)
  · rw [← direction_eq hb] at h ⊢
    exact command_ok (p := walkProc b) hf (decide_eq_true hb) (walkProc_inner h)
  · rw [← direction_eq hb] at h
    exact command_error (p := walkProc b) hf (decide_eq_true hb) (walkProc_absent h)
  · exact command_illegal (p := walkProc b) hf (decide_eq_false (Nat.not_le.mpr hb))

end Sys2Proof.Machine
end

section
/-! PROOFS. The serializer (spec 42_serializer.md): headers written and read (R190, R192, R193), codes emitted (R197) and symbols
decoded (R198, R199). What a procedure does on a bit stream is `Laws/Serializer.lean`'s; here each command runs its procedure. -/

namespace Sys2Proof.Machine

/-! ### HDRWR and ENCSYM -/

/-- Bits appended to an open writer: its flat stream grows by them, and it stays open (40_bitstream.md R132, R133). -/
theorem appendBits_open {w : Bsw} (bs : List Bool) (h : w.wclosed = false) :
    (appendBits bs w).bits = w.bits ++ bs ∧ (appendBits bs w).wclosed = false ∧ w.sink <+: (appendBits bs w).sink ∧
      (w.clean → (appendBits bs w).clean) :=
  ⟨appendBits_bits bs w, (appendBits_wclosed bs w).trans h, appendBits_sink bs w, appendBits_clean bs w⟩

/-- A write command on an open writer goes on with its procedure. -/
theorem checkOpen_bind_open {α : Type} {s : State} (p : Proc α) (h : s.bsw.wclosed = false) : (do checkOpen; p) s = p s := by
  rw [proc_bind, checkOpen_open h]

theorem writeHeader_zero {s : State} (h : ∃ e ∈ s.ct, e.code.len = 0) : writeHeader s = .error .illegalCommand s := by
  have hany : (s.ct.any fun e => e.code.len == 0) = true := by simpa using h
  rw [writeHeader, if_pos hany]

/-- Settles O40: the header's bits are appended. -/
theorem hdrwrWritesTheHeader : Obligations.HdrwrWritesTheHeader := by
  intro s hf
  refine ⟨fun ho hpos => ?_, fun ho hzero => ?_, fun hc => command_error hf rfl (checkOpen_bind_closed _ hc)⟩
  · exact ⟨_, command_ok hf rfl ((checkOpen_bind_open _ ho).trans (writeHeader_ok hpos)), appendBits_open _ ho⟩
  · exact command_error hf rfl ((checkOpen_bind_open _ ho).trans (writeHeader_zero hzero))

/-- The entry that stands first among those with the symbol gives the code (10_state.md R37). -/
theorem codeOf_first {a b : List CodeEntry} {e : CodeEntry} {y : Sym} (ha : ∀ x ∈ a, x.sym ≠ y) (he : e.sym = y) :
    codeOf (a ++ e :: b) y = some e.code := by
  have hnone : (a.find? fun x => x.sym == y) = none := by simpa using ha
  rw [codeOf, List.find?_append, hnone, Option.none_or, List.find?_cons, beq_iff_eq.mpr he, Option.map_some]

theorem codeOf_none {t : List CodeEntry} {y : Sym} (h : ∀ x ∈ t, x.sym ≠ y) : codeOf t y = none := by
  simpa [codeOf] using h

theorem encSym_none {s : State} {y : Sym} (h : codeOf s.ct y = none) : encSym y s = .error .illegalCommand s := by
  simp only [encSym, h]

/-- Settles O43: the code's bits are appended. -/
theorem encsymEmitsTheCode : Obligations.EncsymEmitsTheCode := by
  intro y s hf
  refine ⟨fun a e b ho hct ha he => ?_, fun h => ?_⟩
  · have hcode : codeOf s.ct y = some e.code := hct ▸ codeOf_first ha he
    exact ⟨_, command_ok hf rfl ((checkOpen_bind_open _ ho).trans (encSym_ok hcode)), appendBits_open _ ho⟩
  · cases ho : s.bsw.wclosed with
    | true => exact command_error hf rfl (checkOpen_bind_closed _ ho)
    | false =>
      have hnone := codeOf_none (h.resolve_left (by simp [ho]))
      exact command_error hf rfl ((checkOpen_bind_open _ ho).trans (encSym_none hnone))

/-! ### HDRRD -/

/-- The command traps with kind k, the unread bits are then rest, and the decoder's and the encoder's outputs are as before. -/
def TrapsLeaving (i : Instr) (s : State) (k : ErrKind) (rest : List Bool) : Prop :=
  ∃ t, exec i s = .next (trapEntry k t) ∧ t.bsr.unread = rest ∧ t.out = s.out ∧ t.bsw = s.bsw

theorem bsrRead_eos {r : Bsr} (n : Nat) (h : r.eos = true) : bsrRead n r = .error .endOfStream r := by
  rw [bsrRead_eq, if_pos h]

section
variable {s : State}

theorem execHdrrd_ok {l : List LenEntry} {r : Bsr} (hf : s.fault = false) (h : readHeaderList s.bsr = .ok l r) :
    exec .hdrrd s = .next { s with ll := l, bsr := r } :=
  command_ok (p := readHeader) hf rfl (by simp only [readHeader, proc_bind, liftBsr_ok h, proc_modify])

theorem execHdrrd_error {k : ErrKind} {r : Bsr} (hf : s.fault = false) (h : readHeaderList s.bsr = .error k r) :
    exec .hdrrd s = .next (trapEntry k { s with bsr := r }) :=
  command_error (p := readHeader) hf rfl (by simp only [readHeader, proc_bind, liftBsr_error h])

theorem hdrrd_trapsLeaving {k : ErrKind} {rest : List Bool} (hf : s.fault = false)
    (h : ∃ r, readHeaderList s.bsr = .error k r ∧ r.unread = rest) : TrapsLeaving .hdrrd s k rest := by
  obtain ⟨r, hread, hu⟩ := h
  exact ⟨_, execHdrrd_error hf hread, hu, rfl, rfl⟩

end

/-- Settles O41, by `readHeaderList_ok`. -/
theorem hdrrdReadsTheHeader : Obligations.HdrrdReadsTheHeader := by
  intro s l rest hf he h8 hl hu
  obtain ⟨r, hread, hrest, ⟨heos, hrcnt⟩, -⟩ := readHeaderList_ok hl ⟨he, h8⟩ hu
  exact ⟨r, execHdrrd_ok hf hread, hrest, heos, hrcnt⟩

/-- Where bits past the end are offered, no real bit follows them. -/
theorem Bsr.offers.rest_eq_nil {r : Bsr} {vs : List (BitVec 9)} {rest : List Bool} {m : Nat} (h : r.offers vs rest m) (hm : 0 < m) :
    rest = [] := by
  rcases h.2 with rfl | ⟨-, hrest, -⟩
  · exact absurd hm (Nat.lt_irrefl 0)
  · exact hrest

/-- Settles O42, by what `readHeaderList` meets: a bad count, the end of the stream, or a header that the zeros complete. -/
theorem hdrrdRefusesAnOvershoot : Obligations.HdrrdRefusesAnOvershoot := by
  intro s hf h8
  refine ⟨fun he => execHdrrd_error hf (by rw [readHeaderList, proc_bind, bsrRead_eos 9 he]), fun he n ys cs rest m => ?_⟩
  have hlive : s.bsr.live := ⟨he, h8⟩
  refine ⟨?_, ?_, ?_, ?_⟩
  · intro c hn hk hs hover ho
    exact hdrrd_trapsLeaving hf ((readHeaderList_counts hn hs hk.le (hlive.before ho)).1 c rfl hk hover)
  · intro hn hk hs ho
    have hb : s.bsr.before (n :: (ys ++ cs ++ [])) rest m := hlive.before (by rwa [List.append_nil])
    exact hdrrd_trapsLeaving hf ((readHeaderList_counts hn hs hk.le hb).2.1 rfl hk)
  · intro hm ho hshort
    obtain rfl := ho.rest_eq_nil hm
    have hb := hlive.before ho
    rcases hshort with ⟨hn, rfl⟩ | ⟨hn, hk, hs⟩
    · rw [List.append_nil] at hb
      exact hdrrd_trapsLeaving hf (readHeaderList_short hm hn hb)
    · rw [← List.append_nil (ys ++ cs)] at hb
      exact hdrrd_trapsLeaving hf ((readHeaderList_counts hn hs hk.le hb).2.2 rfl hk hm)
  · intro l hm hl ho
    obtain rfl := ho.rest_eq_nil hm
    obtain ⟨r, hread, ⟨hrcnt, hlast, -⟩, -⟩ := readHeaderList_before hl (hlive.before ho)
    obtain ⟨hu, heos⟩ := hlast rfl
    exact ⟨r, execHdrrd_ok hf hread, hu, heos.trans (decide_eq_true hm), hrcnt⟩

/-! ### DECSYM -/

section
variable {s : State}

theorem execDecsym_ok {y : Sym} {t : State} (hf : s.fault = false) (h : decSym s = .ok y t) :
    exec .decsym s = .next { t with hit := true, rsym := y } :=
  command_ok (p := decsymProc) hf rfl (by simp only [decsymProc, proc_bind, h, setHit_apply])

theorem execDecsym_error {k : ErrKind} {t : State} (hf : s.fault = false) (h : decSym s = .error k t) :
    exec .decsym s = .next (trapEntry k t) :=
  command_error (p := decsymProc) hf rfl (by simp only [decsymProc, proc_bind, h])

theorem decsym_trapsLeaving {k : ErrKind} {c : List Bool} {r : Bsr} {rest : List Bool} (hf : s.fault = false)
    (h : decSym s = .error k { s with cur := c, bsr := r }) (hu : r.unread = rest) : TrapsLeaving .decsym s k rest :=
  ⟨_, execDecsym_error hf h, hu, rfl, rfl⟩

end

/-- Settles O44, by `decSym_path`. -/
theorem decsymDecodesOneSymbol : Obligations.DecsymDecodesOneSymbol := by
  intro s start p rest y hf he h8 hleaf hother hp hsub hu
  obtain rfl := walkStart_eq hleaf hother
  obtain ⟨r, hdec, hrest, heos, hrcnt⟩ := decSym_path hp ⟨he, h8⟩ hsub hu
  exact ⟨r, execDecsym_ok hf hdec, hrest, heos, hrcnt⟩

/-- Settles O45, by the bit that follows the path: a real one in the first clause, the silent 0 past the end in the others. -/
theorem decsymRaisesOnBadStreams : Obligations.DecsymRaisesOnBadStreams := by
  intro s start p hf h8 hleaf hother
  obtain rfl := walkStart_eq hleaf hother
  refine ⟨fun he => execDecsym_error hf (decSymLoop_eos _ he), fun he hin => ⟨fun b rest habsent hu => ?_, fun hu => ?_⟩⟩
  · obtain ⟨c, r, hrest, -, -, -, hraise, -⟩ := decSym_bit ⟨he, h8⟩ hin hu
    exact decsym_trapsLeaving hf (hraise habsent) hrest
  · obtain ⟨c, r, hrest, heos, hrcnt, hret, hraise, hend⟩ := decSym_bit (rest := []) ⟨he, h8⟩ hin (by rw [hu, List.append_nil])
    exact ⟨fun y hy => ⟨r, execDecsym_ok hf (hret y hy), hrest, heos, hrcnt⟩,
      fun hinner => decsym_trapsLeaving hf (hend rfl hinner) hrest,
      fun habsent => decsym_trapsLeaving hf (hraise habsent) hrest⟩

/-! ### Decoding a list of symbols -/

/-- Decoding the codes of a list of symbols, one after the other (R199). -/
theorem decSyms_codes {t : List CodeEntry} {ys : List Sym} {s : State} {bs rest : List Bool} (h : AtCode t s)
    (hbs : codeBits t ys = some bs) (hu : s.bsr.unread = bs ++ rest) :
    ∃ u, decSyms ys.length s = .ok ys u ∧ u.bsr.unread = rest ∧ AtCode t u := by
  induction ys generalizing s bs with
  | nil =>
    cases hbs
    exact ⟨s, rfl, hu, h⟩
  | cons y ys ih =>
    obtain ⟨c, x, hc, hx, rfl⟩ := codeBits_cons.mp hbs
    rw [List.append_assoc] at hu
    obtain ⟨r, hdec, hr, hat⟩ := decSym_code h hc hu
    obtain ⟨u, hdecs, hrest, hu'⟩ := ih (hat s.out) hx hr
    exact ⟨u, by simp only [List.length_cons, decSyms, proc_bind, hdec, hdecs, proc_pure], hrest, hu'⟩

/-- Settles O46: at the root or on a leaf the next walk starts a code. -/
theorem symbolRoundTrip : Obligations.SymbolRoundTrip := by
  intro s t ys bs rest he h8 hl ht hd hcur hbs hu
  have hstart : walkStart s = [] := walkStart_eq (fun _ => rfl) fun hno => (hcur.resolve_right hno).symm
  have hat : AtCode t s := ⟨hd ▸ treeHolds_of_assign hl ht, hstart, he, h8⟩
  obtain ⟨u, hdec, hrest, -, -, heos, -⟩ := decSyms_codes hat hbs hu
  exact ⟨u, hdec, hrest, heos⟩

end Sys2Proof.Machine
end

section
/-! PROOFS. The block sequencer (spec 43_sequencer.md): ENCFILE and ENCCLOSE write a chain of blocks (R210, R212, R213), DECBLOCK and
DECALL read it back (R214, R215) or refuse it (R216), and the round trip (R217). What the procedures do on a bit stream is
`Laws/Sequencer.lean`'s; here each command runs its procedure, and blocks are chained. -/

namespace Sys2Proof.Machine

/-! ### ENCFILE and ENCCLOSE -/

/-- ENCFILE runs `encodeFile` on an open writer, for every tie-break (R210). -/
theorem encfile_next {tb : Config.TieBreak} {s t : State} (hf : s.fault = false) (ho : s.bsw.wclosed = false)
    (h : encodeFile tb s = .ok () t) : command .encfile (encfileProc tb) s = .next t :=
  command_ok hf rfl ((checkOpen_bind_open _ ho).trans h)

/-- Settles O47, by `encodeFile_ok`. -/
theorem encfileWritesTheBlock : Obligations.EncfileWritesTheBlock := by
  intro s hf ho hn
  obtain ⟨f, t, m, e, bs, hcount, ht, -, hm, he, hbs, henc⟩ := encodeFile_ok tieBreak s hn
  obtain ⟨hbits, hopen, hsink, hclean⟩ := appendBits_open _ ho
  refine ⟨f, t, _, m, e, bs, encfile_next hf ho henc, hcount, ht, hm, he, hbs, ?_, hopen, hsink, hclean⟩
  rw [hbits, ← List.append_assoc, ← List.append_assoc]

/-- The writer as ENCCLOSE leaves it: the last block's ARCHIVE_END code is out when there is a block (R213). -/
def State.closedBsw (s : State) : Bsw := bswDispose (appendBits (if s.written then s.paend.bits else []) s.bsw)

theorem encclose_next {s : State} (hf : s.fault = false) (ho : s.bsw.wclosed = false) :
    exec .encclose s = .next { s with bsw := s.closedBsw } := by
  refine command_ok (p := enccloseProc) hf rfl ((checkOpen_bind_open _ ho).trans ?_)
  rw [proc_bind, emitTerminator_apply]
  rfl

/-- A disposal fills the last byte with fewer than 8 zeros (R134). -/
theorem bswDispose_streamBits {w : Bsw} (h : w.clean) :
    ∃ k, k < 8 ∧ streamBits (bswDispose w).sink = w.bits ++ List.replicate k false := by
  obtain ⟨-, -, -, hstream⟩ := bswDispose_spec w h
  exact ⟨_, Nat.mod_lt _ (by decide), hstream⟩

theorem closedBsw_streamBits {s : State} (h : s.bsw.clean) :
    ∃ k, k < 8 ∧ streamBits s.closedBsw.sink =
      s.bsw.bits ++ (if s.written then s.paend.bits else []) ++ List.replicate k false := by
  rw [← appendBits_bits]
  exact bswDispose_streamBits (appendBits_clean _ _ h)

/-- Settles O48: the code is appended, then the writer is disposed of. -/
theorem enccloseEndsTheArchive : Obligations.EnccloseEndsTheArchive := by
  intro s hf
  refine ⟨fun ho hclean => ?_, fun hc => command_error hf rfl (checkOpen_bind_closed _ hc)⟩
  exact ⟨s.closedBsw.sink, encclose_next hf ho, (appendBits_sink _ _).trans (bswDispose_sink _), closedBsw_streamBits hclean⟩

/-! ### DECBLOCK -/

theorem execDecblock_ok {s t : State} {y : Sym} (hf : s.fault = false) (h : decodeBlock s = .ok y t) :
    exec .decblock s = .next { t with more := (y == Config.oneMoreFile), hit := true, rsym := y } :=
  command_ok (p := decblockProc) hf rfl (by simp only [decblockProc, proc_bind, h, setMore_apply, setHit_apply])

theorem execDecblock_error {s t : State} {k : ErrKind} (hf : s.fault = false) (h : decodeBlock s = .error k t) :
    exec .decblock s = .next (trapEntry k t) :=
  command_error (p := decblockProc) hf rfl (by simp only [decblockProc, proc_bind, h])

/-- Settles O49, by `decodeBlock_ok`. -/
theorem decblockDecodesABlock : Obligations.DecblockDecodesABlock := by
  intro s l f term bs rest hf he h8 hl hterm hb hu
  obtain ⟨t, c, r, ht, hc, hdec, hrest, heos, hrcnt⟩ := decodeBlock_ok ⟨he, h8⟩ hl hterm hb hu
  exact ⟨t, c, r, ht, hc, execDecblock_ok hf hdec, hrest, heos, hrcnt⟩

/-- Settles O50, phase by phase. -/
theorem decblockRefusesIllegalSymbols : Obligations.DecblockRefusesIllegalSymbols := by
  intro s l t name data y bs rest hf he h8 hl ht hu
  refine ⟨fun hy hb => ?_, fun hy hb => ?_⟩
  · obtain ⟨u, hdec, hout, hrest⟩ := decodeBlock_badName ⟨he, h8⟩ hl ht hy hb hu
    exact ⟨u, execDecblock_error hf hdec, hout, hrest⟩
  · obtain ⟨u, hdec, hout, hrest⟩ := decodeBlock_badData ⟨he, h8⟩ hl ht hy hb hu
    exact ⟨u, execDecblock_error hf hdec, hout, hrest⟩

/-! ### Chains of blocks -/

/-- The terminator of the block or file that the given ones follow (30_encoding.md R104). -/
def terminator {α : Type} : List α → Sym
  | [] => Config.archiveEnd
  | _ :: _ => Config.oneMoreFile

theorem terminator_cases {α : Type} (l : List α) : terminator l = Config.oneMoreFile ∨ terminator l = Config.archiveEnd := by
  cases l with
  | nil => exact .inr rfl
  | cons _ _ => exact .inl rfl

theorem terminator_map {α β : Type} (g : α → β) (l : List α) : terminator (l.map g) = terminator l := by
  cases l <;> rfl

theorem terminator_concat {α : Type} (l : List α) (a : α) : terminator (l ++ [a]) = Config.oneMoreFile := by
  cases l <;> rfl

theorem archiveBits_cons {b : Block} {blocks : List Block} {bs : List Bool} : archiveBits (b :: blocks) = some bs ↔
    ∃ x y, blockBits b.lens b.file (terminator blocks) = some x ∧ archiveBits blocks = some y ∧ bs = x ++ y := by
  cases blocks with
  | nil => simp [archiveBits, terminator, eq_comm]
  | cons b' blocks =>
    simp only [archiveBits, terminator]
    cases blockBits b.lens b.file Config.oneMoreFile <;> cases archiveBits (b' :: blocks) <;> simp [eq_comm]

theorem archiveEvents_cons (f : File) (fs : List File) :
    archiveEvents (f :: fs) = f.events (terminator fs == Config.oneMoreFile) ++ archiveEvents fs := by
  cases fs with
  | nil => exact (List.append_nil _).symm
  | cons f' fs => rfl

/-- A header has a field at least, so a block has a bit. -/
theorem blockBits_length_pos {l : List LenEntry} {f : File} {term : Sym} {bs : List Bool} (h : blockBits l f term = some bs) :
    0 < bs.length := by
  have hheader : 0 < (headerBits l).length := by
    simp only [headerBits, headerLayout, List.flatMap_cons, List.length_append, fieldBits_length]
    omega
  unfold blockBits at h
  cases ht : tableOf l with
  | none => simp [ht] at h
  | some t =>
    cases hc : codeBits t (f.symbols term) with
    | none => simp [ht, hc] at h
    | some x =>
      simp only [ht, hc, Option.some.injEq] at h
      rw [← h, List.length_append]
      omega

theorem length_le_archiveBits {blocks : List Block} {bs : List Bool} (h : archiveBits blocks = some bs) :
    blocks.length ≤ bs.length := by
  induction blocks generalizing bs with
  | nil => exact Nat.zero_le _
  | cons b blocks ih =>
    obtain ⟨x, y, hx, hy, rfl⟩ := archiveBits_cons.mp h
    have hpos := blockBits_length_pos hx
    have hle := ih hy
    rw [List.length_cons, List.length_append]
    omega

/-! ### DECALL -/

theorem srcEmpty_eq_true {r : Bsr} : srcEmpty r = true ↔ r.src = [] := List.isEmpty_iff

/-- Settles O51: the entry check sees the empty archive. -/
theorem decallOfTheEmptyArchive : Obligations.DecallOfTheEmptyArchive := by
  intro s hf hsrc hcnt
  refine command_ok (p := decallProc) hf rfl ?_
  rw [decallProc, proc_bind, proc_get]
  simp only [if_pos (And.intro (srcEmpty_eq_true.mpr hsrc) hcnt), setMore_apply]

/-- With an unread bit DECALL enters its loop (R215). -/
theorem execDecall_ok {s t : State} (hf : s.fault = false) (h8 : s.bsr.rcnt.toNat ≤ 8) (hu : 0 < s.bsr.unread.length)
    (h : blockLoop (bitBudget s.bsr + 1) s = .ok () t) : exec .decall s = .next { t with more := false } := by
  have hsome : ¬ (srcEmpty s.bsr = true ∧ s.bsr.rcnt = 0) := by
    rintro ⟨hsrc, hcnt⟩
    rw [unread_length h8, srcEmpty_eq_true.mp hsrc, hcnt] at hu
    exact absurd hu (by decide)
  refine command_ok (p := decallProc) hf rfl ?_
  rw [decallProc, proc_bind, proc_get]
  simp only [if_neg hsome, proc_bind, h, setMore_apply]

/-- DECALL's loop on a chain of blocks (R215): the tables it leaves are the last block's. -/
theorem blockLoop_ok {last : Block} {rest : List Bool} (blocks : List Block) {k : Nat} {s : State} {bs : List Bool}
    (hlive : s.bsr.live) (hl : ∀ b ∈ blocks ++ [last], usableList b.lens) (hb : archiveBits (blocks ++ [last]) = some bs)
    (hu : s.bsr.unread = bs ++ rest) (hk : blocks.length ≤ k) :
    ∃ t c r, tableOf last.lens = some t ∧ codeOf t Config.archiveEnd = some c ∧
      blockLoop (k + 1) s = .ok () { s with
        ll := last.lens, ct := t, dt := treeOf t, cur := c.bits, bsr := r
        out := s.out ++ archiveEvents ((blocks ++ [last]).map Block.file), rsym := Config.archiveEnd, hit := true } ∧
      r.unread = rest ∧ r.live := by
  induction blocks generalizing k s bs with
  | nil =>
    obtain ⟨t, c, r, ht, hc, hdec, hrest, hr⟩ := decodeBlock_ok hlive (hl last (by simp)) (.inr rfl) hb hu
    refine ⟨t, c, r, ht, hc, ?_, hrest, hr⟩
    simp only [blockLoop, proc_bind, hdec, setHit_apply]
    rfl
  | cons b blocks ih =>
    cases k with
    | zero => exact absurd hk (Nat.not_succ_le_zero _)
    | succ k =>
      rw [List.cons_append] at hb
      obtain ⟨x, y, hx, hy, rfl⟩ := archiveBits_cons.mp hb
      rw [List.append_assoc] at hu
      obtain ⟨t₁, c₁, r₁, -, -, hdec, hrest₁, hr₁⟩ := decodeBlock_ok hlive (hl b (by simp)) (terminator_cases _) hx hu
      rw [terminator_concat] at hdec
      obtain ⟨t, c, r, ht, hc, hloop, hrest, hr⟩ := ih (s := { s with
          ll := b.lens, ct := t₁, dt := treeOf t₁, cur := c₁.bits, bsr := r₁, out := s.out ++ b.file.events true,
          rsym := Config.oneMoreFile, hit := true })
        hr₁ (fun b' hb' => hl b' (List.mem_cons_of_mem _ hb')) hy hrest₁ (Nat.le_of_succ_le_succ hk)
      refine ⟨t, c, r, ht, hc, ?_, hrest, hr⟩
      rw [blockLoop]
      simp only [proc_bind, hdec, setHit_apply, beq_self_eq_true, if_true, hloop]
      rw [List.cons_append, List.map_cons, archiveEvents_cons, terminator_map, terminator_concat, beq_self_eq_true, List.append_assoc]

/-- Settles O52: the loop's bound is not used up, for every block has a bit. -/
theorem decallDecodesTheArchive : Obligations.DecallDecodesTheArchive := by
  intro s blocks last bs rest hf he h8 hl hb hu
  have hblocks := length_le_archiveBits hb
  have hbudget := path_le_budget h8 hu
  rw [List.length_append, List.length_singleton] at hblocks
  obtain ⟨t, c, r, ht, hc, hloop, hrest, heos, hrcnt⟩ :=
    blockLoop_ok blocks (k := bitBudget s.bsr) ⟨he, h8⟩ hl hb hu (by omega)
  have hpos : 0 < s.bsr.unread.length := by rw [hu, List.length_append]; omega
  exact ⟨t, c, r, ht, hc, execDecall_ok hf h8 hpos hloop, hrest, heos, hrcnt⟩

/-! ### The round trip -/

/-- The list of a table that BUILD made determines the table (R173). -/
theorem tableOf_buildTable {tb : Config.TieBreak} {f : Vector Count Config.nsym} {t : List CodeEntry}
    (h : buildTable tb f = .ok t) : tableOf (lenEntries t) = some t := assign_of_perm_buildTable h (List.Perm.refl _)

/-- A header can carry the list of a table that BUILD made, when no code is empty (R163). -/
theorem usableList_buildTable {tb : Config.TieBreak} {f : Vector Count Config.nsym} {t : List CodeEntry}
    (h : buildTable tb f = .ok t) (hpos : ∀ e ∈ t, 1 ≤ e.code.len.toNat) : usableList (lenEntries t) := by
  have hlength := buildTable_length h
  refine ⟨?_, fun x hx => ?_, ?_⟩
  · rw [lenEntries, List.length_map]
    exact hlength.trans (by decide)
  · obtain ⟨e, he, rfl⟩ := List.mem_map.mp hx
    exact ⟨hpos e he, Nat.le_of_succ_le_succ ((buildTable_depth h e he).trans hlength)⟩
  · exact (List.pairwise_map (f := fun e : LenEntry => (e.len.toNat, e.sym))).mp (sorted_lens (buildTable_sorted h))

/-- The bits ENCFILE writes for a file, with a terminator's code behind them, are a block (30_encoding.md R100). -/
theorem blockBits_of_codes {l : List LenEntry} {t : List CodeEntry} {f : File} {term : Sym} {bs : List Bool} {c : Code}
    (ht : tableOf l = some t)
    (hbs : codeBits t (f.name.map literal ++ [Config.filenameEnd] ++ f.data.map literal) = some bs) (hc : codeOf t term = some c) :
    blockBits l f term = some (headerBits l ++ (bs ++ c.bits)) := by
  have hterm : codeBits t [term] = some c.bits := codeBits_cons.mpr ⟨c, [], hc, rfl, (List.append_nil _).symm⟩
  have hsym : codeBits t (f.symbols term) = some (bs ++ c.bits) := codeBits_append.mpr ⟨bs, c.bits, hbs, hterm, rfl⟩
  simp only [blockBits, ht, hsym]

/-- The code that the last written block still lacks when the given files are yet to be encoded (R210 step 2, R213). -/
def State.pendingCode (s : State) : List File → Code
  | [] => s.paend
  | _ :: _ => s.pomf

/-- The bits of that code, none when no block was written. -/
def State.pendingBits (s : State) (fs : List File) : List Bool := if s.written then (s.pendingCode fs).bits else []

/-- An encode session goes on: nothing was raised and the writer is open. -/
structure State.Encoding (s : State) : Prop where
  fault : s.fault = false
  isOpen : s.bsw.wclosed = false
  clean : s.bsw.clean

/-- ENCFILE in a session, for every tie-break: the earlier block gets its terminator, and the file's block lacks only its own
(R210, R212). -/
theorem encfile_block (tb : Config.TieBreak) {s : State} {f : File} (hs : s.Encoding)
    (hf : f.name.length + f.data.length < 2 ^ 64) :
    ∃ (t : State) (l : List LenEntry) (x : List Bool),
      command .encfile (encfileProc tb) { s with namein := f.name, datain := f.data } = .next t ∧ t.Encoding ∧ usableList l ∧
      ∀ fs : List File, t.bsw.bits = s.bsw.bits ++ s.pendingBits (f :: fs) ++ x ∧
        blockBits l f (terminator fs) = some (x ++ t.pendingBits fs) := by
  obtain ⟨counts, t, m, e, codes, -, ht, hpos, hm, he, hcodes, henc⟩ :=
    encodeFile_ok tb { s with namein := f.name, datain := f.data } hf
  obtain ⟨hbits, hopen, -, hclean⟩ := appendBits_open _ hs.isOpen
  refine ⟨_, lenEntries t, headerBits (lenEntries t) ++ codes, encfile_next hs.fault hs.isOpen henc,
    ⟨hs.fault, hopen, hclean hs.clean⟩, usableList_buildTable ht hpos, fun fs => ⟨?_, ?_⟩⟩
  · rw [hbits, List.append_assoc, List.append_assoc]
    rfl
  · rw [List.append_assoc]
    have hblock {term : Sym} {c : Code} := blockBits_of_codes (f := f) (term := term) (c := c) (tableOf_buildTable ht) hcodes
    cases fs with
    | nil => exact hblock he
    | cons f' fs => exact hblock hm

/-- SINK holds the earlier bits, the earlier block's terminator, a chain of blocks of the given files, and the padding. -/
def Archived (s : State) (fs : List File) (sink : List Byte) : Prop :=
  ∃ blocks bs k, blocks.map Block.file = fs ∧ (∀ b ∈ blocks, usableList b.lens) ∧ archiveBits blocks = some bs ∧ k < 8 ∧
    streamBits sink = s.bsw.bits ++ s.pendingBits fs ++ bs ++ List.replicate k false

/-- An encode session writes a chain of blocks (70_reset_and_hazards.md R274), for every tie-break. -/
theorem encodeSession_archived (tb : Config.TieBreak) (fs : List File) {s : State} (hs : s.Encoding)
    (hfs : ∀ f ∈ fs, f.name.length + f.data.length < 2 ^ 64) :
    ∃ u, encodeSession tb fs s = some u ∧ u.fault = false ∧ Archived s fs u.bsw.sink := by
  induction fs generalizing s with
  | nil =>
    obtain ⟨k, hk, hstream⟩ := closedBsw_streamBits hs.clean
    refine ⟨{ s with bsw := s.closedBsw }, ?_, hs.fault, [], [], k, rfl, List.forall_mem_nil _, rfl, hk, ?_⟩
    · rw [encodeSession, encclose_next hs.fault hs.isOpen]
    · rw [List.append_nil]
      exact hstream
  | cons f fs ih =>
    obtain ⟨hf, hfs⟩ := List.forall_mem_cons.mp hfs
    obtain ⟨t, l, x, hstep, ht, hl, hx⟩ := encfile_block tb hs hf
    obtain ⟨u, hsession, hu, blocks, bs, k, rfl, husable, harchive, hk, hstream⟩ := ih ht hfs
    obtain ⟨hbits, hblock⟩ := hx (blocks.map Block.file)
    rw [terminator_map] at hblock
    refine ⟨u, ?_, hu, ⟨l, f⟩ :: blocks, _, k, rfl, List.forall_mem_cons.mpr ⟨hl, husable⟩,
      archiveBits_cons.mpr ⟨_, bs, hblock, harchive, rfl⟩, hk, ?_⟩
    · rw [encodeSession, hstep]
      exact hsession
    · rw [hstream, hbits]
      simp only [List.append_assoc]

theorem reset_encoding : State.reset.Encoding := ⟨rfl, rfl, fun _ _ => BitVec.getLsbD_zero⟩

/-- The padding alone fills no byte. -/
theorem eq_nil_of_streamBits_replicate {sink : List Byte} {k : Nat} (hk : k < 8) (h : streamBits sink = List.replicate k false) :
    sink = [] := by
  have hlen := congrArg List.length h
  rw [streamBits_length, List.length_replicate] at hlen
  exact List.eq_nil_of_length_eq_zero (by omega)

/-- DECALL from reset hands over what an encode session from reset archived (R217). -/
theorem decall_archived {fs : List File} {sink : List Byte} (h : Archived State.reset fs sink) :
    ∃ t, exec .decall { State.reset with bsr := ⟨sink, 0, 0, false⟩ } = .next t ∧ t.fault = false ∧ t.bsr.eos = false ∧
      t.out = archiveEvents fs := by
  obtain ⟨blocks, bs, k, rfl, husable, harchive, hk, hstream⟩ := h
  change streamBits sink = bs ++ List.replicate k false at hstream
  rcases List.eq_nil_or_concat' blocks with rfl | ⟨init, last, rfl⟩
  · cases harchive
    obtain rfl := eq_nil_of_streamBits_replicate hk hstream
    exact ⟨_, decallOfTheEmptyArchive _ rfl rfl rfl, rfl, rfl, rfl⟩
  · have h8 : (0 : BitVec 4).toNat ≤ 8 := by decide
    obtain ⟨t, c, r, -, -, hdec, -, heos, -⟩ := decallDecodesTheArchive { State.reset with bsr := ⟨sink, 0, 0, false⟩ } init last bs
      (List.replicate k false) rfl rfl h8 husable harchive ((unread_fresh sink).trans hstream)
    exact ⟨_, hdec, rfl, heos, rfl⟩

/-- Settles O53: the session archives the files, and DECALL decodes what it archived. -/
theorem archiveRoundTrip : Obligations.ArchiveRoundTrip := by
  intro tb fs hfs
  obtain ⟨u, hsession, hu, harchived⟩ := encodeSession_archived tb fs reset_encoding hfs
  obtain ⟨t, hdec, ht⟩ := decall_archived harchived
  exact ⟨u, t, hsession, hu, hdec, ht⟩

end Sys2Proof.Machine
end

section
/-! PROOFS. The command RESET and the reset input (44_system.md R230, 70_reset_and_hazards.md R270): both leave `resetState`. -/

namespace Sys2Proof.Machine

/-- RESET runs whatever FAULT is (30_encoding.md R95 step 1). -/
theorem exec_reset (s : State) : exec .reset s = .next (resetState s) := rfl

/-- The reset input takes the host's action off the script and resets the rest (70_reset_and_hazards.md R270). -/
theorem step_resetInput {s : State} {rest : List HostAction} (h : s.script = .resetInput :: rest) :
    step s = .next (resetState { s with script := rest }) := by
  rw [step_of_script h, hostAction]

/-- Settles O10: the literal state is `resetState` with the values of `State.reset` written out (10_state.md R47). -/
theorem resetSetsEveryElement : Obligations.ResetSetsEveryElement := by
  intro s
  refine ⟨exec_reset s, fun rest h => ?_⟩
  rw [step_resetInput h, exec_reset]

end Sys2Proof.Machine
end

section
/-! PROOFS. The exceptions (60_exceptions.md): which kinds a command raises (R256), what trap entry leaves (R246), that the fault state
ignores commands (R248), and DegenerateError (R245). -/

namespace Sys2Proof.Machine

/-! ### The kinds a command raises -/

/-- A well-formed command that takes FAULT from 0 to 1 traps with the kind its procedure raises, on the state at the raise. -/
theorem trap_of_exec {i : Instr} {s t : State} (hw : i.wf = true) (hf : s.fault = false) (h : exec i s = .next t)
    (ht : t.fault = true) : ∃ k u, procOf i s = .error k u ∧ t = trapEntry k u := by
  have hi : i ≠ .reset := by
    rintro rfl
    cases h
    cases ht
  rw [exec_eq_command hi] at h
  rcases command_cases h with ⟨hf', -⟩ | ⟨-, hw', -⟩ | ⟨-, -, hp⟩ | ⟨-, -, htrap⟩
  · exact absurd (hf'.symm.trans hf) (by decide)
  · exact absurd (hw'.symm.trans hw) (by decide)
  · obtain ⟨-, hkeep, -⟩ := Ends.frame ⟨hi, hw, hp⟩
    exact absurd ((ht.symm.trans hkeep).trans hf) (by decide)
  · exact htrap

/-- Every kind that decoding blocks meets is in the rows of DECBLOCK and DECALL. -/
theorem mem_mayRaise_of_blockKind {k : ErrKind} (h : blockKind k) : k ∈ mayRaise .decblock := by
  rcases h with ((rfl | rfl) | rfl) | (rfl | rfl | rfl) | rfl <;> decide

/-- The kind a well-formed command's procedure raises is in the command's row of the table (R256). -/
theorem mem_mayRaise_of_procOf_error {i : Instr} {s u : State} {k : ErrKind} (hw : i.wf = true) (h : procOf i s = .error k u) :
    k ∈ mayRaise i := by
  cases i with
  | reset | fclr | fset y | fget y | lclr => cases h
  | rdbits n => exact List.mem_singleton.mpr ((rdbitsProc_sat n s).of_error h).1
  | wrbits n => exact List.mem_singleton.mpr ((wrbitsProc_sat n s).of_error h).1
  | wrflush => exact List.mem_singleton.mpr ((wrflushProc_sat s).of_error h).1
  | finc y => exact List.mem_singleton.mpr ((freqInc_sat (of_decide_eq_true hw) s).of_error h).1
  | build => exact List.mem_singleton.mpr ((build_sat tieBreak s).of_error h).1
  | ctrd j => exact List.mem_singleton.mpr ((ctrdProc_sat j s).of_error h).1
  | lpush y l => exact List.mem_singleton.mpr ((listPush_sat y l s).of_error h).1
  | rebuild => exact List.mem_singleton.mpr ((rebuild_frame s).of_error h).1
  | walk b => exact List.mem_singleton.mpr ((walkProc_sat b s).of_error h).1
  | hdrwr => exact List.mem_singleton.mpr ((hdrwrProc_sat s).of_error h).1
  | encsym y => exact List.mem_singleton.mpr ((encsymProc_sat y s).of_error h).1
  | encclose => exact List.mem_singleton.mpr ((enccloseProc_sat s).of_error h).1
  | hdrrd => rcases ((readHeader_sat s).of_error h).1 with rfl | rfl | rfl <;> decide
  | decsym => rcases ((decsymProc_sat s).of_error h).1 with rfl | rfl <;> decide
  | encfile => rcases ((encfileProc_sat tieBreak s).of_error h).1 with rfl | rfl <;> decide
  | decblock => exact mem_mayRaise_of_blockKind ((decblockProc_sat s).of_error h).1
  | decall => exact mem_mayRaise_of_blockKind ((decallProc_sat s).of_error h).1

/-- Settles O58: FAULT is set by a raise of the procedure, and the kinds procedures raise are those of the table;
that BUILD never raises CapacityError rests on MAXLEN = 258 (log entry 5). -/
theorem commandsRaiseOnlyTheirKinds : Obligations.CommandsRaiseOnlyTheirKinds := by
  intro i s t hw hf h ht
  obtain ⟨k, u, hp, rfl⟩ := trap_of_exec hw hf h ht
  exact ⟨k, mem_mayRaise_of_procOf_error hw hp, trapEntry_err k u⟩

/-! ### The fault state and trap entry -/

/-- While FAULT = 1 every command but RESET is ignored (R248). -/
theorem exec_of_fault {i : Instr} {s : State} (hi : i ≠ .reset) (hf : s.fault = true) : exec i s = .next s := by
  rw [exec_eq_command hi, command_fault hf]

/-- Settles O8: the command is ignored, and so is the word before it is decoded. -/
theorem faultStateIgnoresCommands : Obligations.FaultStateIgnoresCommands := by
  intro s hf
  refine ⟨fun i hi => exec_of_fault hi hf, fun w rest hw h => ?_⟩
  rw [step_issue h]
  exact issueWord_of_fault hw hf

/-- A procedure's raise enters the trap on the state its executed lines left (R246). -/
theorem finish_error (k : ErrKind) (t : State) : finish (.error k t) = .next (trapEntry k t) := rfl

/-- Settles O9, element by element. -/
theorem trapEntryKeepsTheStreams : Obligations.TrapEntryKeepsTheStreams :=
  ⟨fun k t => ⟨trapEntry k t, finish_error k t, trapEntry_fault k t, trapEntry_err k t, trapEntry_wdata k t, trapEntry_bsr_src k t,
    trapEntry_bsw_sink k t, trapEntry_out k t, trapEntry_namein k t, trapEntry_datain k t⟩, by decide⟩

/-! ### BUILD without a symbol -/

/-- Without a present symbol BUILD raises DegenerateError, whatever the tie-break (41_tree_engine.md R161): the other outcome would be
a tree without a leaf. -/
theorem buildTable_of_no_symbol (tb : Config.TieBreak) {f : Vector Count Config.nsym} (h : ∀ y (hy : y < Config.nsym), f[y] = 0) :
    buildTable tb f = .error .degenerate := by
  have hnone : presentSymbols f = [] := by
    by_contra hsome
    obtain ⟨y, hy, hne⟩ := presentSymbols_ne_nil.mp hsome
    exact hne (h y hy)
  rcases buildTable_cases tb f with ⟨-, herror⟩ | ⟨root, -, -, hperm, -⟩
  · exact herror
  · rw [hnone] at hperm
    exact absurd hperm.eq_nil (leaves_ne_nil root)

/-- Settles O28: the table step finds no symbol and raises, before CT is written. -/
theorem buildOfNothingIsDegenerate : Obligations.BuildOfNothingIsDegenerate := fun s hf hzero =>
  command_error (p := build tieBreak) hf rfl (by simp only [build, buildTable_of_no_symbol tieBreak hzero])

end Sys2Proof.Machine
end

section
/-! PROOFS. Write commands after the writer's disposal (70_reset_and_hazards.md R277). -/

namespace Sys2Proof.Machine

/-- A well-formed command that begins with the entry check of the write commands traps on a closed writer from the unchanged state,
whatever its procedure would do next (10_state.md R27). -/
theorem command_checkOpen_closed {i : Instr} {s : State} (p : Proc Unit) (hf : s.fault = false) (hw : i.wf = true)
    (hc : s.bsw.wclosed = true) : command i (do checkOpen; p) s = .next (trapEntry .illegalCommand s) :=
  command_error hf hw (checkOpen_bind_closed p hc)

/-- Settles O20, by cases on the write command: each begins with `checkOpen`, and only WRBITS has an operand range. -/
theorem closedWriterRefusesWrites : Obligations.ClosedWriterRefusesWrites := by
  intro i s hf hc hi
  rcases hi with rfl | rfl | rfl | rfl | ⟨y, rfl⟩ | ⟨n, rfl, h1, h64⟩
  · exact command_checkOpen_closed _ hf rfl hc
  · exact command_checkOpen_closed _ hf rfl hc
  · exact command_checkOpen_closed _ hf rfl hc
  · exact command_checkOpen_closed _ hf rfl hc
  · exact command_checkOpen_closed _ hf rfl hc
  · have hwf : (Instr.wrbits n).wf = true := by rw [wrbits_wf, decide_eq_true_iff]; exact ⟨h1, h64⟩
    exact command_checkOpen_closed _ hf hwf hc

end Sys2Proof.Machine
end

section
/-! PROOFS. Host accesses that reach neither a whole register nor the reserved offsets (spec 20_memory.md R70,
93_implementation_defined.md U12). -/

namespace Sys2Proof.Machine

theorem mem_wholeRegisters_rcode {off : Nat} (hlo : 0x40 ≤ off) (hhi : off < 0x68) (halign : off % 8 = 0) :
    (off, AccessSize.b8) ∈ wholeRegisters := by
  obtain rfl | rfl | rfl | rfl | rfl : off = 0x40 ∨ off = 0x48 ∨ off = 0x50 ∨ off = 0x58 ∨ off = 0x60 := by omega
  all_goals decide

/-- The register map reaches whole registers alone (20_memory.md R70). -/
theorem mem_wholeRegisters_of_regAt {off : Nat} {size : AccessSize} {r : HostReg} (h : regAt off size = some r) :
    (off, size) ∈ wholeRegisters := by
  cases size with
  | b1 | b2 => cases h
  | b4 =>
    have hoff : off = 0x00 ∨ off = 0x04 ∨ off = 0x18 ∨ off = 0x1C ∨ off = 0x20 ∨ off = 0x24 := by
      by_contra hnone
      simp only [not_or] at hnone
      simp [regAt, hnone] at h
    rcases hoff with rfl | rfl | rfl | rfl | rfl | rfl <;> decide
  | b8 =>
    have hoff : off = 0x08 ∨ off = 0x10 ∨ 0x40 ≤ off ∧ off < 0x40 + 8 * 5 ∧ off % 8 = 0 := by
      by_contra hnone
      obtain ⟨hwdata, hrdata, hrcode⟩ : _ ∧ _ ∧ _ := by simpa only [not_or] using hnone
      rw [regAt, if_neg hwdata, if_neg hrdata, rcodeWords_eq, if_neg hrcode] at h
      cases h
    rcases hoff with rfl | rfl | ⟨hlo, hhi, halign⟩
    · decide
    · decide
    · exact mem_wholeRegisters_rcode hlo hhi halign

/-- The last whole register ends where the reserved offsets above RCODE begin (20_memory.md R70). -/
theorem end_le_of_mem_wholeRegisters {off : Nat} {size : AccessSize} (h : (off, size) ∈ wholeRegisters) :
    off + size.bytes ≤ 0x68 :=
  (by decide : ∀ a ∈ wholeRegisters, a.1 + a.2.bytes ≤ 0x68) _ h

theorem reservedAt_iff {off : Nat} {size : AccessSize} : reservedAt off size = true ↔ ReservedAccess off size := by
  simp only [reservedAt, Bool.or_eq_true, Bool.and_eq_true, decide_eq_true_eq]
  rfl

/-- A host access that reaches neither a whole register nor the reserved offsets alone is a bad one, read or write. -/
theorem step_badAccess {s : State} {off : Nat} {size : AccessSize} {v : BitVec 64} {rest : List HostAction}
    (hscript : s.script = .readReg off size :: rest ∨ s.script = .writeReg off size v :: rest)
    (hreg : (off, size) ∉ wholeRegisters) (hres : ¬ ReservedAccess off size) : step s = badAccess off size := by
  have hnone : regAt off size = none := Option.eq_none_iff_forall_ne_some.mpr fun _ hr => hreg (mem_wholeRegisters_of_regAt hr)
  have hreserved : reservedAt off size = false := Bool.eq_false_iff.mpr (mt reservedAt_iff.mp hres)
  rcases hscript with h | h
  · simp only [step_of_script h, hostAction, hostRead, hnone, hreserved, Bool.false_eq_true, if_false]
  · simp only [step_of_script h, hostAction, hostWrite, hnone, hreserved, Bool.false_eq_true, if_false]

theorem badAccess_inside {off : Nat} {size : AccessSize} (h : off + size.bytes ≤ 0x80) :
    badAccess off size = .refused .partialRegisterAccess := if_neg (Nat.not_lt.mpr h)

theorem badAccess_beyond {off : Nat} {size : AccessSize} (h : 0x80 < off + size.bytes) :
    badAccess off size = .fault .outsideRegisterSpace := if_pos h

/-- Settles O13: the access is a bad one, and where it ends says which stop it makes. -/
theorem partialHostAccessesStop : Obligations.PartialHostAccessesStop := by
  intro s off size v rest hscript
  refine ⟨fun hend hreg hres => ?_, fun hend => ?_⟩
  · have hres' : ¬ ReservedAccess off size := fun h => hres (h.imp_right And.left)
    rw [step_badAccess hscript hreg hres', badAccess_inside hend]
  · have hreg : (off, size) ∉ wholeRegisters := fun h => by
      have := end_le_of_mem_wholeRegisters h
      omega
    have hres : ¬ ReservedAccess off size := by
      rw [ReservedAccess]
      omega
    rw [step_badAccess hscript hreg hres, badAccess_beyond hend]

end Sys2Proof.Machine
end

section
/-! PROOFS. One counter and one list entry at a time (spec 41_tree_engine.md): FINC, FSET and FGET (R151 to R153), LCLR and LPUSH
(R167, R169). -/

namespace Sys2Proof.Machine

/-! ### FINC, FSET and FGET -/

theorem freqAt_eq {s : State} {y : Sym} (h : y.toNat < Config.nsym) : s.freqAt y = s.freq[y.toNat] := by
  rw [State.freqAt, Vector.getElem?_eq_getElem h, Option.getD_some]

theorem setFreq_getElem_self (s : State) {y : Sym} (c : Count) (h : y.toNat < Config.nsym) :
    (s.setFreq y c).freq[y.toNat] = c := by
  simp only [setFreq_freq, Vector.getElem_setIfInBounds_self]

theorem setFreq_getElem_ne (s : State) {y : Sym} (c : Count) (z : Nat) (hz : z < Config.nsym) (hne : z ≠ y.toNat) :
    (s.setFreq y c).freq[z] = s.freq[z] := by
  simp only [setFreq_freq]
  exact Vector.getElem_setIfInBounds_ne hz hne.symm

theorem count_eq_allOnes_iff {c : Count} : c = BitVec.allOnes Config.freqW ↔ c.toNat = 2 ^ 64 - 1 := by
  rw [← BitVec.toNat_inj, BitVec.toNat_allOnes]

/-- A counter below its limit does not wrap (R151). -/
theorem toNat_add_one_of_ne_limit {c : Count} (hc : c.toNat ≠ 2 ^ 64 - 1) : (c + 1).toNat = c.toNat + 1 := by
  have hlt : c.toNat < 2 ^ 64 := c.isLt
  exact BitVec.toNat_add_of_lt (show c.toNat + 1 < 2 ^ 64 by omega)

theorem freqInc_below {s : State} {y : Sym} (h : y.toNat < Config.nsym) (hc : s.freq[y.toNat].toNat ≠ 2 ^ 64 - 1) :
    freqInc y s = .ok () (s.setFreq y (s.freq[y.toNat] + 1)) := by
  rw [freqInc, freqAt_eq h, if_neg (mt count_eq_allOnes_iff.mp hc)]

theorem freqInc_limit {s : State} {y : Sym} (h : y.toNat < Config.nsym) (hc : s.freq[y.toNat].toNat = 2 ^ 64 - 1) :
    freqInc y s = .error .capacity s := by
  rw [freqInc, freqAt_eq h, if_pos (count_eq_allOnes_iff.mpr hc)]

/-- Settles O25: the counter is below its limit or at it, and a symbol above 258 has none. -/
theorem fincCountsOneOccurrence : Obligations.FincCountsOneOccurrence := by
  intro y s hf
  refine ⟨fun h => ⟨fun hc => ?_, fun hc => ?_⟩, fun hy => ?_⟩
  · refine ⟨(s.setFreq y (s.freq[y.toNat] + 1)).freq,
      command_ok (p := freqInc y) hf (decide_eq_true h) (freqInc_below h hc), ?_, setFreq_getElem_ne s _⟩
    rw [setFreq_getElem_self s _ h, toNat_add_one_of_ne_limit hc]
  · exact command_error (p := freqInc y) hf (decide_eq_true h) (freqInc_limit h hc)
  · exact command_illegal (p := freqInc y) hf (decide_eq_false (Nat.not_lt.mpr hy))

/-- FREQ_W = 64 (log entry 5): FSET takes all of WDATA, and FGET needs no padding. -/
theorem countOperand_eq (v : BitVec 64) : countOperand v = v := BitVec.setWidth_eq v

theorem fgetProc_eq {s : State} {y : Sym} (h : y.toNat < Config.nsym) :
    fgetProc y s = .ok () { s with rdata := s.freq[y.toNat] } := by
  rw [fgetProc, proc_modify, freqAt_eq h, BitVec.setWidth_eq]

/-- Settles O26: a symbol up to 258 has a counter, which FSET writes and FGET reads. -/
theorem fsetStoresAndFgetReads : Obligations.FsetStoresAndFgetReads := by
  intro y s hf
  refine ⟨fun h => ⟨?_, ?_⟩, fun hy => ⟨?_, ?_⟩⟩
  · refine ⟨(s.setFreq y (countOperand s.wdata)).freq,
      command_ok (p := fsetProc y) hf (decide_eq_true h) (proc_modify _ s), ?_, setFreq_getElem_ne s _⟩
    rw [setFreq_getElem_self s _ h, countOperand_eq]
  · exact command_ok (p := fgetProc y) hf (decide_eq_true h) (fgetProc_eq h)
  · exact command_illegal (p := fsetProc y) hf (decide_eq_false (Nat.not_lt.mpr hy))
  · exact command_illegal (p := fgetProc y) hf (decide_eq_false (Nat.not_lt.mpr hy))

/-! ### LCLR and LPUSH -/

theorem listPush_fits {y : Sym} {l : Len} {s : State} (hl : l.toNat ≤ Config.maxLen) (hlen : s.ll.length < Config.llMax) :
    listPush y l s = .ok () { s with ll := s.ll ++ [⟨y, l⟩] } := by
  rw [listPush, if_neg (Nat.not_lt.mpr hl), if_neg (Nat.not_le.mpr hlen)]

theorem listPush_capacity {y : Sym} {l : Len} {s : State} (h : Config.maxLen < l.toNat ∨ Config.llMax ≤ s.ll.length) :
    listPush y l s = .error .capacity s := by
  by_cases hl : Config.maxLen < l.toNat
  · rw [listPush, if_pos hl]
  · rw [listPush, if_neg hl, if_pos (h.resolve_left hl)]

/-- Settles O36: the pair fits, meets a limit of the list, or has no legal length. -/
theorem lclrAndLpushKeepTheList : Obligations.LclrAndLpushKeepTheList := by
  intro y l s hf
  refine ⟨command_ok (p := listClear) hf rfl (proc_modify _ s), fun h1 hl hlen => ?_, fun h1 hcap => ?_, fun h0 => ?_⟩
  · exact command_ok (p := listPush y l) hf (decide_eq_true h1) (listPush_fits hl hlen)
  · exact command_error (p := listPush y l) hf (decide_eq_true h1) (listPush_capacity hcap)
  · exact command_illegal (p := listPush y l) hf (decide_eq_false (by omega))

end Sys2Proof.Machine
end
